-- ==== Sys2Proof/Word.lean ====
section
/-! DEFINITION. The word types of the block (spec/00_scope.md R11, R14). -/

namespace Sys2Proof

/-- One byte of `MEM` (R60). -/
abbrev Byte := BitVec 8

/-- A data value, an operand, a result, a position or a bit count: 64 bits (R11). -/
abbrev Word := BitVec 64

/-- An address, a base, a length or a capacity: 32 bits (R11). -/
abbrev Addr := BitVec 32

/-- A command word: 32 bits (R90). -/
abbrev CommandWord := BitVec 32

/-- A value the Simple8B encoder can pack: at most `2^60 - 1` (R47, R200). -/
abbrev Packable := BitVec 60

end Sys2Proof
end

