-- ==== Sys2Proof/Syntax.lean ====
section
/-! DEFINITION. The GPK command set version 1: one constructor per row of spec/opcode_table.json
(spec/30_encoding.md R91, R95), in the table's order. -/

namespace Sys2Proof

/-- A command. The 64-bit operand `DIN` is not part of the command word (R20): it is in the state. -/
inductive Instr where
  /-- `NOP` (R120). -/
  | nop
  /-- `CSRR csr` (R121); the number may be unassigned (R93). -/
  | csrr (csr : BitVec 8)
  /-- `CSRW csr, din` (R122); the number may be unassigned (R93). -/
  | csrw (csr : BitVec 8)
  /-- `CLRERR` (R123). -/
  | clrerr
  /-- `SRESET` (R124). -/
  | sreset
  /-- `BW.CLR` (R140). -/
  | bwClr
  /-- `BW.PUT w, din` (R141): `w` is a bit count. -/
  | bwPut (w : BitVec 8)
  /-- `BW.BLEN` (R142). -/
  | bwBlen
  /-- `BR.GET w` (R150): `w` is a bit count. -/
  | brGet (w : BitVec 8)
  /-- `BR.BIT` (R151). -/
  | brBit
  /-- `BR.END` (R152). -/
  | brEnd
  /-- `YW.CLR` (R170). -/
  | ywClr
  /-- `YW.PUT w, din` (R171): `w` is a byte count. -/
  | ywPut (w : BitVec 8)
  /-- `YW.CPY din` (R172). -/
  | ywCpy
  /-- `YR.GET w` (R180): `w` is a byte count. -/
  | yrGet (w : BitVec 8)
  /-- `YR.SUB din` (R181). -/
  | yrSub
  /-- `ZZ.ENC din` (R190). -/
  | zzEnc
  /-- `ZZ.DEC din` (R191). -/
  | zzDec
  /-- `SE.CLR` (R210). -/
  | seClr
  /-- `SE.PUSH din` (R211). -/
  | sePush
  /-- `SE.FLUSH` (R213). -/
  | seFlush
  /-- `SD.CLR` (R220). -/
  | sdClr
  /-- `SD.NEXT` (R221). -/
  | sdNext
  /-- `DE.CLR` (R245). -/
  | deClr
  /-- `DE.PUSH din` (R246). -/
  | dePush
  /-- `DD.CLR` (R250). -/
  | ddClr
  /-- `DD.NEXT` (R251). -/
  | ddNext
  /-- `GE.CLR` (R270). -/
  | geClr
  /-- `GE.PUT din` (R271). -/
  | gePut
  /-- `GD.CLR` (R280). -/
  | gdClr
  /-- `GD.NEXT` (R281). -/
  | gdNext
  deriving DecidableEq, Repr

/-- The control and status registers of the map of spec/10_state.md R26, in its order. -/
inductive Csr where
  | status | config | memsz
  | bwBase | bwCap | bwBits
  | brBase | brLen | brPos
  | ywBase | ywCap | ywLen
  | yrBase | yrLen | yrPos
  | seCnt | sdWord | sdCtrl
  | dePrev | dePdelta | dePhase
  | ddLast | ddDelta | ddPhase
  | geLast | geCtrl | gdLast | gdCtrl
  deriving DecidableEq, Repr

/-- The access types of R25. -/
inductive CsrAccess where
  /-- Read-only: `CSRW` raises ERR_ILLEGAL. -/
  | ro
  /-- Bits 31:0 writable. -/
  | rw32
  /-- All 64 bits writable. -/
  | rw64
  /-- Bit 0 writable. -/
  | rw1
  deriving DecidableEq, Repr

end Sys2Proof
end

