-- ==== Sys2Proof/WellFormed.lean ====
section
/-! DEFINITION. Which instruction terms a command word can stand for (spec/30_encoding.md R92, R93). -/

namespace Sys2Proof

/-- A bit count of `BW.PUT` or `BR.GET`: 0 to 64 (R92). -/
def legalBitCount (w : BitVec 8) : Bool := w.toNat ≤ 64

/-- A byte count of `YW.PUT` or `YR.GET`: 1, 2, 4 or 8 (R92). -/
def legalByteCount (w : BitVec 8) : Bool := w.toNat == 1 || w.toNat == 2 || w.toNat == 4 || w.toNat == 8

/-- The check of R92; a CSR number is never ill-formed, assigned or not (R93). -/
def Instr.wf : Instr → Bool
  | .bwPut w | .brGet w => legalBitCount w
  | .ywPut w | .yrGet w => legalByteCount w
  | .nop | .csrr _ | .csrw _ | .clrerr | .sreset | .bwClr | .bwBlen | .brBit | .brEnd | .ywClr | .ywCpy
  | .yrSub | .zzEnc | .zzDec | .seClr | .sePush | .seFlush | .sdClr | .sdNext | .deClr | .dePush | .ddClr
  | .ddNext | .geClr | .gePut | .gdClr | .gdNext => true

/-- `i` is an instruction that some command word stands for. -/
abbrev WellFormed (i : Instr) : Prop := i.wf = true

end Sys2Proof
end

