-- ==== Sys2Proof/Decode.lean ====
section
/-! DEFINITION. Decoding a command word in the order of spec/30_encoding.md R96, and the encoder of R90, R91 and R95. -/

namespace Sys2Proof

/-- Why a command word is illegal (R96, R97): the first check that fails. -/
inductive IllegalWord where
  /-- `Z` is not 0. -/
  | reservedBits
  /-- `OP` is a reserved value, 0x00 among them. -/
  | reservedOpcode
  /-- A field that the format does not use is not 0. -/
  | unusedField
  /-- `W` is outside the legal set of R92. -/
  | illegalWidth
  deriving DecidableEq, Repr

/-- `OP`, bits 7:0 (R90). -/
def fieldOp (c : CommandWord) : BitVec 8 := c.extractLsb' 0 8

/-- `W`, bits 15:8 (R90). -/
def fieldW (c : CommandWord) : BitVec 8 := c.extractLsb' 8 8

/-- `R`, bits 23:16 (R90). -/
def fieldR (c : CommandWord) : BitVec 8 := c.extractLsb' 16 8

/-- `Z`, bits 31:24 (R90). -/
def fieldZ (c : CommandWord) : BitVec 8 := c.extractLsb' 24 8

/-- What an opcode stands for, by format (R91): N with its command, W with its legal widths, R. -/
inductive OpcodeEntry where
  | formatN (i : Instr)
  | formatW (legal : BitVec 8 → Bool) (mk : BitVec 8 → Instr)
  | formatR (mk : BitVec 8 → Instr)

/-- The opcode map of R95; `none` is a reserved opcode. -/
def opcodeEntry (op : BitVec 8) : Option OpcodeEntry :=
  match op with
  | 0x01#8 => some (.formatN .nop)
  | 0x02#8 => some (.formatR .csrr)
  | 0x03#8 => some (.formatR .csrw)
  | 0x04#8 => some (.formatN .clrerr)
  | 0x05#8 => some (.formatN .sreset)
  | 0x10#8 => some (.formatN .bwClr)
  | 0x11#8 => some (.formatW legalBitCount .bwPut)
  | 0x12#8 => some (.formatN .bwBlen)
  | 0x20#8 => some (.formatW legalBitCount .brGet)
  | 0x21#8 => some (.formatN .brBit)
  | 0x22#8 => some (.formatN .brEnd)
  | 0x30#8 => some (.formatN .ywClr)
  | 0x31#8 => some (.formatW legalByteCount .ywPut)
  | 0x32#8 => some (.formatN .ywCpy)
  | 0x40#8 => some (.formatW legalByteCount .yrGet)
  | 0x41#8 => some (.formatN .yrSub)
  | 0x50#8 => some (.formatN .zzEnc)
  | 0x51#8 => some (.formatN .zzDec)
  | 0x60#8 => some (.formatN .seClr)
  | 0x61#8 => some (.formatN .sePush)
  | 0x62#8 => some (.formatN .seFlush)
  | 0x70#8 => some (.formatN .sdClr)
  | 0x71#8 => some (.formatN .sdNext)
  | 0x80#8 => some (.formatN .deClr)
  | 0x81#8 => some (.formatN .dePush)
  | 0x90#8 => some (.formatN .ddClr)
  | 0x91#8 => some (.formatN .ddNext)
  | 0xA0#8 => some (.formatN .geClr)
  | 0xA1#8 => some (.formatN .gePut)
  | 0xB0#8 => some (.formatN .gdClr)
  | 0xB1#8 => some (.formatN .gdNext)
  | _ => none

/-- The format checks of R96 for a word whose opcode is in the map. -/
def decodeFields (e : OpcodeEntry) (w r : BitVec 8) : Except IllegalWord Instr :=
  match e with
  | .formatN i => if w ≠ 0#8 ∨ r ≠ 0#8 then .error .unusedField else .ok i
  | .formatW legal mk =>
    if r ≠ 0#8 then .error .unusedField else if legal w then .ok (mk w) else .error .illegalWidth
  | .formatR mk => if w ≠ 0#8 then .error .unusedField else .ok (mk r)

/-- `Decode(c)` of R96: the first check that fails decides. -/
def decode (c : CommandWord) : Except IllegalWord Instr :=
  if fieldZ c ≠ 0#8 then .error .reservedBits
  else match opcodeEntry (fieldOp c) with
    | none => .error .reservedOpcode
    | some e => decodeFields e (fieldW c) (fieldR c)

/-- The command word with fields `Z = 0`, `R`, `W`, `OP` (R90). -/
def commandWord (op w r : BitVec 8) : CommandWord := 0#8 ++ r ++ w ++ op

/-- The command word of an instruction (R91, R95). -/
def encode (i : Instr) : CommandWord :=
  match i with
  | .nop => commandWord 0x01 0 0
  | .csrr r => commandWord 0x02 0 r
  | .csrw r => commandWord 0x03 0 r
  | .clrerr => commandWord 0x04 0 0
  | .sreset => commandWord 0x05 0 0
  | .bwClr => commandWord 0x10 0 0
  | .bwPut w => commandWord 0x11 w 0
  | .bwBlen => commandWord 0x12 0 0
  | .brGet w => commandWord 0x20 w 0
  | .brBit => commandWord 0x21 0 0
  | .brEnd => commandWord 0x22 0 0
  | .ywClr => commandWord 0x30 0 0
  | .ywPut w => commandWord 0x31 w 0
  | .ywCpy => commandWord 0x32 0 0
  | .yrGet w => commandWord 0x40 w 0
  | .yrSub => commandWord 0x41 0 0
  | .zzEnc => commandWord 0x50 0 0
  | .zzDec => commandWord 0x51 0 0
  | .seClr => commandWord 0x60 0 0
  | .sePush => commandWord 0x61 0 0
  | .seFlush => commandWord 0x62 0 0
  | .sdClr => commandWord 0x70 0 0
  | .sdNext => commandWord 0x71 0 0
  | .deClr => commandWord 0x80 0 0
  | .dePush => commandWord 0x81 0 0
  | .ddClr => commandWord 0x90 0 0
  | .ddNext => commandWord 0x91 0 0
  | .geClr => commandWord 0xA0 0 0
  | .gePut => commandWord 0xA1 0 0
  | .gdClr => commandWord 0xB0 0 0
  | .gdNext => commandWord 0xB1 0 0

/-- The command word that the low `nbits` bits of `w` are (the table's numbering: bit 0 is the least significant). -/
def tableWord (nbits w : Nat) : CommandWord := BitVec.ofNat 32 (w % 2 ^ nbits)

/-- The instruction the decoder reads from a row's bits. -/
def decodeTableWord (nbits w : Nat) : Option Instr := (decode (tableWord nbits w)).toOption

end Sys2Proof
end

