-- ==== Sys2Proof/Config.lean ====
section
/-! DEFINITION. What an implementation fixes (spec/00_scope.md R10, R12; log entries 3 and 4). -/

namespace Sys2Proof

/-- The smallest `MEM_BYTES` (R10). -/
def Config.minMemBytes : Nat := 64

/-- The largest `MEM_BYTES` (R10). -/
def Config.maxMemBytes : Nat := 2 ^ 32

/-- DESIGN CHOICE (log entry 3, unsafe): the `MEM_BYTES` that `State.reset` carries. R10 leaves it open, and every
statement is about states of any size; 4096 is the size spec/95_test_vectors.md assumes. -/
def Config.memBytes : Nat := 4096

/-- DESIGN CHOICE (log entry 4, unsafe): what a byte of `MEM` that nothing has written reads as. R342 leaves the
power-on contents open; any contents can be listed explicitly (`State.powerOn`). -/
def Config.powerOnByte : Byte := 0

/-- The number of values at which the Simple8B encoder emits a word (R12, R211). -/
def Config.fifoDepth : Nat := 60

end Sys2Proof
end

