-- ==== Sys2Proof/Machine/State.lean ====
section
/-! DEFINITION. The state of the block (spec/10_state.md, spec/20_memory.md R60, spec/70_reset_and_hazards.md R340). -/

namespace Sys2Proof.Machine

/-- The error codes of spec/60_exceptions.md R300; codes 7 to 15 are never raised (log entry 10). -/
inductive ErrCode where
  /-- 0 NONE: no error since the last clear. -/
  | noError
  /-- 1 ERR_ILLEGAL. -/
  | illegal
  /-- 2 ERR_RANGE. -/
  | range
  /-- 3 ERR_OOB. -/
  | oob
  /-- 4 ERR_CAP. -/
  | cap
  /-- 5 ERR_BUS. -/
  | bus
  /-- 6 ERR_CORRUPT. -/
  | corrupt
  deriving DecidableEq, Repr

/-- `STATUS` (R31): the code of the most recent error and the halted flag. -/
structure Status where
  err : ErrCode
  fault : Bool
  deriving DecidableEq, Repr

/-- A saturating phase register, `DE_PHASE` or `DD_PHASE` (R52, R55): 0, 1 or 2 values seen; 3 never occurs. -/
inductive Phase where
  | zero | one | two
  deriving DecidableEq, Repr

/-- `SD_CTRL` (R49): the selector, the index of the next field, and whether `SD_WORD` holds a fetched word. -/
structure SdCtrl where
  sel : BitVec 4
  idx : BitVec 8
  valid : Bool
  deriving DecidableEq, Repr

/-- `GE_CTRL` or `GD_CTRL` (R57, R59): whether the first value has passed, and the active window. -/
structure GorillaCtrl where
  started : Bool
  wvalid : Bool
  lzb : BitVec 5
  tzb : BitVec 6
  deriving DecidableEq, Repr

/-- `MEM` (R60) as the bytes that are not `Config.powerOnByte`, by strictly rising address (`Memory.wf`). -/
abbrev Memory := List Host.Cell

/-- What the host can do to the block between commands (R350, R360; log entries 1 and 2). -/
inductive HostAction where
  /-- Presents a command word with its operand (R20). -/
  | command (word : CommandWord) (din : Word)
  /-- Writes one byte of `MEM`. -/
  | memWrite (addr : Addr) (byte : Byte)
  /-- Reads one byte of `MEM`. -/
  | memRead (addr : Addr)
  /-- Asserts the reset input (R341). -/
  | assertReset
  /-- Releases the reset input (R341). -/
  | releaseReset
  deriving DecidableEq, Repr

/-- The whole state of the block, one field per register of spec/10_state.md, `MEM`, and the block's inputs. -/
structure State where
  /-- `MEM` (R60). -/
  mem : Memory
  /-- `MEM_BYTES`, which `MEMSZ` reads (R10, R33); fixed by the implementation (log entry 3). -/
  memBytes : Nat
  /-- `DIN` (R21). -/
  din : Word
  /-- `DOUT` (R22). -/
  dout : Word
  /-- `STATUS` (R31). -/
  status : Status
  /-- `CONFIG.TAILPAD` (R32). -/
  tailPad : Bool
  /-- `BW_BASE` (R34). -/
  bwBase : Addr
  /-- `BW_CAP` (R35), in 64-bit words. -/
  bwCap : BitVec 32
  /-- `BW_BITS` (R36). -/
  bwBits : Word
  /-- `BR_BASE` (R37). -/
  brBase : Addr
  /-- `BR_LEN` (R38), in bytes. -/
  brLen : BitVec 32
  /-- `BR_POS` (R39), in bits. -/
  brPos : Word
  /-- `YW_BASE` (R40). -/
  ywBase : Addr
  /-- `YW_CAP` (R41), in bytes. -/
  ywCap : BitVec 32
  /-- `YW_LEN` (R42). -/
  ywLen : Word
  /-- `YR_BASE` (R43). -/
  yrBase : Addr
  /-- `YR_LEN` (R44), in bytes. -/
  yrLen : BitVec 32
  /-- `YR_POS` (R45), in bytes. -/
  yrPos : Word
  /-- `SE_Q` (R47), oldest first; `SE_CNT` (R46) is its length. -/
  seQ : List Packable
  /-- `SD_WORD` (R48). -/
  sdWord : Word
  /-- `SD_CTRL` (R49). -/
  sdCtrl : SdCtrl
  /-- `DE_PREV` (R50). -/
  dePrev : Word
  /-- `DE_PDELTA` (R51). -/
  dePdelta : Word
  /-- `DE_PHASE` (R52). -/
  dePhase : Phase
  /-- `DD_LAST` (R53). -/
  ddLast : Word
  /-- `DD_DELTA` (R54). -/
  ddDelta : Word
  /-- `DD_PHASE` (R55). -/
  ddPhase : Phase
  /-- `GE_LAST` (R56). -/
  geLast : Word
  /-- `GE_CTRL` (R57). -/
  geCtrl : GorillaCtrl
  /-- `GD_LAST` (R58). -/
  gdLast : Word
  /-- `GD_CTRL` (R59). -/
  gdCtrl : GorillaCtrl
  /-- Is the reset input asserted (R341)? -/
  inReset : Bool
  /-- The host actions not yet taken, oldest first: the model's own field for the block's inputs (log entry 1). -/
  pending : List HostAction
  deriving DecidableEq, Repr

/-- Why a step stops the model. No error of R300 is one of these: each of those is a next state. -/
inductive Fault where
  /-- Raised by a host memory access at or beyond `MEM_BYTES`, which R360 does not give the host (log entry 7). Safe:
  the model stops where the spec says nothing. -/
  | hostAddressOutsideMem (addr : Addr)
  deriving DecidableEq, Repr

/-- The reasons to refuse an instruction; no meaning gives one. -/
inductive Refusal where
  /-- Raised by an arm of `exec` whose instruction has no meaning yet (there is none). Safe: nothing is claimed. -/
  | notModelled (mnemonic : String)
  deriving DecidableEq, Repr

/-- Power-on with a memory of `memBytes` bytes holding `mem` (R340, R342): every register at its reset value. -/
def State.powerOn (memBytes : Nat) (mem : Memory) : State where
  mem := mem
  memBytes := memBytes
  din := 0
  dout := 0
  status := { err := .noError, fault := false }
  tailPad := false
  bwBase := 0
  bwCap := 0
  bwBits := 0
  brBase := 0
  brLen := 0
  brPos := 0
  ywBase := 0
  ywCap := 0
  ywLen := 0
  yrBase := 0
  yrLen := 0
  yrPos := 0
  seQ := []
  sdWord := 0
  sdCtrl := { sel := 0, idx := 0, valid := false }
  dePrev := 0
  dePdelta := 0
  dePhase := .zero
  ddLast := 0
  ddDelta := 0
  ddPhase := .zero
  geLast := 0
  geCtrl := { started := false, wvalid := false, lzb := 0, tzb := 0 }
  gdLast := 0
  gdCtrl := { started := false, wvalid := false, lzb := 0, tzb := 0 }
  inReset := false
  pending := []

/-- The machine right after reset (R340), with the memory size and contents of log entries 3 and 4. -/
def State.reset : State := State.powerOn Config.memBytes []

end Sys2Proof.Machine
end

