-- ==== Sys2Proof/Machine/Flags.lean ====
section
/-! DEFINITION. The status and control words as a `CSRR` reads them, field by field, and the acknowledge
(spec/10_state.md R31, R46, R49, R52, R55, R57, R59; spec/70_reset_and_hazards.md R360). -/

namespace Sys2Proof.Machine

/-- The number of an error code (R300). -/
def errNumber (e : ErrCode) : BitVec 4 :=
  match e with
  | .noError => 0
  | .illegal => 1
  | .range => 2
  | .oob => 3
  | .cap => 4
  | .bus => 5
  | .corrupt => 6

/-- The five bits of `STATUS` that the acknowledge carries: `FAULT` in bit 4, `ERR` in bits 3:0 (R31, R360). -/
def statusBits (s : Status) : BitVec 5 := BitVec.ofBool s.fault ++ errNumber s.err

/-- `STATUS` as a CSR: bits 63:5 read as 0 (R31). -/
def statusWord (s : Status) : Word := (statusBits s).setWidth 64

/-- `CONFIG` as a CSR: `TAILPAD` in bit 0 (R32). -/
def configWord (tailPad : Bool) : Word := (BitVec.ofBool tailPad).setWidth 64

/-- `SE_CNT` as a CSR: the FIFO's occupancy in bits 5:0 (R46). -/
def seCntWord (q : List Packable) : Word := (BitVec.ofNat 6 q.length).setWidth 64

/-- The number of a phase (R52, R55). -/
def phaseNumber (p : Phase) : BitVec 2 :=
  match p with
  | .zero => 0
  | .one => 1
  | .two => 2

/-- `DE_PHASE` or `DD_PHASE` as a CSR: bits 63:2 read as 0 (R52, R55). -/
def phaseWord (p : Phase) : Word := (phaseNumber p).setWidth 64

/-- `SD_CTRL` as a CSR: `SEL` in bits 3:0, `IDX` in bits 15:8, `VALID` in bit 16, all other bits 0 (R49). -/
def sdCtrlWord (c : SdCtrl) : Word :=
  c.sel.setWidth 64 ||| (c.idx.setWidth 64 <<< 8) ||| ((BitVec.ofBool c.valid).setWidth 64 <<< 16)

/-- `GE_CTRL` or `GD_CTRL` as a CSR: `STARTED` in bit 0, `WVALID` in bit 1, `LZB` in bits 12:8, `TZB` in bits 21:16, all
other bits 0 (R57, R59). -/
def gorillaCtrlWord (c : GorillaCtrl) : Word :=
  (BitVec.ofBool c.started).setWidth 64 ||| ((BitVec.ofBool c.wvalid).setWidth 64 <<< 1)
    ||| (c.lzb.setWidth 64 <<< 8) ||| (c.tzb.setWidth 64 <<< 16)

/-- What the block presents with a command's acknowledge (R20, R360): `DOUT` and the five bits of `STATUS`. -/
structure Ack where
  dout : Word
  status : BitVec 5
  deriving DecidableEq, Repr

/-- The acknowledge the host sees in a state between commands. -/
def State.acknowledge (s : State) : Ack := { dout := s.dout, status := statusBits s.status }

end Sys2Proof.Machine
end

