-- ==== Sys2Proof/Machine/Operands.lean ====
section
/-! DEFINITION. The operand forms (spec/30_encoding.md R92, R93, R94), the named functions of spec/00_scope.md R16, and
the bit-order and byte-order helpers (spec/20_memory.md R65, R71). -/

namespace Sys2Proof.Machine

/-- `mask(w) = 2^w - 1` on 64 bits (R16). -/
def mask (w : Nat) : Word := BitVec.ofNat 64 (2 ^ w - 1)

/-- The number of 0 bits from bit `n - 1` down to the highest 1 bit below `n`. -/
def leadingZerosBelow (x : Word) : Nat → Nat
  | 0 => 0
  | n + 1 => if x.getLsbD n then 0 else leadingZerosBelow x n + 1

/-- `clz64` (R16). -/
def clz64 (x : Word) : Nat := leadingZerosBelow x 64

/-- The number of 0 bits from bit `64 - n` up to the lowest 1 bit from there. -/
def trailingZerosFrom (x : Word) : Nat → Nat
  | 0 => 0
  | n + 1 => if x.getLsbD (63 - n) then 0 else trailingZerosFrom x n + 1

/-- `ctz64` (R16). -/
def ctz64 (x : Word) : Nat := trailingZerosFrom x 64

/-- The word whose bit `i`, for `i < n`, is `bit i`, and whose other bits are 0: bits taken least significant first
(R71, R74). -/
def wordOfBits (bit : Nat → Bool) : Nat → Word
  | 0 => 0
  | n + 1 => wordOfBits bit n ||| ((BitVec.ofBool (bit n)).setWidth 64 <<< n)

/-- The low `n` bytes of `v`, least significant first (R65, R171). -/
def bytesLE (v : Word) (n : Nat) : List Byte := (List.range n).map fun j => v.extractLsb' (8 * j) 8

/-- `YW.CPY`'s source address, `DIN[31:0]` (R94, R172). -/
def cpySource (din : Word) : Nat := (din.extractLsb' 0 32).toNat

/-- `YW.CPY`'s byte count, `DIN[63:32]` (R94, R172). -/
def cpyCount (din : Word) : Nat := (din.extractLsb' 32 32).toNat

/-- `YR.SUB`'s byte count, `DIN[31:0]`; `DIN[63:32]` is ignored (R94, R181). -/
def subCount (din : Word) : Nat := (din.extractLsb' 0 32).toNat

/-- The CSR of a CSR number (R26); `none` is an unassigned number (R25). -/
def csrOfNumber (n : BitVec 8) : Option Csr :=
  match n with
  | 0x00#8 => some .status
  | 0x01#8 => some .config
  | 0x02#8 => some .memsz
  | 0x10#8 => some .bwBase
  | 0x11#8 => some .bwCap
  | 0x12#8 => some .bwBits
  | 0x20#8 => some .brBase
  | 0x21#8 => some .brLen
  | 0x22#8 => some .brPos
  | 0x30#8 => some .ywBase
  | 0x31#8 => some .ywCap
  | 0x32#8 => some .ywLen
  | 0x40#8 => some .yrBase
  | 0x41#8 => some .yrLen
  | 0x42#8 => some .yrPos
  | 0x60#8 => some .seCnt
  | 0x70#8 => some .sdWord
  | 0x71#8 => some .sdCtrl
  | 0x80#8 => some .dePrev
  | 0x81#8 => some .dePdelta
  | 0x82#8 => some .dePhase
  | 0x90#8 => some .ddLast
  | 0x91#8 => some .ddDelta
  | 0x92#8 => some .ddPhase
  | 0xA0#8 => some .geLast
  | 0xA1#8 => some .geCtrl
  | 0xB0#8 => some .gdLast
  | 0xB1#8 => some .gdCtrl
  | _ => none

/-- The access type of a CSR (R26). -/
def csrAccess (c : Csr) : CsrAccess :=
  match c with
  | .config => .rw1
  | .bwBase | .bwCap | .brBase | .brLen | .ywBase | .ywCap | .yrBase | .yrLen => .rw32
  | .brPos | .yrPos => .rw64
  | .status | .memsz | .bwBits | .ywLen | .seCnt | .sdWord | .sdCtrl | .dePrev | .dePdelta | .dePhase
  | .ddLast | .ddDelta | .ddPhase | .geLast | .geCtrl | .gdLast | .gdCtrl => .ro

end Sys2Proof.Machine
end

