-- ==== Sys2Proof/Machine/Ops.lean ====
section
/-! DEFINITION. The shared operations: memory, errors and the halted state, reset, the buffer primitives and the CSRs
(spec/20_memory.md, spec/60_exceptions.md, spec/70_reset_and_hazards.md R340 and R341, spec/10_state.md R25 to R27). -/

namespace Sys2Proof.Machine

/-! ### Memory -/

/-- The byte at an address; an address that is not listed reads as `Config.powerOnByte` (R60, log entry 4). -/
def Memory.read : Memory → Nat → Byte
  | [], _ => Config.powerOnByte
  | (a, b) :: m, x => if x = a then b else Memory.read m x

/-- `MEM[x] <- v`, keeping the canonical form: rising addresses, nothing listed that reads as unlisted. -/
def Memory.write : Memory → Nat → Byte → Memory
  | [], x, v => if v = Config.powerOnByte then [] else [(x, v)]
  | (a, b) :: m, x, v =>
    if x < a then if v = Config.powerOnByte then (a, b) :: m else (x, v) :: (a, b) :: m
    else if x = a then if v = Config.powerOnByte then m else (x, v) :: m
    else (a, b) :: Memory.write m x v

/-- Is the list canonical from address `lo` on? -/
def Memory.wfFrom : Nat → Memory → Bool
  | _, [] => true
  | lo, (a, b) :: m => decide (lo ≤ a) && decide (b ≠ Config.powerOnByte) && Memory.wfFrom (a + 1) m

/-- The canonical form: addresses strictly rising, and no entry equal to what an unlisted address reads as. -/
def Memory.wf (m : Memory) : Bool := Memory.wfFrom 0 m

/-- Does the memory list only addresses below `n`? -/
def Memory.below (n : Nat) (m : Memory) : Bool := m.all fun c => decide (c.1 < n)

/-- `MEM[a + j] <- bs[j]` for each `j` in order. -/
def Memory.writeBytes : Memory → Nat → List Byte → Memory
  | m, _, [] => m
  | m, a, b :: bs => Memory.writeBytes (Memory.write m a b) (a + 1) bs

/-- `MEM[a], MEM[a+1], ..., MEM[a+n-1]`. -/
def Memory.readBytes (m : Memory) (a n : Nat) : List Byte := (List.range n).map fun j => Memory.read m (a + j)

/-- The `n`-byte little-endian value at `a`, `n <= 8` (R62). -/
def Memory.readLE (m : Memory) (a : Nat) : Nat → Word
  | 0 => 0
  | n + 1 => Memory.readLE m a n ||| ((Memory.read m (a + n)).setWidth 64 <<< (8 * n))

/-- `MemRead(a, n)` (R62). -/
def State.memRead (s : State) (a n : Nat) : Except ErrCode Word :=
  if a + n > s.memBytes then .error .bus else .ok (Memory.readLE s.mem a n)

/-- `MemWrite(a, n, v)` (R63). -/
def State.memWrite (s : State) (a n : Nat) (v : Word) : Except ErrCode State :=
  if a + n > s.memBytes then .error .bus else .ok { s with mem := Memory.writeBytes s.mem a (bytesLE v n) }

/-! ### Errors, the halted state, reset -/

/-- The block is halted (R305). -/
def State.halted (s : State) : Bool := s.status.fault

/-- Taking an error (R302): the code and the halted flag, nothing else. A halted block ignores it, so that `STATUS`
keeps the first error (R305, R307). -/
def State.raise (s : State) (e : ErrCode) : State :=
  if s.halted then s else { s with status := { err := e, fault := true } }

/-- The return from the halted state (R123, R306): `STATUS` is 0, nothing else changes. -/
def State.clearError (s : State) : State := { s with status := { err := .noError, fault := false } }

/-- Every register and the hidden state at its reset value, `MEM` kept (R124, R340). The host's actions and the reset
input are not state of the block's registers and stay. -/
def State.resetRegisters (s : State) : State :=
  { State.powerOn s.memBytes s.mem with inReset := s.inReset, pending := s.pending }

/-- The end of a command (R303): it completes with every effect, or raises with no other effect on the state before it. -/
def complete (s : State) (result : Except ErrCode State) : Host.Outcome State Fault Refusal :=
  match result with
  | .ok t => .next t
  | .error e => .next (s.raise e)

/-- A command that a halted block ignores (R305): every command but `NOP`, `CSRR`, `CLRERR` and `SRESET`. -/
def dataCommand (s : State) (result : Except ErrCode State) : Host.Outcome State Fault Refusal :=
  if s.halted then .next s else complete s result

/-- A command that reads: its result goes to `DOUT` (R22). -/
def toDout (result : Except ErrCode (Word × State)) : Except ErrCode State :=
  match result with
  | .ok (v, t) => .ok { t with dout := v }
  | .error e => .error e

/-- The reset input is asserted: every register takes its reset value and `MEM` is kept (R340, R341, log entry 2). -/
def State.enterReset (s : State) : State := { s.resetRegisters with inReset := true }

/-- The reset input is released: the block is ready for its first command (R341). -/
def State.leaveReset (s : State) : State := { s with inReset := false }

/-- The operand of an accepted command is latched into `DIN` (R20, R21, log entry 5). -/
def State.latch (s : State) (din : Word) : State := { s with din := din }

/-- An illegal command word: ERR_ILLEGAL and no other effect, or ignored while halted (R96, R301, R305). -/
def illegalWord (s : State) : Host.Outcome State Fault Refusal := .next (s.raise .illegal)

/-! ### Host memory accesses -/

/-- The host writes one byte of `MEM` (R60, R360); outside `MEM` the model stops (log entry 7). -/
def hostWrite (s : State) (addr : Addr) (byte : Byte) : Host.Outcome State Fault Refusal :=
  if addr.toNat < s.memBytes then .next { s with mem := Memory.write s.mem addr.toNat byte }
  else .fault (.hostAddressOutsideMem addr)

/-- The host reads one byte of `MEM`, which has no side effect (R68, R360); the byte is `Memory.read s.mem addr.toNat`. -/
def hostRead (s : State) (addr : Addr) : Host.Outcome State Fault Refusal :=
  if addr.toNat < s.memBytes then .next s else .fault (.hostAddressOutsideMem addr)

/-! ### The bit writer's storage (R70 to R73) -/

/-- Word `k` of the bit stream after the low `n` bits of `v` are put at positions `B .. B + n - 1`: the inner loop of
R70, bit by bit. -/
def mergeWord (B n : Nat) (v : BitVec 77) (k : Nat) (old : Word) : Word :=
  wordOfBits (fun j =>
    if B ≤ 64 * k + j ∧ 64 * k + j < B + n then v.getLsbD (64 * k + j - B) else old.getLsbD j) 64

/-- The outer loop of R70 over the words `ks`: a word first touched starts as zero (R72). -/
def appendWords (B n : Nat) (v : BitVec 77) : List Nat → State → Except ErrCode State
  | [], s => .ok s
  | k :: ks, s =>
    match if 64 * k ≥ B then .ok 0 else s.memRead (s.bwBase.toNat + 8 * k) 8 with
    | .error e => .error e
    | .ok old =>
      match s.memWrite (s.bwBase.toNat + 8 * k) 8 (mergeWord B n v k old) with
      | .error e => .error e
      | .ok t => appendWords B n v ks t

/-- The number of 64-bit words that hold `bits` bits, `ceil(bits / 64)` (R70, R73). -/
def wordsFor (bits : Nat) : Nat := (bits + 63) / 64

/-- `BitAppend(v, n)` (R70); a record has at most 77 bits (R265). -/
def bitAppend (v : BitVec 77) (n : Nat) (s : State) : Except ErrCode State :=
  let B := s.bwBits.toNat
  let k0 := B / 64
  let k1 := wordsFor (B + n)
  if n = 0 then .ok s
  else if k1 > s.bwCap.toNat then .error .cap
  else if s.bwBase.toNat + 8 * k1 > s.memBytes then .error .bus
  else
    match appendWords B n v (List.range' k0 (k1 - k0)) s with
    | .error e => .error e
    | .ok t => .ok { t with bwBits := BitVec.ofNat 64 (B + n) }

/-! ### The bit cursor (R74 to R76) -/

/-- The readable bits of the bit cursor's view, `64 * floor(BR_LEN / 8)` (R38, R74). -/
def State.readableBits (s : State) : Nat := 64 * (s.brLen.toNat / 8)

/-- Bit `p` of the view at `base`: bit `p mod 8` of byte `p / 8` (R71, R74). -/
def streamBit (m : Memory) (base p : Nat) : Bool := (Memory.read m (base + p / 8)).getLsbD (p % 8)

/-- `BitFetch(n)` (R74), `n <= 64`. -/
def bitFetch (n : Nat) (s : State) : Except ErrCode (Word × State) :=
  let P := s.brPos.toNat
  if P + n > s.readableBits then .error .oob
  else if n > 0 ∧ s.brBase.toNat + (P + n + 7) / 8 > s.memBytes then .error .bus
  else .ok (wordOfBits (fun i => streamBit s.mem s.brBase.toNat (P + i)) n,
    { s with brPos := BitVec.ofNat 64 (P + n) })

/-! ### The byte writer and the byte cursor (R77, R78) -/

/-- `ByteAppend(b)` (R77). -/
def byteAppend (b : List Byte) (s : State) : Except ErrCode State :=
  let L := s.ywLen.toNat
  if b.length = 0 then .ok s
  else if L + b.length > s.ywCap.toNat then .error .cap
  else if s.ywBase.toNat + L + b.length > s.memBytes then .error .bus
  else .ok { s with
    mem := Memory.writeBytes s.mem (s.ywBase.toNat + L) b
    ywLen := BitVec.ofNat 64 (L + b.length) }

/-- `ByteFetch(n)` (R78), `1 <= n <= 8`. -/
def byteFetch (n : Nat) (s : State) : Except ErrCode (Word × State) :=
  let P := s.yrPos.toNat
  if P + n > s.yrLen.toNat then .error .oob
  else
    match s.memRead (s.yrBase.toNat + P) n with
    | .error e => .error e
    | .ok r => .ok (r, { s with yrPos := BitVec.ofNat 64 (P + n) })

/-! ### The control and status registers (R25 to R59) -/

/-- The value a `CSRR` reads (R25, R121): 64 bits, fields as each register's rule gives, unused bits 0. -/
def readCsr (s : State) (c : Csr) : Word :=
  match c with
  | .status => statusWord s.status
  | .config => configWord s.tailPad
  | .memsz => BitVec.ofNat 64 s.memBytes
  | .bwBase => s.bwBase.setWidth 64
  | .bwCap => s.bwCap.setWidth 64
  | .bwBits => s.bwBits
  | .brBase => s.brBase.setWidth 64
  | .brLen => s.brLen.setWidth 64
  | .brPos => s.brPos
  | .ywBase => s.ywBase.setWidth 64
  | .ywCap => s.ywCap.setWidth 64
  | .ywLen => s.ywLen
  | .yrBase => s.yrBase.setWidth 64
  | .yrLen => s.yrLen.setWidth 64
  | .yrPos => s.yrPos
  | .seCnt => seCntWord s.seQ
  | .sdWord => s.sdWord
  | .sdCtrl => sdCtrlWord s.sdCtrl
  | .dePrev => s.dePrev
  | .dePdelta => s.dePdelta
  | .dePhase => phaseWord s.dePhase
  | .ddLast => s.ddLast
  | .ddDelta => s.ddDelta
  | .ddPhase => phaseWord s.ddPhase
  | .geLast => s.geLast
  | .geCtrl => gorillaCtrlWord s.geCtrl
  | .gdLast => s.gdLast
  | .gdCtrl => gorillaCtrlWord s.gdCtrl

/-- What a `CSRW` does to a CSR (R25, R122): bits 31:0 of a RW32 register, all of a RW64 register, bit 0 of a RW1
register; a read-only register raises ERR_ILLEGAL. Nothing else changes, and nothing is checked (R28, R29). -/
def writeCsr (s : State) (c : Csr) (v : Word) : Except ErrCode State :=
  match c with
  | .config => .ok { s with tailPad := v.getLsbD 0 }
  | .bwBase => .ok { s with bwBase := v.setWidth 32 }
  | .bwCap => .ok { s with bwCap := v.setWidth 32 }
  | .brBase => .ok { s with brBase := v.setWidth 32 }
  | .brLen => .ok { s with brLen := v.setWidth 32 }
  | .brPos => .ok { s with brPos := v }
  | .ywBase => .ok { s with ywBase := v.setWidth 32 }
  | .ywCap => .ok { s with ywCap := v.setWidth 32 }
  | .yrBase => .ok { s with yrBase := v.setWidth 32 }
  | .yrLen => .ok { s with yrLen := v.setWidth 32 }
  | .yrPos => .ok { s with yrPos := v }
  | .status | .memsz | .bwBits | .ywLen | .seCnt | .sdWord | .sdCtrl | .dePrev | .dePdelta | .dePhase
  | .ddLast | .ddDelta | .ddPhase | .geLast | .geCtrl | .gdLast | .gdCtrl => .error .illegal

end Sys2Proof.Machine
end

