-- ==== Sys2Proof/Machine/BitBuffers.lean ====
section
/-! DEFINITION. The bit writer and the bit cursor (spec/41_bit_buffers.md). -/

namespace Sys2Proof.Machine

/-- `BW.CLR` (R140). -/
def execBwClr (s : State) : Host.Outcome State Fault Refusal := dataCommand s (.ok { s with bwBits := 0 })

/-- The effect of `BW.PUT` (R141); a width above 64 is illegal (R92, log entry 6). -/
def bwPut (w : BitVec 8) (s : State) : Except ErrCode State :=
  if legalBitCount w then bitAppend ((s.din &&& mask w.toNat).setWidth 77) w.toNat s else .error .illegal

/-- `BW.PUT w, din` (R141). -/
def execBwPut (w : BitVec 8) (s : State) : Host.Outcome State Fault Refusal := dataCommand s (bwPut w s)

/-- The bytes a consumer takes of the bit stream, `8 * ceil(BW_BITS / 64)` (R73). -/
def bitStreamBytes (s : State) : Nat := 8 * wordsFor s.bwBits.toNat

/-- `BW.BLEN` (R142). -/
def execBwBlen (s : State) : Host.Outcome State Fault Refusal :=
  dataCommand s (.ok { s with dout := BitVec.ofNat 64 (bitStreamBytes s) })

/-- The effect of `BR.GET` (R150); a width above 64 is illegal (R92, log entry 6). -/
def brGet (w : BitVec 8) (s : State) : Except ErrCode State :=
  if legalBitCount w then toDout (bitFetch w.toNat s) else .error .illegal

/-- `BR.GET w` (R150). -/
def execBrGet (w : BitVec 8) (s : State) : Host.Outcome State Fault Refusal := dataCommand s (brGet w s)

/-- `BR.BIT` (R151). -/
def execBrBit (s : State) : Host.Outcome State Fault Refusal := dataCommand s (toDout (bitFetch 1 s))

/-- The bit cursor is at its end (R75). -/
def bitCursorAtEnd (s : State) : Bool := decide (s.brPos.toNat ≥ s.readableBits)

/-- `BR.END` (R152). -/
def execBrEnd (s : State) : Host.Outcome State Fault Refusal :=
  dataCommand s (.ok { s with dout := if bitCursorAtEnd s then 1 else 0 })

end Sys2Proof.Machine
end

