-- ==== Sys2Proof/Machine/ByteBuffers.lean ====
section
/-! DEFINITION. The byte writer and the byte cursor (spec/42_byte_buffers.md). -/

namespace Sys2Proof.Machine

/-- `YW.CLR` (R170). -/
def execYwClr (s : State) : Host.Outcome State Fault Refusal := dataCommand s (.ok { s with ywLen := 0 })

/-- The effect of `YW.PUT` (R171); a width other than 1, 2, 4 or 8 is illegal (R92, log entry 6). -/
def ywPut (w : BitVec 8) (s : State) : Except ErrCode State :=
  if legalByteCount w then byteAppend (bytesLE s.din w.toNat) s else .error .illegal

/-- `YW.PUT w, din` (R171). -/
def execYwPut (w : BitVec 8) (s : State) : Host.Outcome State Fault Refusal := dataCommand s (ywPut w s)

/-- The effect of `YW.CPY` (R172): capacity, then source range, then destination range; every source byte is read
before any byte is written. -/
def ywCpy (s : State) : Except ErrCode State :=
  let src := cpySource s.din
  let n := cpyCount s.din
  if n = 0 then .ok s
  else if s.ywLen.toNat + n > s.ywCap.toNat then .error .cap
  else if src + n > s.memBytes then .error .bus
  else byteAppend (Memory.readBytes s.mem src n) s

/-- `YW.CPY din` (R172). -/
def execYwCpy (s : State) : Host.Outcome State Fault Refusal := dataCommand s (ywCpy s)

/-- The effect of `YR.GET` (R180); a width other than 1, 2, 4 or 8 is illegal (R92, log entry 6). -/
def yrGet (w : BitVec 8) (s : State) : Except ErrCode State :=
  if legalByteCount w then toDout (byteFetch w.toNat s) else .error .illegal

/-- `YR.GET w` (R180). -/
def execYrGet (w : BitVec 8) (s : State) : Host.Outcome State Fault Refusal := dataCommand s (yrGet w s)

/-- The effect of `YR.SUB` (R181): no memory is read. -/
def yrSub (s : State) : Except ErrCode State :=
  let n := subCount s.din
  let P := s.yrPos.toNat
  if P + n > s.yrLen.toNat then .error .oob
  else .ok { s with
    dout := BitVec.ofNat 64 (s.yrBase.toNat + P)
    yrPos := BitVec.ofNat 64 (P + n) }

/-- `YR.SUB din` (R181). -/
def execYrSub (s : State) : Host.Outcome State Fault Refusal := dataCommand s (yrSub s)

end Sys2Proof.Machine
end

