-- ==== Sys2Proof/Machine/Control.lean ====
section
/-! DEFINITION. The control commands (spec/40_control.md). -/

namespace Sys2Proof.Machine

/-- `NOP` (R120): nothing; executes while halted. -/
def execNop (s : State) : Host.Outcome State Fault Refusal := .next s

/-- The effect of `CSRR` (R121). -/
def csrr (csr : BitVec 8) (s : State) : Except ErrCode State :=
  match csrOfNumber csr with
  | none => .error .illegal
  | some c => .ok { s with dout := readCsr s c }

/-- `CSRR csr` (R121): executes while halted; there its error is ignored (R305). -/
def execCsrr (csr : BitVec 8) (s : State) : Host.Outcome State Fault Refusal := complete s (csrr csr s)

/-- The effect of `CSRW` (R122). -/
def csrw (csr : BitVec 8) (s : State) : Except ErrCode State :=
  match csrOfNumber csr with
  | none => .error .illegal
  | some c => writeCsr s c s.din

/-- `CSRW csr, din` (R122). -/
def execCsrw (csr : BitVec 8) (s : State) : Host.Outcome State Fault Refusal := dataCommand s (csrw csr s)

/-- `CLRERR` (R123): executes while halted and ends the halted state. -/
def execClrerr (s : State) : Host.Outcome State Fault Refusal := .next s.clearError

/-- `SRESET` (R124): executes while halted; `MEM` is unchanged. -/
def execSreset (s : State) : Host.Outcome State Fault Refusal := .next s.resetRegisters

end Sys2Proof.Machine
end

