-- ==== Sys2Proof/Machine/Simple8b.lean ====
section
/-! DEFINITION. The Simple8B encoder and decoder (spec/44_simple8b.md; spec/30_encoding.md R101, R102, R105). -/

namespace Sys2Proof.Machine

/-- The selector table: `(count, width)` by selector (R101). -/
def selectorTable : Vector (Nat × Nat) 16 :=
  #v[(240, 0), (120, 0), (60, 1), (30, 2), (20, 3), (15, 4), (12, 5), (10, 6),
     (8, 7), (7, 8), (6, 10), (5, 12), (4, 15), (3, 20), (2, 30), (1, 60)]

/-- `count(s)` (R101). -/
def selCount (s : BitVec 4) : Nat := (selectorTable[s.toFin]).1

/-- `width(s)` (R101). -/
def selWidth (s : BitVec 4) : Nat := (selectorTable[s.toFin]).2

/-- Does the value fit the width (R201)? -/
def fits (w : Nat) (v : Packable) : Bool := decide (v.toNat ≤ 2 ^ w - 1)

/-- The fields of a packed word from field `i` on: the OR of `F[i] << (i * w)` (R202). -/
def packFields (w : Nat) : Nat → List Packable → Word
  | _, [] => 0
  | i, v :: vs => (v.setWidth 64 <<< (i * w)) ||| packFields w (i + 1) vs

/-- `Pack(s, F)` (R202). -/
def pack (s : BitVec 4) (f : List Packable) : Word := (s.setWidth 64 <<< 60) ||| packFields (selWidth s) 0 f

/-- The values selector `s` would take from `q`: its count, or under PAD all that remain (R203). -/
def taken (s : BitVec 4) (q : List Packable) : List Packable := q.take (selCount s)

/-- Is selector `s` admissible for the head of `q` (R201, R203)? A zero width never is; under STRICT there must be
`count(s)` values. -/
def admissible (tailPad : Bool) (q : List Packable) (s : BitVec 4) : Bool :=
  decide (selWidth s ≠ 0) && (decide (selCount s ≤ q.length) || tailPad) && (taken s q).all (fits (selWidth s))

/-- The selectors in the order they are tried: densest first, the table's order (R203). -/
def selectorOrder : List (BitVec 4) := [0, 1, 2, 3, 4, 5, 6, 7, 8, 9, 10, 11, 12, 13, 14, 15]

/-- What `Select(Q)` returns (R203): the selector, the packed word, the number of values consumed. -/
structure Selection where
  sel : BitVec 4
  word : Word
  used : Nat
  deriving DecidableEq, Repr

/-- The selector `Select(Q)` chooses: the first admissible one; selector 15 is always admissible (R203, R204). -/
def chooseSelector (tailPad : Bool) (q : List Packable) : BitVec 4 :=
  (selectorOrder.find? (admissible tailPad q)).getD 15

/-- `Select(Q)` for a non-empty `Q` (R203). -/
def select (tailPad : Bool) (q : List Packable) : Selection :=
  let s := chooseSelector tailPad q
  let f := taken s q
  { sel := s, word := pack s f, used := f.length }

/-- `SEPush(v)` (R211), also used by `DE.PUSH`: the range check first, then the FIFO, then a word if it holds 60. -/
def sePushValue (v : Word) (s : State) : Except ErrCode State :=
  let q := s.seQ ++ [v.setWidth 60]
  if v.toNat > 2 ^ 60 - 1 then .error .range
  else if q.length = Config.fifoDepth then
    byteAppend (bytesLE (select s.tailPad q).word 8) { s with seQ := q.drop (select s.tailPad q).used }
  else .ok { s with seQ := q }

/-- The words `SE.FLUSH` emits for a queue (R213); `fuel` bounds the loop (log entry 10). -/
def flushWords (tailPad : Bool) : Nat → List Packable → List Word
  | 0, _ => []
  | _ + 1, [] => []
  | fuel + 1, v :: q =>
    let c := select tailPad (v :: q)
    c.word :: flushWords tailPad fuel ((v :: q).drop c.used)

/-- The effect of `SE.FLUSH` (R213): one append of all the words' bytes. -/
def seFlush (s : State) : Except ErrCode State :=
  byteAppend ((flushWords s.tailPad s.seQ.length s.seQ).flatMap fun w => bytesLE w 8) { s with seQ := [] }

/-- Is a new word needed (R221)? -/
def sdExhausted (c : SdCtrl) : Bool := !c.valid || decide (c.idx.toNat = selCount c.sel)

/-- The fetch of `SDNext` (R221): the next word of the byte cursor, if one is needed. -/
def sdFetch (s : State) : Except ErrCode State :=
  if sdExhausted s.sdCtrl then
    match byteFetch 8 s with
    | .error e => .error e
    | .ok (w, t) => .ok { t with sdWord := w, sdCtrl := { sel := w.extractLsb' 60 4, idx := 0, valid := true } }
  else .ok s

/-- The field of `SD_WORD` that `SD_CTRL` points to (R102, R221). -/
def sdExtract (s : State) : Word :=
  (s.sdWord >>> (s.sdCtrl.idx.toNat * selWidth s.sdCtrl.sel)) &&& mask (selWidth s.sdCtrl.sel)

/-- `SDNext()` (R221), also used by `DD.NEXT`. -/
def sdNextValue (s : State) : Except ErrCode (Word × State) :=
  match sdFetch s with
  | .error e => .error e
  | .ok t => .ok (sdExtract t, { t with sdCtrl := { t.sdCtrl with idx := t.sdCtrl.idx + 1 } })

/-- `SE.CLR` (R210). -/
def execSeClr (s : State) : Host.Outcome State Fault Refusal := dataCommand s (.ok { s with seQ := [] })

/-- `SE.PUSH din` (R211). -/
def execSePush (s : State) : Host.Outcome State Fault Refusal := dataCommand s (sePushValue s.din s)

/-- `SE.FLUSH` (R213). -/
def execSeFlush (s : State) : Host.Outcome State Fault Refusal := dataCommand s (seFlush s)

/-- `SD.CLR` (R220). -/
def execSdClr (s : State) : Host.Outcome State Fault Refusal :=
  dataCommand s (.ok { s with sdWord := 0, sdCtrl := { sel := 0, idx := 0, valid := false } })

/-- `SD.NEXT` (R221). -/
def execSdNext (s : State) : Host.Outcome State Fault Refusal := dataCommand s (toDout (sdNextValue s))

end Sys2Proof.Machine
end

