-- ==== Sys2Proof/Machine/ZigZag.lean ====
section
/-! DEFINITION. The zig-zag transform (spec/43_zigzag.md). -/

namespace Sys2Proof.Machine

/-- `ZZ(x)`, `(x << 1) XOR (x >>a 63)` (R190). -/
def zigzag (x : Word) : Word := (x <<< 1) ^^^ x.sshiftRight 63

/-- `UNZZ(y)`, `(y >>l 1) XOR (0 - (y AND 1))` (R191). -/
def unzigzag (y : Word) : Word := (y >>> 1) ^^^ (0 - (y &&& 1))

/-- `ZZ.ENC din` (R190). -/
def execZzEnc (s : State) : Host.Outcome State Fault Refusal := dataCommand s (.ok { s with dout := zigzag s.din })

/-- `ZZ.DEC din` (R191). -/
def execZzDec (s : State) : Host.Outcome State Fault Refusal := dataCommand s (.ok { s with dout := unzigzag s.din })

end Sys2Proof.Machine
end

