-- ==== Sys2Proof/Machine/DeltaOfDelta.lean ====
section
/-! DEFINITION. The delta-of-delta encoder and decoder (spec/45_delta_of_delta.md). -/

namespace Sys2Proof.Machine

/-- `min(phase + 1, 2)` (R246, R251). -/
def nextPhase (p : Phase) : Phase :=
  match p with
  | .zero => .one
  | .one => .two
  | .two => .two

/-- The first difference `d` that `DE.PUSH` records for the value `v` (R246). -/
def deDelta (s : State) (v : Word) : Word :=
  match s.dePhase with
  | .zero => 0
  | .one => v - s.dePrev
  | .two => v - s.dePrev

/-- The element `e` that `DE.PUSH` hands to the packer for the value `v` (R240, R246). -/
def deElement (s : State) (v : Word) : Word :=
  match s.dePhase with
  | .zero => v
  | .one => zigzag (deDelta s v)
  | .two => zigzag (deDelta s v - s.dePdelta)

/-- The effect of `DE.PUSH` (R246). -/
def dePush (s : State) : Except ErrCode State :=
  match sePushValue (deElement s s.din) s with
  | .error e => .error e
  | .ok t => .ok { t with
      dePrev := s.din
      dePdelta := deDelta s s.din
      dePhase := nextPhase s.dePhase
      dout := deElement s s.din }

/-- The running delta after the element `e` (R243, R251). -/
def ddDeltaAfter (s : State) (e : Word) : Word :=
  match s.ddPhase with
  | .zero => 0
  | .one => unzigzag e
  | .two => s.ddDelta + unzigzag e

/-- The value rebuilt from the element `e` (R243, R251). -/
def ddValueAfter (s : State) (e : Word) : Word :=
  match s.ddPhase with
  | .zero => e
  | .one => s.ddLast + ddDeltaAfter s e
  | .two => s.ddLast + ddDeltaAfter s e

/-- The effect of `DD.NEXT` (R251). -/
def ddNext (s : State) : Except ErrCode State :=
  match sdNextValue s with
  | .error e => .error e
  | .ok (e, t) => .ok { t with
      ddDelta := ddDeltaAfter s e
      ddLast := ddValueAfter s e
      ddPhase := nextPhase s.ddPhase
      dout := ddValueAfter s e }

/-- `DE.CLR` (R245). -/
def execDeClr (s : State) : Host.Outcome State Fault Refusal :=
  dataCommand s (.ok { s with dePrev := 0, dePdelta := 0, dePhase := .zero })

/-- `DE.PUSH din` (R246). -/
def execDePush (s : State) : Host.Outcome State Fault Refusal := dataCommand s (dePush s)

/-- `DD.CLR` (R250). -/
def execDdClr (s : State) : Host.Outcome State Fault Refusal :=
  dataCommand s (.ok { s with ddLast := 0, ddDelta := 0, ddPhase := .zero })

/-- `DD.NEXT` (R251). -/
def execDdNext (s : State) : Host.Outcome State Fault Refusal := dataCommand s (ddNext s)

end Sys2Proof.Machine
end

