-- ==== Sys2Proof/Machine/Gorilla.lean ====
section
/-! DEFINITION. The Gorilla XOR-delta encoder and decoder (spec/46_gorilla.md; spec/30_encoding.md R106 to R110). -/

namespace Sys2Proof.Machine

/-- `DB = 64 - LZB - TZB` of a window (R261). -/
def GorillaCtrl.dataBits (c : GorillaCtrl) : Nat := 64 - c.lzb.toNat - c.tzb.toNat

/-- Is the active window reusable for the non-zero XOR `x` (R262)? The true leading-zero count is compared. -/
def windowReusable (c : GorillaCtrl) (x : Word) : Bool :=
  c.wvalid && decide (c.lzb.toNat ≤ clz64 x) && decide (c.tzb.toNat ≤ ctz64 x)

/-- The window of a new-window record for the non-zero XOR `x` (R264): the leading-zero count is clamped to 31. -/
def newWindow (x : Word) : GorillaCtrl :=
  { started := true, wvalid := true, lzb := BitVec.ofNat 5 (min (clz64 x) 31), tzb := BitVec.ofNat 6 (ctz64 x) }

/-- The `DB` data bits of a record, `(x >>l TZB)[DB-1:0]` (R107). -/
def dataField (c : GorillaCtrl) (x : Word) : BitVec 77 := ((x >>> c.tzb.toNat) &&& mask c.dataBits).setWidth 77

/-- The record of a reused window, `{ data, 0b01 }` (R271); it has `2 + DB` bits. -/
def reuseRecord (c : GorillaCtrl) (x : Word) : BitVec 77 := (dataField c x <<< 2) ||| 0b01#77

/-- The record of a new window, `{ data, DB code, LZB, 0b11 }` (R108, R271); it has `13 + DB` bits. -/
def newRecord (c : GorillaCtrl) (x : Word) : BitVec 77 :=
  (dataField c x <<< 13) ||| ((BitVec.ofNat 6 (c.dataBits % 64)).setWidth 77 <<< 7) ||| (c.lzb.setWidth 77 <<< 2)
    ||| 0b11#77

/-- What `GE.PUT` writes for a value: the record's bits, its length, and the control register after it (R271). -/
structure GorillaRecord where
  bits : BitVec 77
  length : Nat
  ctrl : GorillaCtrl
  deriving DecidableEq, Repr

/-- The record of `GE.PUT v` (R107, R271). -/
def encodeRecord (last : Word) (c : GorillaCtrl) (v : Word) : GorillaRecord :=
  let x := v ^^^ last
  if c.started = false then { bits := v.setWidth 77, length := 64, ctrl := { c with started := true } }
  else if x = 0 then { bits := 0, length := 1, ctrl := c }
  else if windowReusable c x then { bits := reuseRecord c x, length := 2 + c.dataBits, ctrl := c }
  else { bits := newRecord (newWindow x) x, length := 13 + (newWindow x).dataBits, ctrl := newWindow x }

/-- The effect of `GE.PUT` (R271). -/
def gePut (s : State) : Except ErrCode State :=
  let r := encodeRecord s.geLast s.geCtrl s.din
  match bitAppend r.bits r.length s with
  | .error e => .error e
  | .ok t => .ok { t with geLast := s.din, geCtrl := r.ctrl }

/-- The window of a new-window record, read from its LZB and DB code (R108, R281); a negative TZB is corrupt (R110). -/
def gdNewWindow (s : State) : Except ErrCode State :=
  match bitFetch 5 s with
  | .error e => .error e
  | .ok (lz, s1) =>
    match bitFetch 6 s1 with
    | .error e => .error e
    | .ok (c, s2) =>
      let db := if c = 0 then 64 else c.toNat
      if lz.toNat + db > 64 then .error .corrupt
      else .ok { s2 with gdCtrl := { s2.gdCtrl with
        lzb := lz.setWidth 5, tzb := BitVec.ofNat 6 (64 - lz.toNat - db), wvalid := true } }

/-- The window of a record that begins with `'1'`: new, or the active one, which must exist (R110, R281). -/
def gdWindow (s : State) : Except ErrCode State :=
  match bitFetch 1 s with
  | .error e => .error e
  | .ok (c, s1) =>
    if c = 1 then gdNewWindow s1
    else if s1.gdCtrl.wvalid = false then .error .corrupt
    else .ok s1

/-- The data bits of a record under the active window (R281). -/
def gdData (s : State) : Except ErrCode State :=
  match bitFetch s.gdCtrl.dataBits s with
  | .error e => .error e
  | .ok (m, s1) => .ok { s1 with gdLast := s1.gdLast ^^^ (m <<< s1.gdCtrl.tzb.toNat) }

/-- One record of the Gorilla stream (R107, R109, R281): the first value, a repeat, or a windowed record. -/
def gdRecord (s : State) : Except ErrCode State :=
  if s.gdCtrl.started = false then
    match bitFetch 64 s with
    | .error e => .error e
    | .ok (v, s1) => .ok { s1 with gdLast := v, gdCtrl := { s1.gdCtrl with started := true } }
  else
    match bitFetch 1 s with
    | .error e => .error e
    | .ok (c, s1) =>
      if c = 1 then
        match gdWindow s1 with
        | .error e => .error e
        | .ok s2 => gdData s2
      else .ok s1

/-- The effect of `GD.NEXT` (R281). -/
def gdNext (s : State) : Except ErrCode State :=
  match gdRecord s with
  | .error e => .error e
  | .ok t => .ok { t with dout := t.gdLast }

/-- `GE.CLR` (R270). -/
def execGeClr (s : State) : Host.Outcome State Fault Refusal :=
  dataCommand s (.ok { s with geLast := 0, geCtrl := { started := false, wvalid := false, lzb := 0, tzb := 0 } })

/-- `GE.PUT din` (R271). -/
def execGePut (s : State) : Host.Outcome State Fault Refusal := dataCommand s (gePut s)

/-- `GD.CLR` (R280). -/
def execGdClr (s : State) : Host.Outcome State Fault Refusal :=
  dataCommand s (.ok { s with gdLast := 0, gdCtrl := { started := false, wvalid := false, lzb := 0, tzb := 0 } })

/-- `GD.NEXT` (R281). -/
def execGdNext (s : State) : Host.Outcome State Fault Refusal := dataCommand s (gdNext s)

end Sys2Proof.Machine
end

