-- ==== Sys2Proof/Machine/Dispatch.lean ====
section
/-! DEFINITION. One arm per command, in the table's order (spec/30_encoding.md R95). -/

namespace Sys2Proof.Machine

/-- The effect of a command on the state that holds its operand in `DIN`. -/
def exec (i : Instr) (s : State) : Host.Outcome State Fault Refusal :=
  match i with
  | .nop => Sys2Proof.Machine.execNop s
  | .csrr csr => Sys2Proof.Machine.execCsrr csr s
  | .csrw csr => Sys2Proof.Machine.execCsrw csr s
  | .clrerr => Sys2Proof.Machine.execClrerr s
  | .sreset => Sys2Proof.Machine.execSreset s
  | .bwClr => Sys2Proof.Machine.execBwClr s
  | .bwPut w => Sys2Proof.Machine.execBwPut w s
  | .bwBlen => Sys2Proof.Machine.execBwBlen s
  | .brGet w => Sys2Proof.Machine.execBrGet w s
  | .brBit => Sys2Proof.Machine.execBrBit s
  | .brEnd => Sys2Proof.Machine.execBrEnd s
  | .ywClr => Sys2Proof.Machine.execYwClr s
  | .ywPut w => Sys2Proof.Machine.execYwPut w s
  | .ywCpy => Sys2Proof.Machine.execYwCpy s
  | .yrGet w => Sys2Proof.Machine.execYrGet w s
  | .yrSub => Sys2Proof.Machine.execYrSub s
  | .zzEnc => Sys2Proof.Machine.execZzEnc s
  | .zzDec => Sys2Proof.Machine.execZzDec s
  | .seClr => Sys2Proof.Machine.execSeClr s
  | .sePush => Sys2Proof.Machine.execSePush s
  | .seFlush => Sys2Proof.Machine.execSeFlush s
  | .sdClr => Sys2Proof.Machine.execSdClr s
  | .sdNext => Sys2Proof.Machine.execSdNext s
  | .deClr => Sys2Proof.Machine.execDeClr s
  | .dePush => Sys2Proof.Machine.execDePush s
  | .ddClr => Sys2Proof.Machine.execDdClr s
  | .ddNext => Sys2Proof.Machine.execDdNext s
  | .geClr => Sys2Proof.Machine.execGeClr s
  | .gePut => Sys2Proof.Machine.execGePut s
  | .gdClr => Sys2Proof.Machine.execGdClr s
  | .gdNext => Sys2Proof.Machine.execGdNext s

end Sys2Proof.Machine
end

