-- ==== Sys2Proof/Machine/Step.lean ====
section
/-! DEFINITION. One step: the block takes the host's next action (spec/10_state.md R20, spec/70_reset_and_hazards.md
R341, R360; log entries 1 and 2). -/

namespace Sys2Proof.Machine

/-- A command presented to the block: not accepted while reset is asserted (R341); otherwise its operand is latched, the
word is decoded (R96) and the command executes to completion (R20). -/
def acceptCommand (s : State) (word : CommandWord) (din : Word) : Host.Outcome State Fault Refusal :=
  if s.inReset then .next s
  else
    match decode word with
    | .ok i => exec i (s.latch din)
    | .error _ => illegalWord (s.latch din)

/-- One action of the host (R360). -/
def takeAction (a : HostAction) (s : State) : Host.Outcome State Fault Refusal :=
  match a with
  | .command word din => acceptCommand s word din
  | .memWrite addr byte => hostWrite s addr byte
  | .memRead addr => hostRead s addr
  | .assertReset => .next s.enterReset
  | .releaseReset => .next s.leaveReset

/-- One step: the first pending action, or nothing where there is none (R325: the block holds its state). -/
def step (s : State) : Host.Outcome State Fault Refusal :=
  match s.pending with
  | [] => .next s
  | a :: rest => takeAction a { s with pending := rest }

/-- `s` with a command word presented in front of the host's other actions, with the operand that `DIN` holds, and the
reset input released, so that the next step runs it (log entry 1). -/
def State.withFetchWord (s : State) (nbits w : Nat) : State :=
  { s with inReset := false, pending := .command (tableWord nbits w) s.din :: s.pending }

end Sys2Proof.Machine
end

