-- ==== Sys2Proof/Machine/Assembler.lean ====
section
/-! DEFINITION. The assembler syntax and the pseudo-instructions of spec/30_encoding.md R99 and R100: from the
characters of one line to the command transactions it stands for (log entry 11). No command depends on it. -/

namespace Sys2Proof.Machine

/-- A command with the operand its transaction carries (R20). -/
abbrev Transaction := Instr × Word

/-! ### Pseudo-instructions (R100) -/

/-- The pseudo-instructions of R100 with their operands. -/
inductive Pseudo where
  | bwFix (w : BitVec 8) (c : Word)
  | deFin
  | outBw (base cap : Word)
  | outYw (base cap : Word)
  | viewBr (base len : Word)
  | viewYr (base len : Word)
  deriving DecidableEq, Repr

/-- The expansions of R100; `BW.FIX` with a width other than 1 or 2 is refused. -/
def expandPseudo (p : Pseudo) : Option (List Transaction) :=
  match p with
  | .bwFix w c => if w = 1 ∨ w = 2 then some [(.bwPut w, c)] else none
  | .deFin => some [(.seFlush, 0)]
  | .outBw base cap => some [(.csrw 0x10, base), (.csrw 0x11, cap), (.bwClr, 0)]
  | .outYw base cap => some [(.csrw 0x30, base), (.csrw 0x31, cap), (.ywClr, 0)]
  | .viewBr base len => some [(.csrw 0x20, base), (.csrw 0x21, len), (.csrw 0x22, 0)]
  | .viewYr base len => some [(.csrw 0x40, base), (.csrw 0x41, len), (.csrw 0x42, 0)]

/-! ### Literals and lines (R99) -/

/-- A blank of a line. -/
def isBlank (c : Char) : Bool := c = ' ' || c = '\t'

/-- The characters without the blanks at either end. -/
def trimBlanks (l : List Char) : List Char := ((l.dropWhile isBlank).reverse.dropWhile isBlank).reverse

/-- The parts of a line between its commas. -/
def splitCommas : List Char → List (List Char)
  | [] => [[]]
  | c :: cs =>
    if c = ',' then [] :: splitCommas cs
    else
      match splitCommas cs with
      | [] => [[c]]
      | part :: parts => (c :: part) :: parts

/-- The value of a digit character; `none` where it is no digit of any base. -/
def digitValue (c : Char) : Option Nat :=
  if '0' ≤ c ∧ c ≤ '9' then some (c.toNat - '0'.toNat)
  else if 'a' ≤ c ∧ c ≤ 'f' then some (c.toNat - 'a'.toNat + 10)
  else if 'A' ≤ c ∧ c ≤ 'F' then some (c.toNat - 'A'.toNat + 10)
  else none

/-- Reads digits of a base after the value `acc`. -/
def parseDigitsFrom (base : Nat) : Nat → List Char → Option Nat
  | acc, [] => some acc
  | acc, c :: cs =>
    match digitValue c with
    | none => none
    | some d => if d < base then parseDigitsFrom base (acc * base + d) cs else none

/-- One digit or more of a base. -/
def parseDigits (base : Nat) (l : List Char) : Option Nat :=
  match l with
  | [] => none
  | c :: cs => parseDigitsFrom base 0 (c :: cs)

/-- An integer literal without a sign: `0x` hexadecimal, `0b` binary, or decimal (R99). -/
def parseNat (l : List Char) : Option Nat :=
  match l with
  | '0' :: 'x' :: ds => parseDigits 16 ds
  | '0' :: 'b' :: ds => parseDigits 2 ds
  | ds => parseDigits 10 ds

/-- An integer literal; a negative decimal `-k` stands for the pattern `2^64 - k` (R99). -/
def parseLiteral (l : List Char) : Option Word :=
  match l with
  | '-' :: ds =>
    match parseDigits 10 ds with
    | none => none
    | some k => if k ≤ 2 ^ 64 then some (BitVec.ofNat 64 (2 ^ 64 - k)) else none
  | ds =>
    match parseNat ds with
    | none => none
    | some n => if n < 2 ^ 64 then some (BitVec.ofNat 64 n) else none

/-- A width or CSR literal: it fits the 8-bit field (R99). -/
def parseField (l : List Char) : Option (BitVec 8) :=
  match parseNat l with
  | none => none
  | some n => if n < 256 then some (BitVec.ofNat 8 n) else none

/-- The CSR names of R26 with their numbers. -/
def csrNames : List (String × BitVec 8) :=
  [("STATUS", 0x00), ("CONFIG", 0x01), ("MEMSZ", 0x02), ("BW_BASE", 0x10), ("BW_CAP", 0x11), ("BW_BITS", 0x12),
   ("BR_BASE", 0x20), ("BR_LEN", 0x21), ("BR_POS", 0x22), ("YW_BASE", 0x30), ("YW_CAP", 0x31), ("YW_LEN", 0x32),
   ("YR_BASE", 0x40), ("YR_LEN", 0x41), ("YR_POS", 0x42), ("SE_CNT", 0x60), ("SD_WORD", 0x70), ("SD_CTRL", 0x71),
   ("DE_PREV", 0x80), ("DE_PDELTA", 0x81), ("DE_PHASE", 0x82), ("DD_LAST", 0x90), ("DD_DELTA", 0x91),
   ("DD_PHASE", 0x92), ("GE_LAST", 0xA0), ("GE_CTRL", 0xA1), ("GD_LAST", 0xB0), ("GD_CTRL", 0xB1)]

/-- A CSR operand: a name of R26 or a number (R99). -/
def parseCsr (l : List Char) : Option (BitVec 8) :=
  match csrNames.find? fun row => row.1.toList == l with
  | some row => some row.2
  | none => parseField l

/-- How a mnemonic's operands are written (R99). -/
inductive AsmShape where
  /-- N format, `DIN` not read. -/
  | plain (i : Instr)
  /-- N format, `DIN` read. -/
  | din (i : Instr)
  /-- W format, `DIN` not read. -/
  | width (mk : BitVec 8 → Instr)
  /-- W format, `DIN` read. -/
  | widthDin (mk : BitVec 8 → Instr)
  /-- R format, `DIN` not read. -/
  | csr (mk : BitVec 8 → Instr)
  /-- R format, `DIN` read. -/
  | csrDin (mk : BitVec 8 → Instr)

/-- The mnemonics of R95 with the shape of their operands. -/
def asmTable : List (String × AsmShape) :=
  [("NOP", .plain .nop), ("CSRR", .csr .csrr), ("CSRW", .csrDin .csrw), ("CLRERR", .plain .clrerr),
   ("SRESET", .plain .sreset), ("BW.CLR", .plain .bwClr), ("BW.PUT", .widthDin .bwPut), ("BW.BLEN", .plain .bwBlen),
   ("BR.GET", .width .brGet), ("BR.BIT", .plain .brBit), ("BR.END", .plain .brEnd), ("YW.CLR", .plain .ywClr),
   ("YW.PUT", .widthDin .ywPut), ("YW.CPY", .din .ywCpy), ("YR.GET", .width .yrGet), ("YR.SUB", .din .yrSub),
   ("ZZ.ENC", .din .zzEnc), ("ZZ.DEC", .din .zzDec), ("SE.CLR", .plain .seClr), ("SE.PUSH", .din .sePush),
   ("SE.FLUSH", .plain .seFlush), ("SD.CLR", .plain .sdClr), ("SD.NEXT", .plain .sdNext), ("DE.CLR", .plain .deClr),
   ("DE.PUSH", .din .dePush), ("DD.CLR", .plain .ddClr), ("DD.NEXT", .plain .ddNext), ("GE.CLR", .plain .geClr),
   ("GE.PUT", .din .gePut), ("GD.CLR", .plain .gdClr), ("GD.NEXT", .plain .gdNext)]

/-- A command with its operands; one that does not read `DIN` carries 0 (R99). -/
def assembleCommand (shape : AsmShape) (operands : List (List Char)) : Option Transaction :=
  match shape, operands with
  | .plain i, [] => some (i, 0)
  | .din i, [d] => (parseLiteral d).map fun v => (i, v)
  | .width mk, [w] => (parseField w).map fun n => (mk n, 0)
  | .widthDin mk, [w, d] => (parseField w).bind fun n => (parseLiteral d).map fun v => (mk n, v)
  | .csr mk, [c] => (parseCsr c).map fun n => (mk n, 0)
  | .csrDin mk, [c, d] => (parseCsr c).bind fun n => (parseLiteral d).map fun v => (mk n, v)
  | _, _ => none

/-- A pseudo-instruction with two literal operands. -/
def pseudoPair (mk : Word → Word → Pseudo) (a b : List Char) : Option Pseudo :=
  (parseLiteral a).bind fun x => (parseLiteral b).map fun y => mk x y

/-- The pseudo-instruction a mnemonic and its operands name (R100). -/
def parsePseudo (mnemonic : List Char) (operands : List (List Char)) : Option Pseudo :=
  match operands with
  | [] => if mnemonic == "DE.FIN".toList then some .deFin else none
  | [a, b] =>
    if mnemonic == "BW.FIX".toList then (parseField a).bind fun w => (parseLiteral b).map fun c => .bwFix w c
    else if mnemonic == "OUT.BW".toList then pseudoPair .outBw a b
    else if mnemonic == "OUT.YW".toList then pseudoPair .outYw a b
    else if mnemonic == "VIEW.BR".toList then pseudoPair .viewBr a b
    else if mnemonic == "VIEW.YR".toList then pseudoPair .viewYr a b
    else none
  | _ => none

/-- One line of assembler: the transactions it stands for, or `none` where it is refused (R99, R100). -/
def assembleLine (line : List Char) : Option (List Transaction) :=
  let body := trimBlanks (line.takeWhile (· ≠ ';'))
  let mnemonic := body.takeWhile fun c => !isBlank c
  let rest := trimBlanks (body.drop mnemonic.length)
  let operands := if rest = [] then [] else (splitCommas rest).map trimBlanks
  if body = [] then some []
  else
    match asmTable.find? fun row => row.1.toList == mnemonic with
    | some row => (assembleCommand row.2 operands).map fun t => [t]
    | none => (parsePseudo mnemonic operands).bind expandPseudo

/-- The command words and operands the host presents for a line. -/
def lineWords (line : List Char) : Option (List (CommandWord × Word)) :=
  (assembleLine line).map fun ts => ts.map fun t => (encode t.1, t.2)

end Sys2Proof.Machine
end

