-- ==== Sys2Proof/Safety.lean ====
section
/-! DEFINITION. What a reachable state looks like, and what it is for a sequence of the host's commands to succeed. -/

namespace Sys2Proof.Machine

/-- What the spec says of the block's state between commands, in every state that a run can reach. -/
structure State.Inv (s : State) : Prop where
  /-- R10: 64 <= MEM_BYTES <= 2^32. -/
  memSize : Config.minMemBytes ≤ s.memBytes ∧ s.memBytes ≤ Config.maxMemBytes
  /-- The memory is in its canonical form. -/
  memCanonical : Memory.wf s.mem = true
  /-- R60: memory lists only addresses below MEM_BYTES. -/
  memInside : Memory.below s.memBytes s.mem = true
  /-- R31: `FAULT` is set exactly when `ERR` names an error. -/
  statusAgrees : s.status.fault = true ↔ s.status.err ≠ .noError
  /-- R36: `BW_BITS` is at most 64 times the largest capacity. -/
  bitsWritten : s.bwBits.toNat ≤ 64 * (2 ^ 32 - 1)
  /-- R41, R42: `YW_LEN` is at most the largest capacity. -/
  bytesWritten : s.ywLen.toNat ≤ 2 ^ 32 - 1
  /-- R46, R212: between commands the FIFO holds 0 to 59 values. -/
  fifoShort : s.seQ.length ≤ 59
  /-- R49: when `VALID`, `SEL` is `SD_WORD[63:60]` and `IDX` is at most its count. -/
  wordHeld : s.sdCtrl.valid = true →
    s.sdCtrl.sel = s.sdWord.extractLsb' 60 4 ∧ s.sdCtrl.idx.toNat ≤ selCount s.sdCtrl.sel
  /-- R220, R340: when not `VALID`, the decoder is clear. -/
  wordClear : s.sdCtrl.valid = false → s.sdWord = 0 ∧ s.sdCtrl.sel = 0 ∧ s.sdCtrl.idx = 0
  /-- R57: when `WVALID`, `STARTED` and LZB + TZB <= 63. -/
  encoderWindow : s.geCtrl.wvalid = true → s.geCtrl.started = true ∧ s.geCtrl.lzb.toNat + s.geCtrl.tzb.toNat ≤ 63
  /-- R59: when `WVALID`, `STARTED` and LZB + TZB <= 63. -/
  decoderWindow : s.gdCtrl.wvalid = true → s.gdCtrl.started = true ∧ s.gdCtrl.lzb.toNat + s.gdCtrl.tzb.toNat ≤ 63
  /-- R50, R51, R245: before the first value the encoder is clear, and after one value its difference is 0. -/
  encoderPhase : (s.dePhase = .zero → s.dePrev = 0) ∧ (s.dePhase ≠ .two → s.dePdelta = 0)
  /-- R53, R54, R250: before the first value the decoder is clear, and after one value its delta is 0. -/
  decoderPhase : (s.ddPhase = .zero → s.ddLast = 0) ∧ (s.ddPhase ≠ .two → s.ddDelta = 0)
  /-- R340, R341: while reset is asserted every register is at its reset value. -/
  heldInReset : s.inReset = true → s.enterReset = s

/-- The host presents one command and the block executes it (R20). -/
def issue (t : Transaction) (s : State) : Host.Outcome State Fault Refusal := exec t.1 (s.latch t.2)

/-- The host presents commands one after another (R82). -/
def issueAll : List Transaction → State → Host.Outcome State Fault Refusal
  | [], s => .next s
  | t :: ts, s =>
    match issue t s with
    | .next u => issueAll ts u
    | .fault r => .fault r
    | .refused r => .refused r

/-- The host presents commands one after another and takes `DOUT` after each (R125, R353); `none` where one of them
ends halted. -/
def collectAll : List Transaction → State → Option (List Word × State)
  | [], s => some ([], s)
  | t :: ts, s =>
    match issue t s with
    | .next u => if u.halted then none else (collectAll ts u).map fun r => (u.dout :: r.1, r.2)
    | .fault _ => none
    | .refused _ => none

/-- The bit writer has room for `n` more bits: capacity and memory (R70). -/
def BitRoom (s : State) (n : Nat) : Prop :=
  wordsFor (s.bwBits.toNat + n) ≤ s.bwCap.toNat ∧
  s.bwBase.toNat + 8 * wordsFor (s.bwBits.toNat + n) ≤ s.memBytes

/-- What `n` bits appended to the bit stream leave in memory (R70 to R72): the bits at stream positions from `BW_BITS`
on; earlier positions as they were; the padding of the last word 0 if that word is new, as it was if not; and every
byte outside the words the append touches as it was. -/
def BitsAppended (s : State) (mem' : Memory) (n : Nat) (bit : Nat → Bool) : Prop :=
  (∀ j < n, streamBit mem' s.bwBase.toNat (s.bwBits.toNat + j) = bit j) ∧
  (∀ p < s.bwBits.toNat, streamBit mem' s.bwBase.toNat p = streamBit s.mem s.bwBase.toNat p) ∧
  (∀ p, s.bwBits.toNat + n ≤ p → p < 64 * wordsFor (s.bwBits.toNat + n) →
    streamBit mem' s.bwBase.toNat p =
      if s.bwBits.toNat ≤ 64 * (p / 64) then false else streamBit s.mem s.bwBase.toNat p) ∧
  ∀ a, (a < s.bwBase.toNat + 8 * (s.bwBits.toNat / 64) ∨
      s.bwBase.toNat + 8 * wordsFor (s.bwBits.toNat + n) ≤ a) → Memory.read mem' a = Memory.read s.mem a

/-- The byte writer has room for `n` more bytes: capacity and memory (R77). -/
def ByteRoom (s : State) (n : Nat) : Prop :=
  s.ywLen.toNat + n ≤ s.ywCap.toNat ∧ s.ywBase.toNat + s.ywLen.toNat + n ≤ s.memBytes

/-- What bytes appended to the byte writer leave in memory (R77): the bytes from `YW_BASE + YW_LEN` on, and every other
byte as it was. -/
def BytesAppended (s : State) (mem' : Memory) (b : List Byte) : Prop :=
  (∀ j, (h : j < b.length) → Memory.read mem' (s.ywBase.toNat + s.ywLen.toNat + j) = b[j]) ∧
  ∀ a, (a < s.ywBase.toNat + s.ywLen.toNat ∨ s.ywBase.toNat + s.ywLen.toNat + b.length ≤ a) →
    Memory.read mem' a = Memory.read s.mem a

/-- `n` bits of the bit cursor's view are there to read: in the view and in memory (R74). -/
def BitsReadable (s : State) (n : Nat) : Prop :=
  s.brPos.toNat + n ≤ s.readableBits ∧ (n > 0 → s.brBase.toNat + (s.brPos.toNat + n + 7) / 8 ≤ s.memBytes)

/-- The error that stops a fetch which needs the first `n` bits from the bit cursor's position on: ERR_OOB where they run
past the view, and otherwise ERR_BUS where a byte of them lies beyond MEM (R74, R304). -/
def FetchStops (s : State) (n : Nat) (e : ErrCode) : Prop :=
  (e = .oob ∧ s.readableBits < s.brPos.toNat + n) ∨
  (e = .bus ∧ s.brPos.toNat + n ≤ s.readableBits ∧ s.memBytes < s.brBase.toNat + (s.brPos.toNat + n + 7) / 8)

/-- Bit `j` from the bit cursor's position on (R71, R74). -/
def viewBit (s : State) (j : Nat) : Bool := streamBit s.mem s.brBase.toNat (s.brPos.toNat + j)

/-- The `n` bits from position `off` after the bit cursor's, least significant first (R74). -/
def viewField (s : State) (off n : Nat) : Word := wordOfBits (fun i => viewBit s (off + i)) n

/-- `n` bytes of the byte cursor's view are there to read: in the view and in memory (R78). -/
def BytesReadable (s : State) (n : Nat) : Prop :=
  s.yrPos.toNat + n ≤ s.yrLen.toNat ∧ s.yrBase.toNat + s.yrPos.toNat + n ≤ s.memBytes

/-- The fields of a packed word as the decoder reads them, in order (R102, R222). -/
def wordValues (w : Word) : List Word :=
  let sel := w.extractLsb' 60 4
  (List.range (selCount sel)).map fun i => (w >>> (i * selWidth sel)) &&& mask (selWidth sel)

/-- A bit cursor over the stream the bit writer of `t` holds, from its start (R73, R153): the same bytes, and a view of
the first `8 * ceil(BW_BITS / 64)` of them. -/
def ViewsBitStream (u t : State) : Prop :=
  u.halted = false ∧ u.memBytes = t.memBytes ∧ u.brBase = t.bwBase ∧ u.brLen.toNat = bitStreamBytes t ∧ u.brPos = 0 ∧
  ∀ a, t.bwBase.toNat ≤ a → a < t.bwBase.toNat + bitStreamBytes t → Memory.read u.mem a = Memory.read t.mem a

/-- A byte cursor over the bytes the byte writer of `t` holds, from their start, with the Simple8B decoder clear
(R220, R223). -/
def ViewsByteStream (u t : State) : Prop :=
  u.halted = false ∧ u.memBytes = t.memBytes ∧ u.yrBase = t.ywBase ∧ u.yrLen.toNat = t.ywLen.toNat ∧ u.yrPos = 0 ∧
  u.sdCtrl.valid = false ∧
  ∀ a, t.ywBase.toNat ≤ a → a < t.ywBase.toNat + t.ywLen.toNat → Memory.read u.mem a = Memory.read t.mem a

end Sys2Proof.Machine
end

