-- ==== Sys2Proof/Certificates/Slice0/Obligations.lean ====
section
/-! DEFINITION. The statements for the provers. -/

open Sys2Proof Sys2Proof.Machine

/-! ### Encoding (spec/30_encoding.md) -/

/-- The decoder reads back every well-formed instruction from the word R90, R91 and R95 give it, every operand bit
included. -/
def Obligations.DecodeOfEncode : Prop := ∀ i : Instr, WellFormed i → decode (encode i) = .ok i

/-- Every word the decoder accepts is the one word of a well-formed instruction (R91, R92, R96): no two words mean the
same command. -/
def Obligations.DecodedWordIsTheEncoding : Prop :=
  ∀ (c : CommandWord) (i : Instr), decode c = .ok i → WellFormed i ∧ encode i = c

/-- R97: a word is illegal exactly when its opcode is reserved, `Z` is not 0, a field its format does not use is not 0,
or `W` is outside the legal set. R301, R302: presenting it to a running block raises ERR_ILLEGAL and has no other effect
on the block's registers and memory. That the transaction of an illegal word latches its operand into `DIN` too is the
model's choice, DEDUCED from R20 and R21 (log entry 5). -/
def Obligations.IllegalWordsAreExactlyThoseOfR97 : Prop :=
  ∀ c : CommandWord,
    let op := c.toNat % 256
    let w := c.toNat / 2 ^ 8 % 256
    let r := c.toNat / 2 ^ 16 % 256
    let z := c.toNat / 2 ^ 24
    let illegal : Prop :=
      z ≠ 0 ∨
      (op = 0x00 ∨ (0x06 ≤ op ∧ op ≤ 0x0F) ∨ (0x13 ≤ op ∧ op ≤ 0x1F) ∨ (0x23 ≤ op ∧ op ≤ 0x2F) ∨
        (0x33 ≤ op ∧ op ≤ 0x3F) ∨ (0x42 ≤ op ∧ op ≤ 0x4F) ∨ (0x52 ≤ op ∧ op ≤ 0x5F) ∨ (0x63 ≤ op ∧ op ≤ 0x6F) ∨
        (0x72 ≤ op ∧ op ≤ 0x7F) ∨ (0x82 ≤ op ∧ op ≤ 0x8F) ∨ (0x92 ≤ op ∧ op ≤ 0x9F) ∨ (0xA2 ≤ op ∧ op ≤ 0xAF) ∨
        (0xB2 ≤ op ∧ op ≤ 0xFF)) ∨
      (r ≠ 0 ∧ op ≠ 0x02 ∧ op ≠ 0x03) ∨
      (w ≠ 0 ∧ op ≠ 0x11 ∧ op ≠ 0x20 ∧ op ≠ 0x31 ∧ op ≠ 0x40) ∨
      ((op = 0x11 ∨ op = 0x20) ∧ 64 < w) ∨
      ((op = 0x31 ∨ op = 0x40) ∧ w ≠ 1 ∧ w ≠ 2 ∧ w ≠ 4 ∧ w ≠ 8)
    (¬ illegal → ∃ i, decode c = .ok i) ∧
    (illegal → ∀ (s : State) (d : Word) (rest : List HostAction), s.inReset = false → s.halted = false →
      s.pending = .command c d :: rest →
      step s = .next { s with pending := rest, din := d, status := { err := .illegal, fault := true } })

/-- Some words written out from the bit patterns of R91 and R95 decode to the commands they stand for. -/
def Obligations.SampleWordsDecode : Prop :=
  decode 0b00000000000000000000000000000001#32 = .ok .nop ∧
  decode 0b00000000000000100000000000000010#32 = .ok (.csrr 0x02) ∧
  decode 0b00000000001000010000000000000011#32 = .ok (.csrw 0x21) ∧
  decode 0b00000000000000000100000000010001#32 = .ok (.bwPut 64) ∧
  decode 0b00000000000000000000110000100000#32 = .ok (.brGet 12) ∧
  decode 0b00000000000000000000100000110001#32 = .ok (.ywPut 8) ∧
  decode 0b00000000000000000000010001000000#32 = .ok (.yrGet 4) ∧
  decode 0b00000000000000000000000001010001#32 = .ok .zzDec ∧
  decode 0b00000000000000000000000001100010#32 = .ok .seFlush ∧
  decode 0b00000000000000000000000010000001#32 = .ok .dePush ∧
  decode 0b00000000000000000000000010110001#32 = .ok .gdNext

/-! ### The step (spec/10_state.md R20, spec/70_reset_and_hazards.md R341, R360) -/

/-- R20: a block that is not held in reset latches the operand of the presented word into `DIN` and executes the
decoded command on that state. -/
def Obligations.StepRunsThePresentedCommand : Prop :=
  ∀ (s : State) (c : CommandWord) (d : Word) (rest : List HostAction) (i : Instr), s.inReset = false →
    s.pending = .command c d :: rest → decode c = .ok i → step s = exec i { s with pending := rest, din := d }

/-- R325, and R360's memory access: with nothing presented the block holds its state; a host write below MEM_BYTES
changes that byte and no other and nothing else; a host read changes nothing; outside MEM the model stops (log entry 7,
the model's choice). -/
def Obligations.HostMemoryAccessChangesOneByte : Prop :=
  ∀ (s : State) (rest : List HostAction) (a : Addr) (b : Byte),
    (s.pending = [] → step s = .next s) ∧
    (s.pending = .memRead a :: rest → a.toNat < s.memBytes → step s = .next { s with pending := rest }) ∧
    (s.pending = .memWrite a b :: rest → a.toNat < s.memBytes → Memory.wf s.mem = true →
      ∃ t, step s = .next t ∧ t = { s with pending := rest, mem := t.mem } ∧
        ∀ x, Memory.read t.mem x = if x = a.toNat then b else Memory.read s.mem x) ∧
    (s.pending = .memRead a :: rest ∨ s.pending = .memWrite a b :: rest → s.memBytes ≤ a.toNat →
      step s = .fault (.hostAddressOutsideMem a))

/-- R340, R341: asserting reset puts every register at its reset value and keeps MEM; releasing it changes nothing else.
What becomes of a command presented meanwhile is the model's choice (log entry 2): it is taken without effect. -/
def Obligations.ResetInputHoldsTheBlock : Prop :=
  ∀ (s : State) (rest : List HostAction),
    (s.pending = .assertReset :: rest →
      step s = .next { State.powerOn s.memBytes s.mem with inReset := true, pending := rest }) ∧
    (s.pending = .releaseReset :: rest → step s = .next { s with inReset := false, pending := rest }) ∧
    (∀ c d, s.inReset = true → s.pending = .command c d :: rest → step s = .next { s with pending := rest })

/-- R124, R340: SRESET, in any state, halted or not, and asserting the reset input give every register and the FIFO the
value R340 lists and leave MEM and MEM_BYTES as they were; after power-on, whatever MEM holds, and in the machine right
after reset they have those values too. -/
def Obligations.ResetValuesOfR340 : Prop :=
  decode 0x00000005#32 = .ok .sreset ∧
  ∀ (s : State) (rest : List HostAction) (n : Nat) (m : Memory),
    let cleared := fun u : State =>
      u.din = 0 ∧ u.dout = 0 ∧ u.status = { err := .noError, fault := false } ∧ readCsr u .status = 0 ∧
      u.tailPad = false ∧ readCsr u .memsz = BitVec.ofNat 64 u.memBytes ∧
      u.bwBase = 0 ∧ u.bwCap = 0 ∧ u.bwBits = 0 ∧ u.brBase = 0 ∧ u.brLen = 0 ∧ u.brPos = 0 ∧
      u.ywBase = 0 ∧ u.ywCap = 0 ∧ u.ywLen = 0 ∧ u.yrBase = 0 ∧ u.yrLen = 0 ∧ u.yrPos = 0 ∧
      u.seQ = [] ∧ readCsr u .seCnt = 0 ∧ u.sdWord = 0 ∧ readCsr u .sdCtrl = 0 ∧
      u.sdCtrl = { sel := 0, idx := 0, valid := false } ∧
      u.dePrev = 0 ∧ u.dePdelta = 0 ∧ u.dePhase = .zero ∧ u.ddLast = 0 ∧ u.ddDelta = 0 ∧ u.ddPhase = .zero ∧
      u.geLast = 0 ∧ u.geCtrl = { started := false, wvalid := false, lzb := 0, tzb := 0 } ∧
      u.gdLast = 0 ∧ u.gdCtrl = { started := false, wvalid := false, lzb := 0, tzb := 0 } ∧
      readCsr u .geCtrl = 0 ∧ readCsr u .gdCtrl = 0
    (∃ t, exec .sreset s = .next t ∧ cleared t ∧ t.mem = s.mem ∧ t.memBytes = s.memBytes ∧ t.inReset = s.inReset ∧
      t.pending = s.pending) ∧
    (s.pending = .assertReset :: rest →
      ∃ t, step s = .next t ∧ cleared t ∧ t.mem = s.mem ∧ t.memBytes = s.memBytes) ∧
    cleared (State.powerOn n m) ∧ (State.powerOn n m).mem = m ∧ (State.powerOn n m).memBytes = n ∧ cleared State.reset

/-! ### The machine as a whole -/

/-- Every step keeps what the spec says of the state between commands (`State.Inv`): the memory's form and size, STATUS,
the bounds of R36, R42, R212, and the consistency of the decoder word, the windows and the phases. -/
def Obligations.StepKeepsInvariant : Prop := ∀ s t : State, s.Inv → step s = .next t → t.Inv

/-- The invariant holds after reset, and after power-on with any memory size and contents R10 and R342 allow. -/
def Obligations.InvariantHoldsAtReset : Prop :=
  State.reset.Inv ∧
  ∀ (n : Nat) (m : Memory), 64 ≤ n → n ≤ 2 ^ 32 → Memory.wf m = true → Memory.below n m = true → (State.powerOn n m).Inv

/-- R20, R302, R303: every command has a next state in every state, none ends in a model fault or a refusal; and a command
of a running block that ends halted has changed `STATUS` and nothing else. -/
def Obligations.CommandsCompleteOrOnlyRaise : Prop :=
  ∀ (i : Instr) (s : State), ∃ t, exec i s = .next t ∧
    (s.halted = false → t.halted = true → t.status.err ≠ .noError ∧ t = { s with status := t.status })

/-- R305: a halted block ignores every command but NOP, CSRR, CLRERR and SRESET, every illegal word, and a CSRR that would
raise: nothing changes (the operand is latched, log entry 5). -/
def Obligations.HaltedBlockIgnoresCommands : Prop :=
  ∀ s : State, s.halted = true →
    (∀ i : Instr, i ≠ .nop → (∀ n, i ≠ .csrr n) → i ≠ .clrerr → i ≠ .sreset → exec i s = .next s) ∧
    (∀ n : BitVec 8, csrOfNumber n = none → exec (.csrr n) s = .next s) ∧
    (∀ (c : CommandWord) (d : Word) (rest : List HostAction) (e : IllegalWord), s.inReset = false →
      s.pending = .command c d :: rest → decode c = .error e → step s = .next { s with pending := rest, din := d })

/-- R300: which commands can raise which error. -/
def Obligations.ErrorsByCommand : Prop :=
  ∀ (i : Instr) (s t : State), WellFormed i → s.halted = false → exec i s = .next t → t.halted = true →
    (t.status.err = .illegal → ∃ n, i = .csrr n ∨ i = .csrw n) ∧
    (t.status.err = .range → i = .sePush ∨ i = .dePush) ∧
    (t.status.err = .oob → (∃ w, i = .brGet w ∨ i = .yrGet w) ∨
      i ∈ [Instr.brBit, .gdNext, .yrSub, .sdNext, .ddNext]) ∧
    (t.status.err = .cap → (∃ w, i = .bwPut w ∨ i = .ywPut w) ∨
      i ∈ [Instr.gePut, .ywCpy, .sePush, .seFlush, .dePush]) ∧
    (t.status.err = .bus → (∃ w, i = .bwPut w ∨ i = .brGet w ∨ i = .ywPut w ∨ i = .yrGet w) ∨
      i ∈ [Instr.gePut, .brBit, .gdNext, .ywCpy, .sePush, .seFlush, .dePush, .sdNext, .ddNext]) ∧
    (t.status.err = .corrupt → i = .gdNext)

/-- R30, R36, R39, R42, R45, R47 to R59: engine state and cursor positions change only by the commands that their rules
name as writing them, and SRESET. -/
def Obligations.EngineStateWrittenOnlyByItsFamily : Prop :=
  ∀ (i : Instr) (s t : State), exec i s = .next t → i ≠ .sreset →
    (t.bwBits ≠ s.bwBits → (∃ w, i = .bwPut w) ∨ i = .gePut ∨ i = .bwClr) ∧
    (t.brPos ≠ s.brPos → (∃ w, i = .brGet w) ∨ i = .brBit ∨ i = .gdNext ∨ i = .csrw 0x22) ∧
    (t.ywLen ≠ s.ywLen → (∃ w, i = .ywPut w) ∨ i ∈ [Instr.ywCpy, .sePush, .seFlush, .dePush, .ywClr]) ∧
    (t.yrPos ≠ s.yrPos → (∃ w, i = .yrGet w) ∨ i ∈ [Instr.yrSub, .sdNext, .ddNext, .csrw 0x42]) ∧
    (t.seQ ≠ s.seQ → i ∈ [Instr.sePush, .dePush, .seFlush, .seClr]) ∧
    (t.sdWord ≠ s.sdWord ∨ t.sdCtrl ≠ s.sdCtrl → i ∈ [Instr.sdNext, .ddNext, .sdClr]) ∧
    (t.dePrev ≠ s.dePrev ∨ t.dePdelta ≠ s.dePdelta ∨ t.dePhase ≠ s.dePhase → i ∈ [Instr.dePush, .deClr]) ∧
    (t.ddLast ≠ s.ddLast ∨ t.ddDelta ≠ s.ddDelta ∨ t.ddPhase ≠ s.ddPhase → i ∈ [Instr.ddNext, .ddClr]) ∧
    (t.geLast ≠ s.geLast ∨ t.geCtrl ≠ s.geCtrl → i ∈ [Instr.gePut, .geClr]) ∧
    (t.gdLast ≠ s.gdLast ∨ t.gdCtrl ≠ s.gdCtrl → i ∈ [Instr.gdNext, .gdClr])

/-- R22, R25, R28, R31, R33: the base, length, capacity and policy registers change only by their own CSRW, `DOUT` only
by the commands R95 lists, `STATUS` only by an error and CLRERR; `DIN`, MEM_BYTES, the reset input and the host's list
change by no command. SRESET apart. -/
def Obligations.HostRegistersWrittenOnlyByCsrw : Prop :=
  ∀ (i : Instr) (s t : State), exec i s = .next t → i ≠ .sreset →
    (t.tailPad ≠ s.tailPad → i = .csrw 0x01) ∧
    (t.bwBase ≠ s.bwBase → i = .csrw 0x10) ∧ (t.bwCap ≠ s.bwCap → i = .csrw 0x11) ∧
    (t.brBase ≠ s.brBase → i = .csrw 0x20) ∧ (t.brLen ≠ s.brLen → i = .csrw 0x21) ∧
    (t.ywBase ≠ s.ywBase → i = .csrw 0x30) ∧ (t.ywCap ≠ s.ywCap → i = .csrw 0x31) ∧
    (t.yrBase ≠ s.yrBase → i = .csrw 0x40) ∧ (t.yrLen ≠ s.yrLen → i = .csrw 0x41) ∧
    (t.dout ≠ s.dout → (∃ n, i = .csrr n ∨ i = .brGet n ∨ i = .yrGet n) ∨
      i ∈ [Instr.bwBlen, .brBit, .brEnd, .yrSub, .zzEnc, .zzDec, .sdNext, .dePush, .ddNext, .gdNext]) ∧
    (t.status ≠ s.status → t.halted = true ∨ i = .clrerr) ∧
    t.din = s.din ∧ t.memBytes = s.memBytes ∧ t.inReset = s.inReset ∧ t.pending = s.pending

/-- R79: the bit writer's commands change MEM only inside `[BW_BASE, BW_BASE + 8 * BW_CAP)`, the byte writer's only inside
`[YW_BASE, YW_BASE + YW_CAP)`, and no other command changes MEM. -/
def Obligations.WritersStayInTheirRegions : Prop :=
  ∀ (i : Instr) (s t : State), Memory.wf s.mem = true → exec i s = .next t →
    ∀ a, Memory.read t.mem a ≠ Memory.read s.mem a →
      (((∃ w, i = .bwPut w) ∨ i = .gePut) ∧ s.bwBase.toNat ≤ a ∧ a < s.bwBase.toNat + 8 * s.bwCap.toNat) ∨
      (((∃ w, i = .ywPut w) ∨ i ∈ [Instr.ywCpy, .sePush, .seFlush, .dePush]) ∧
        s.ywBase.toNat ≤ a ∧ a < s.ywBase.toNat + s.ywCap.toNat)

/-! ### Control commands (spec/40_control.md) and the CSRs (spec/10_state.md) -/

/-- R25, R26, R121: CSRR, halted or not, gives `DOUT` the value of each register of the map and changes nothing else; of an
unassigned number it raises ERR_ILLEGAL in a running block. -/
def Obligations.CsrReadReturnsTheRegister : Prop :=
  (∀ n : BitVec 8, decode ((n.setWidth 32 <<< 16) ||| 0x00000002#32) = .ok (.csrr n)) ∧
  ∀ s : State,
    let map : List (BitVec 8 × Word) :=
      [(0x00, statusWord s.status), (0x01, configWord s.tailPad), (0x02, BitVec.ofNat 64 s.memBytes),
        (0x10, s.bwBase.setWidth 64), (0x11, s.bwCap.setWidth 64), (0x12, s.bwBits),
        (0x20, s.brBase.setWidth 64), (0x21, s.brLen.setWidth 64), (0x22, s.brPos),
        (0x30, s.ywBase.setWidth 64), (0x31, s.ywCap.setWidth 64), (0x32, s.ywLen),
        (0x40, s.yrBase.setWidth 64), (0x41, s.yrLen.setWidth 64), (0x42, s.yrPos),
        (0x60, seCntWord s.seQ), (0x70, s.sdWord), (0x71, sdCtrlWord s.sdCtrl),
        (0x80, s.dePrev), (0x81, s.dePdelta), (0x82, phaseWord s.dePhase),
        (0x90, s.ddLast), (0x91, s.ddDelta), (0x92, phaseWord s.ddPhase),
        (0xA0, s.geLast), (0xA1, gorillaCtrlWord s.geCtrl), (0xB0, s.gdLast), (0xB1, gorillaCtrlWord s.gdCtrl)]
    (∀ r ∈ map, exec (.csrr r.1) s = .next { s with dout := r.2 }) ∧
    ∀ n : BitVec 8, n ∉ map.map Prod.fst →
      (s.halted = false → exec (.csrr n) s = .next { s with status := { err := .illegal, fault := true } }) ∧
      (s.halted = true → exec (.csrr n) s = .next s)

/-- R31, R32, R46, R49, R52, R55, R57, R59: where the fields of the status and control words lie, all other bits 0. -/
def Obligations.CsrFieldLayout : Prop :=
  (∀ x : Status, (statusWord x).toNat = (errNumber x.err).toNat + 16 * x.fault.toNat) ∧
  (List.map errNumber [.noError, .illegal, .range, .oob, .cap, .bus, .corrupt] = [0, 1, 2, 3, 4, 5, 6]) ∧
  (∀ p : Bool, (configWord p).toNat = p.toNat) ∧
  (∀ q : List Packable, q.length ≤ 60 → (seCntWord q).toNat = q.length) ∧
  (∀ x : SdCtrl, (sdCtrlWord x).toNat = x.sel.toNat + 2 ^ 8 * x.idx.toNat + 2 ^ 16 * x.valid.toNat) ∧
  (List.map phaseWord [.zero, .one, .two] = [0, 1, 2]) ∧
  (∀ x : GorillaCtrl, (gorillaCtrlWord x).toNat =
    x.started.toNat + 2 * x.wvalid.toNat + 2 ^ 8 * x.lzb.toNat + 2 ^ 16 * x.tzb.toNat)

/-- R25, R26, R28, R122: CSRW in a running block writes `DIN[31:0]`, all of `DIN`, or `DIN[0]` to the one register named
and changes nothing else, positions and lengths included; of a read-only register or an unassigned number it raises
ERR_ILLEGAL and changes nothing else. A halted block refuses it. -/
def Obligations.CsrWriteEffects : Prop :=
  (∀ n : BitVec 8, decode ((n.setWidth 32 <<< 16) ||| 0x00000003#32) = .ok (.csrw n)) ∧
  ∀ s : State,
    (s.halted = true → ∀ n : BitVec 8, exec (.csrw n) s = .next s) ∧
    (s.halted = false →
      exec (.csrw 0x01) s = .next { s with tailPad := s.din.getLsbD 0 } ∧
      exec (.csrw 0x10) s = .next { s with bwBase := s.din.extractLsb' 0 32 } ∧
      exec (.csrw 0x11) s = .next { s with bwCap := s.din.extractLsb' 0 32 } ∧
      exec (.csrw 0x20) s = .next { s with brBase := s.din.extractLsb' 0 32 } ∧
      exec (.csrw 0x21) s = .next { s with brLen := s.din.extractLsb' 0 32 } ∧
      exec (.csrw 0x22) s = .next { s with brPos := s.din } ∧
      exec (.csrw 0x30) s = .next { s with ywBase := s.din.extractLsb' 0 32 } ∧
      exec (.csrw 0x31) s = .next { s with ywCap := s.din.extractLsb' 0 32 } ∧
      exec (.csrw 0x40) s = .next { s with yrBase := s.din.extractLsb' 0 32 } ∧
      exec (.csrw 0x41) s = .next { s with yrLen := s.din.extractLsb' 0 32 } ∧
      exec (.csrw 0x42) s = .next { s with yrPos := s.din } ∧
      ∀ n : BitVec 8,
        n ∉ ([0x01, 0x10, 0x11, 0x20, 0x21, 0x22, 0x30, 0x31, 0x40, 0x41, 0x42] : List (BitVec 8)) →
        exec (.csrw n) s = .next { s with status := { err := .illegal, fault := true } })

/-- R120, R123: NOP, halted or not, leaves every register and MEM unchanged, and a NOP word with W, R or Z non-zero is
illegal; CLRERR, halted or not, sets both fields of `STATUS` to 0 and changes nothing else. -/
def Obligations.NopAndClrerrEffects : Prop :=
  decode 0x00000001#32 = .ok .nop ∧ decode 0x00000004#32 = .ok .clrerr ∧
  (∀ c : CommandWord, c.toNat % 256 = 0x01 → c ≠ 0x00000001#32 → ∃ e, decode c = .error e) ∧
  ∀ s : State, exec .nop s = .next s ∧
    exec .clrerr s = .next { s with status := { err := .noError, fault := false } }

/-- R140, R170, R210, R220, R245, R250, R270, R280: each family's CLR sets the registers its rule names and changes
nothing else. -/
def Obligations.ClearCommandsResetTheirFamily : Prop :=
  decode 0x00000010#32 = .ok .bwClr ∧ decode 0x00000030#32 = .ok .ywClr ∧ decode 0x00000060#32 = .ok .seClr ∧
  decode 0x00000070#32 = .ok .sdClr ∧ decode 0x00000080#32 = .ok .deClr ∧ decode 0x00000090#32 = .ok .ddClr ∧
  decode 0x000000A0#32 = .ok .geClr ∧ decode 0x000000B0#32 = .ok .gdClr ∧
  ∀ s : State, s.halted = false →
    exec .bwClr s = .next { s with bwBits := 0 } ∧
    exec .ywClr s = .next { s with ywLen := 0 } ∧
    exec .seClr s = .next { s with seQ := [] } ∧
    exec .sdClr s = .next { s with sdWord := 0, sdCtrl := { sel := 0, idx := 0, valid := false } } ∧
    exec .deClr s = .next { s with dePrev := 0, dePdelta := 0, dePhase := .zero } ∧
    exec .ddClr s = .next { s with ddLast := 0, ddDelta := 0, ddPhase := .zero } ∧
    exec .geClr s = .next { s with geLast := 0, geCtrl := { started := false, wvalid := false, lzb := 0, tzb := 0 } } ∧
    exec .gdClr s = .next { s with gdLast := 0, gdCtrl := { started := false, wvalid := false, lzb := 0, tzb := 0 } }

/-! ### Bit writer and bit cursor (spec/41_bit_buffers.md, spec/20_memory.md R70 to R76) -/

/-- R70 to R72, R141: BW.PUT of a legal width with room (or of width 0) appends the low `w` bits of `DIN`, least
significant first, and changes nothing but those words of MEM and `BW_BITS`. -/
def Obligations.BitPutAppendsLowBits : Prop :=
  ∀ (s : State) (w : BitVec 8), s.halted = false → Memory.wf s.mem = true → w.toNat ≤ 64 →
    (w.toNat = 0 ∨ BitRoom s w.toNat) →
    ∃ t, exec (.bwPut w) s = .next t ∧ t = { s with mem := t.mem, bwBits := t.bwBits } ∧
      t.bwBits.toNat = s.bwBits.toNat + w.toNat ∧ BitsAppended s t.mem w.toNat fun j => s.din.getLsbD j

/-- R70, R141, R304: BW.PUT of a legal non-zero width raises ERR_CAP when a word at or beyond `BW_CAP` is needed, and
otherwise ERR_BUS when it lies beyond MEM. Nothing else changes. The last clause is the model's choice (log entry 6): an
instruction term with a width above 64, which no command word decodes to, raises ERR_ILLEGAL as R92 has its word do. -/
def Obligations.BitPutErrors : Prop :=
  ∀ (s : State) (w : BitVec 8), s.halted = false →
    (1 ≤ w.toNat ∧ w.toNat ≤ 64 → s.bwCap.toNat < (s.bwBits.toNat + w.toNat + 63) / 64 →
      exec (.bwPut w) s = .next { s with status := { err := .cap, fault := true } }) ∧
    (1 ≤ w.toNat ∧ w.toNat ≤ 64 → (s.bwBits.toNat + w.toNat + 63) / 64 ≤ s.bwCap.toNat →
      s.memBytes < s.bwBase.toNat + 8 * ((s.bwBits.toNat + w.toNat + 63) / 64) →
      exec (.bwPut w) s = .next { s with status := { err := .bus, fault := true } }) ∧
    (64 < w.toNat → exec (.bwPut w) s = .next { s with status := { err := .illegal, fault := true } })

/-- R142, R152: BW.BLEN returns `8 * ceil(BW_BITS / 64)`; BR.END returns 1 exactly when
`BR_POS >= 64 * floor(BR_LEN / 8)` and 0 otherwise; neither changes anything else. -/
def Obligations.LengthAndEndQueries : Prop :=
  decode 0x00000012#32 = .ok .bwBlen ∧ decode 0x00000022#32 = .ok .brEnd ∧
  ∀ s : State, s.halted = false →
    (∃ t, exec .bwBlen s = .next t ∧ t = { s with dout := t.dout } ∧
      t.dout.toNat = 8 * ((s.bwBits.toNat + 63) / 64)) ∧
    (∃ t, exec .brEnd s = .next t ∧ t = { s with dout := t.dout } ∧
      t.dout.toNat = if 64 * (s.brLen.toNat / 8) ≤ s.brPos.toNat then 1 else 0)

/-- R71, R74, R150, R151: BR.GET of a legal width (and BR.BIT, one bit) with the bits readable returns them, the first bit
read as bit 0 and the bits above as 0, advances `BR_POS`, and changes nothing else. -/
def Obligations.BitGetReadsTheView : Prop :=
  ∀ (s : State) (w : BitVec 8), s.halted = false → w.toNat ≤ 64 →
    (BitsReadable s w.toNat →
      ∃ t, exec (.brGet w) s = .next t ∧ t = { s with dout := t.dout, brPos := t.brPos } ∧
        t.brPos.toNat = s.brPos.toNat + w.toNat ∧
        ∀ j < 64, t.dout.getLsbD j = (decide (j < w.toNat) && viewBit s j)) ∧
    (BitsReadable s 1 →
      ∃ t, exec .brBit s = .next t ∧ t = { s with dout := t.dout, brPos := t.brPos } ∧
        t.brPos.toNat = s.brPos.toNat + 1 ∧ t.dout.toNat = (viewBit s 0).toNat)

/-- R74, R76, R150, R151: BR.GET of a legal width (and BR.BIT) raises ERR_OOB if and only if it needs a bit at or beyond
the readable bits, and otherwise ERR_BUS exactly when a needed byte lies beyond MEM. The clause on widths above 64 is the
model's choice (log entry 6): no command word decodes to such an instruction term, and it raises ERR_ILLEGAL as R92 has
its word do. -/
def Obligations.BitGetFailsExactlyPastTheEnd : Prop :=
  ∀ (s : State) (w : BitVec 8), s.halted = false →
    (w.toNat ≤ 64 →
      (exec (.brGet w) s = .next { s with status := { err := .oob, fault := true } } ↔
        64 * (s.brLen.toNat / 8) < s.brPos.toNat + w.toNat) ∧
      (exec (.brGet w) s = .next { s with status := { err := .bus, fault := true } } ↔
        s.brPos.toNat + w.toNat ≤ 64 * (s.brLen.toNat / 8) ∧ 0 < w.toNat ∧
          s.memBytes < s.brBase.toNat + (s.brPos.toNat + w.toNat + 7) / 8)) ∧
    (64 < w.toNat → exec (.brGet w) s = .next { s with status := { err := .illegal, fault := true } }) ∧
    (exec .brBit s = .next { s with status := { err := .oob, fault := true } } ↔
      64 * (s.brLen.toNat / 8) < s.brPos.toNat + 1) ∧
    (exec .brBit s = .next { s with status := { err := .bus, fault := true } } ↔
      s.brPos.toNat + 1 ≤ 64 * (s.brLen.toNat / 8) ∧ s.memBytes < s.brBase.toNat + (s.brPos.toNat + 8) / 8)

/-- R153: for any sequence of BW.PUT of legal widths after BW.CLR, all succeeding, a bit cursor over the written bytes
returns each `v AND mask(w)` to BR.GET of the same widths in the same order, and ends where the writer ended. -/
def Obligations.BitStreamRoundTrip : Prop :=
  ∀ (puts : List (BitVec 8 × Word)) (s t u : State), (∀ p ∈ puts, p.1.toNat ≤ 64) → s.halted = false →
    Memory.wf s.mem = true → s.bwBits = 0 →
    issueAll (puts.map fun p => (.bwPut p.1, p.2)) s = .next t → t.halted = false → ViewsBitStream u t →
    ∃ v, collectAll (puts.map fun p => (.brGet p.1, 0)) u = some (puts.map fun p => p.2 &&& mask p.1.toNat, v) ∧
      v.brPos = t.bwBits

/-! ### Byte writer and byte cursor (spec/42_byte_buffers.md, spec/20_memory.md R77, R78) -/

/-- R77, R171: YW.PUT of a legal width with room appends the low `w` bytes of `DIN`, least significant first, and changes
nothing but those bytes and `YW_LEN`. -/
def Obligations.BytePutAppendsLowBytes : Prop :=
  ∀ (s : State) (w : BitVec 8), s.halted = false → Memory.wf s.mem = true →
    (w.toNat = 1 ∨ w.toNat = 2 ∨ w.toNat = 4 ∨ w.toNat = 8) → ByteRoom s w.toNat →
    ∃ t, exec (.ywPut w) s = .next t ∧ t = { s with mem := t.mem, ywLen := t.ywLen } ∧
      t.ywLen.toNat = s.ywLen.toNat + w.toNat ∧
      BytesAppended s t.mem ((List.range w.toNat).map fun j => s.din.extractLsb' (8 * j) 8)

/-- R77, R172: YW.CPY appends `DIN[63:32]` bytes from address `DIN[31:0]`, each as it stood before the command (also where
the ranges overlap); a count of 0 does nothing. Nothing else changes. -/
def Obligations.ByteCopyMovesTheSource : Prop :=
  ∀ s : State, s.halted = false → Memory.wf s.mem = true →
    ((s.din.extractLsb' 32 32).toNat = 0 → exec .ywCpy s = .next s) ∧
    (ByteRoom s (s.din.extractLsb' 32 32).toNat →
      (s.din.extractLsb' 0 32).toNat + (s.din.extractLsb' 32 32).toNat ≤ s.memBytes →
      ∃ t, exec .ywCpy s = .next t ∧ t = { s with mem := t.mem, ywLen := t.ywLen } ∧
        t.ywLen.toNat = s.ywLen.toNat + (s.din.extractLsb' 32 32).toNat ∧
        BytesAppended s t.mem ((List.range (s.din.extractLsb' 32 32).toNat).map fun j =>
          Memory.read s.mem ((s.din.extractLsb' 0 32).toNat + j)))

/-- R77, R78, R171, R172, R180, R304: the errors of YW.PUT (ERR_CAP before ERR_BUS), of YW.CPY (ERR_CAP, then ERR_BUS for
the source, then ERR_BUS for the destination) and of YR.GET (ERR_OOB before ERR_BUS). Nothing else changes. The first
clause is the model's choice (log entry 6): an instruction term with a width other than 1, 2, 4 or 8, which no command
word decodes to, raises ERR_ILLEGAL as R92 has its word do. -/
def Obligations.ByteBufferErrors : Prop :=
  ∀ (s : State) (w : BitVec 8), s.halted = false →
    let legal : Prop := w.toNat = 1 ∨ w.toNat = 2 ∨ w.toNat = 4 ∨ w.toNat = 8
    let src := (s.din.extractLsb' 0 32).toNat
    let n := (s.din.extractLsb' 32 32).toNat
    (¬ legal → exec (.ywPut w) s = .next { s with status := { err := .illegal, fault := true } } ∧
      exec (.yrGet w) s = .next { s with status := { err := .illegal, fault := true } }) ∧
    (legal → s.ywCap.toNat < s.ywLen.toNat + w.toNat →
      exec (.ywPut w) s = .next { s with status := { err := .cap, fault := true } }) ∧
    (legal → s.ywLen.toNat + w.toNat ≤ s.ywCap.toNat → s.memBytes < s.ywBase.toNat + s.ywLen.toNat + w.toNat →
      exec (.ywPut w) s = .next { s with status := { err := .bus, fault := true } }) ∧
    (n ≠ 0 → s.ywCap.toNat < s.ywLen.toNat + n →
      exec .ywCpy s = .next { s with status := { err := .cap, fault := true } }) ∧
    (n ≠ 0 → s.ywLen.toNat + n ≤ s.ywCap.toNat →
      (s.memBytes < src + n ∨ s.memBytes < s.ywBase.toNat + s.ywLen.toNat + n) →
      exec .ywCpy s = .next { s with status := { err := .bus, fault := true } }) ∧
    (legal → s.yrLen.toNat < s.yrPos.toNat + w.toNat →
      exec (.yrGet w) s = .next { s with status := { err := .oob, fault := true } }) ∧
    (legal → s.yrPos.toNat + w.toNat ≤ s.yrLen.toNat → s.memBytes < s.yrBase.toNat + s.yrPos.toNat + w.toNat →
      exec (.yrGet w) s = .next { s with status := { err := .bus, fault := true } })

/-- R62, R78, R180: YR.GET of a legal width with the bytes readable returns them as a zero-extended little-endian value,
advances `YR_POS`, and changes nothing else. -/
def Obligations.ByteGetReadsLittleEndian : Prop :=
  ∀ (s : State) (w : BitVec 8), s.halted = false → (w.toNat = 1 ∨ w.toNat = 2 ∨ w.toNat = 4 ∨ w.toNat = 8) →
    BytesReadable s w.toNat →
    ∃ t, exec (.yrGet w) s = .next t ∧ t = { s with dout := t.dout, yrPos := t.yrPos } ∧
      t.yrPos.toNat = s.yrPos.toNat + w.toNat ∧
      t.dout.toNat = ((List.range w.toNat).map fun j =>
        (Memory.read s.mem (s.yrBase.toNat + s.yrPos.toNat + j)).toNat * 2 ^ (8 * j)).sum

/-- R181: YR.SUB inside the view returns the address of the sub-range and skips it, reading no memory; a sub-range that
crosses the end of the view raises ERR_OOB. `DIN[63:32]` is ignored. -/
def Obligations.SubRangeSkipsTheParent : Prop :=
  decode 0x00000041#32 = .ok .yrSub ∧
  ∀ s : State, s.halted = false →
    (s.yrPos.toNat + (s.din.extractLsb' 0 32).toNat ≤ s.yrLen.toNat →
      ∃ t, exec .yrSub s = .next t ∧ t = { s with dout := t.dout, yrPos := t.yrPos } ∧
        t.dout.toNat = s.yrBase.toNat + s.yrPos.toNat ∧
        t.yrPos.toNat = s.yrPos.toNat + (s.din.extractLsb' 0 32).toNat) ∧
    (s.yrLen.toNat < s.yrPos.toNat + (s.din.extractLsb' 0 32).toNat →
      exec .yrSub s = .next { s with status := { err := .oob, fault := true } })

/-- R67: bytes that a YW.PUT writes are read by a later YR.GET of the same place, in little-endian order, whatever the
cursor's other state: the value's low `w` bytes come back zero-extended. -/
def Obligations.ScalarReadsBackAsWritten : Prop :=
  ∀ (s t u : State) (w : BitVec 8), s.halted = false → Memory.wf s.mem = true →
    (w.toNat = 1 ∨ w.toNat = 2 ∨ w.toNat = 4 ∨ w.toNat = 8) → exec (.ywPut w) s = .next t → t.halted = false →
    u.halted = false → u.mem = t.mem → BytesReadable u w.toNat →
    u.yrBase.toNat + u.yrPos.toNat = s.ywBase.toNat + s.ywLen.toNat →
    ∃ v, exec (.yrGet w) u = .next v ∧ v.dout = s.din &&& mask (8 * w.toNat)

/-! ### Zig-zag (spec/43_zigzag.md) -/

/-- R190: ZZ.ENC of the signed value x returns 2x for x >= 0 and -2x - 1 for x < 0, and changes nothing else; the result
is packable exactly when -2^59 <= x <= 2^59 - 1. -/
def Obligations.ZigZagEncodesSigned : Prop :=
  decode 0x00000050#32 = .ok .zzEnc ∧
  ∀ s : State, s.halted = false →
    ∃ t, exec .zzEnc s = .next t ∧ t = { s with dout := t.dout } ∧
      t.dout = (s.din <<< 1) ^^^ s.din.sshiftRight 63 ∧
      (t.dout.toNat : Int) = (if 0 ≤ s.din.toInt then 2 * s.din.toInt else -2 * s.din.toInt - 1) ∧
      (t.dout.toNat ≤ 2 ^ 60 - 1 ↔ -2 ^ 59 ≤ s.din.toInt ∧ s.din.toInt ≤ 2 ^ 59 - 1)

/-- R191: ZZ.DEC of y returns y/2 for even y and -(y+1)/2 for odd y, and changes nothing else. -/
def Obligations.ZigZagDecodesUnsigned : Prop :=
  decode 0x00000051#32 = .ok .zzDec ∧
  ∀ s : State, s.halted = false →
    ∃ t, exec .zzDec s = .next t ∧ t = { s with dout := t.dout } ∧
      t.dout = (s.din >>> 1) ^^^ (0 - (s.din &&& 1)) ∧
      t.dout.toInt = if s.din.toNat % 2 = 0 then (s.din.toNat / 2 : Int) else -((s.din.toNat + 1) / 2 : Int)

/-- R192: ZZ.DEC of the result of ZZ.ENC x is x for every x, and ZZ.ENC of the result of ZZ.DEC y is y for every y. -/
def Obligations.ZigZagIsBijection : Prop :=
  ∀ s : State, s.halted = false →
    (∃ t u, exec .zzEnc s = .next t ∧ exec .zzDec { t with din := t.dout } = .next u ∧ u.dout = s.din) ∧
    (∃ t u, exec .zzDec s = .next t ∧ exec .zzEnc { t with din := t.dout } = .next u ∧ u.dout = s.din)

/-! ### Simple8B (spec/44_simple8b.md, spec/30_encoding.md R101, R102) -/

/-- R201, R203, R204, R205: Select takes the first selector, densest first, of non-zero width whose values (its count, or
under PAD all that remain) exist and fit, and packs and consumes exactly those; there always is one; with 60 values or more
it reads only the first 60 and does not depend on the tail policy. -/
def Obligations.SelectIsTheDensestAdmissible : Prop :=
  ∀ (tailPad : Bool) (q : List Packable), q ≠ [] →
    let ok := fun s : BitVec 4 => selWidth s ≠ 0 ∧ (selCount s ≤ q.length ∨ tailPad = true) ∧
      ∀ v ∈ q.take (selCount s), v.toNat ≤ 2 ^ selWidth s - 1
    let r := select tailPad q
    ok r.sel ∧ (∀ s' : BitVec 4, s'.toNat < r.sel.toNat → ¬ ok s') ∧ 2 ≤ r.sel.toNat ∧
      r.used = min (selCount r.sel) q.length ∧ 1 ≤ r.used ∧ r.word = pack r.sel (q.take (selCount r.sel)) ∧
      (60 ≤ q.length → r = select false (q.take 60))

/-- R101, R102, R202: the selector table, and the packed word: its selector in bits 63:60, value i in the i-th field from
the bottom, and 0 in the empty fields and the unused bits. -/
def Obligations.PackedWordLayout : Prop :=
  (selectorOrder.map fun s => (s.toNat, selCount s, selWidth s)) =
    [(0, 240, 0), (1, 120, 0), (2, 60, 1), (3, 30, 2), (4, 20, 3), (5, 15, 4), (6, 12, 5), (7, 10, 6),
     (8, 8, 7), (9, 7, 8), (10, 6, 10), (11, 5, 12), (12, 4, 15), (13, 3, 20), (14, 2, 30), (15, 1, 60)] ∧
  ∀ (s : BitVec 4) (f : List Packable), f.length ≤ selCount s →
    (∀ v ∈ f, v.toNat ≤ 2 ^ selWidth s - 1) →
    (pack s f).extractLsb' 60 4 = s ∧
    (∀ i, (h : i < f.length) → (pack s f).extractLsb' (i * selWidth s) (selWidth s) = (f[i]).setWidth (selWidth s)) ∧
    ∀ b, f.length * selWidth s ≤ b → b < 60 → (pack s f).getLsbD b = false

/-- R200, R211: SE.PUSH of a packable value onto a FIFO of other than 59 values queues it and changes nothing else; onto 59
values, with room for 8 bytes, it emits the word Select chooses for the 60 and keeps the rest. -/
def Obligations.PushQueuesOrEmitsOneWord : Prop :=
  ∀ s : State, s.halted = false → s.din.toNat < 2 ^ 60 →
    (s.seQ.length ≠ 59 → exec .sePush s = .next { s with seQ := s.seQ ++ [s.din.setWidth 60] }) ∧
    (s.seQ.length = 59 → Memory.wf s.mem = true → ByteRoom s 8 →
      ∃ t, exec .sePush s = .next t ∧ t = { s with mem := t.mem, ywLen := t.ywLen, seQ := t.seQ } ∧
        t.ywLen.toNat = s.ywLen.toNat + 8 ∧
        t.seQ = (s.seQ ++ [s.din.setWidth 60]).drop (select s.tailPad (s.seQ ++ [s.din.setWidth 60])).used ∧
        BytesAppended s t.mem ((List.range 8).map fun j =>
          (select s.tailPad (s.seQ ++ [s.din.setWidth 60])).word.extractLsb' (8 * j) 8))

/-- R200, R211, R213, R304: SE.PUSH raises ERR_RANGE for a value of 2^60 or more, before anything else; the 60th push and
SE.FLUSH raise ERR_CAP, then ERR_BUS, when their words do not fit. Nothing else changes. -/
def Obligations.EncoderErrors : Prop :=
  ∀ s : State, s.halted = false →
    (2 ^ 60 ≤ s.din.toNat → exec .sePush s = .next { s with status := { err := .range, fault := true } }) ∧
    (s.din.toNat < 2 ^ 60 → s.seQ.length = 59 → s.ywCap.toNat < s.ywLen.toNat + 8 →
      exec .sePush s = .next { s with status := { err := .cap, fault := true } }) ∧
    (s.din.toNat < 2 ^ 60 → s.seQ.length = 59 → s.ywLen.toNat + 8 ≤ s.ywCap.toNat →
      s.memBytes < s.ywBase.toNat + s.ywLen.toNat + 8 →
      exec .sePush s = .next { s with status := { err := .bus, fault := true } }) ∧
    let n := 8 * (flushWords s.tailPad s.seQ.length s.seQ).length
    (s.seQ ≠ [] → s.ywCap.toNat < s.ywLen.toNat + n →
      exec .seFlush s = .next { s with status := { err := .cap, fault := true } }) ∧
    (s.seQ ≠ [] → s.ywLen.toNat + n ≤ s.ywCap.toNat → s.memBytes < s.ywBase.toNat + s.ywLen.toNat + n →
      exec .seFlush s = .next { s with status := { err := .bus, fault := true } })

/-- R213: SE.FLUSH of an empty FIFO changes nothing; of a non-empty one, with room for its words, it appends them in order,
8 bytes little-endian each, and empties the FIFO. Nothing else changes. -/
def Obligations.FlushEmitsTheQueue : Prop :=
  ∀ s : State, s.halted = false →
    (s.seQ = [] → exec .seFlush s = .next s) ∧
    (s.seQ ≠ [] → Memory.wf s.mem = true →
      let ws := flushWords s.tailPad s.seQ.length s.seQ
      ByteRoom s (8 * ws.length) →
      ∃ t, exec .seFlush s = .next t ∧ t = { s with mem := t.mem, ywLen := t.ywLen, seQ := [] } ∧
        t.ywLen.toNat = s.ywLen.toNat + 8 * ws.length ∧
        BytesAppended s t.mem (ws.flatMap fun w => (List.range 8).map fun j => w.extractLsb' (8 * j) 8))

/-- R205, R213, R222: the words SE.FLUSH emits are those of the greedy loop (Select at the head, then the rest), and their
fields, read in order, begin with the queue's values; under STRICT there is no further field. -/
def Obligations.FlushedWordsHoldTheQueue : Prop :=
  ∀ (tailPad : Bool) (q : List Packable),
    let ws := flushWords tailPad q.length q
    (q ≠ [] → ∃ ws', ws = (select tailPad q).word :: ws' ∧
      ws' = flushWords tailPad (q.drop (select tailPad q).used).length (q.drop (select tailPad q).used)) ∧
    (ws.flatMap wordValues).take q.length = q.map (fun v => v.setWidth 64) ∧
    (tailPad = false → (ws.flatMap wordValues).length = q.length)

/-- R49, R102, R105, R221: SD.NEXT with fields left in a valid word, or with a whole word readable, returns the next field
(0 for selectors 0 and 1) and advances `IDX`; it fetches a word only when none is held or the held one is exhausted. -/
def Obligations.DecoderReturnsTheNextField : Prop :=
  ∀ s : State, s.halted = false →
    (s.sdCtrl.valid = true → s.sdCtrl.idx.toNat < selCount s.sdCtrl.sel →
      ∃ t, exec .sdNext s = .next t ∧ t = { s with dout := t.dout, sdCtrl := t.sdCtrl } ∧
        t.sdCtrl.sel = s.sdCtrl.sel ∧ t.sdCtrl.valid = true ∧ t.sdCtrl.idx.toNat = s.sdCtrl.idx.toNat + 1 ∧
        t.dout.toNat = s.sdWord.toNat / 2 ^ (s.sdCtrl.idx.toNat * selWidth s.sdCtrl.sel) % 2 ^ selWidth s.sdCtrl.sel) ∧
    ((s.sdCtrl.valid = false ∨ s.sdCtrl.idx.toNat = selCount s.sdCtrl.sel) → BytesReadable s 8 →
      let word := Memory.readLE s.mem (s.yrBase.toNat + s.yrPos.toNat) 8
      ∃ t, exec .sdNext s = .next t ∧
        t = { s with dout := t.dout, yrPos := t.yrPos, sdWord := word,
                     sdCtrl := { sel := word.extractLsb' 60 4, idx := 1, valid := true } } ∧
        t.yrPos.toNat = s.yrPos.toNat + 8 ∧ t.dout.toNat = word.toNat % 2 ^ selWidth (word.extractLsb' 60 4))

/-- R221, R251: when a word is needed, SD.NEXT and DD.NEXT raise ERR_OOB if fewer than 8 bytes remain in the view and
otherwise ERR_BUS if they lie beyond MEM. Nothing else changes. -/
def Obligations.DecoderErrors : Prop :=
  ∀ s : State, s.halted = false → (s.sdCtrl.valid = false ∨ s.sdCtrl.idx.toNat = selCount s.sdCtrl.sel) →
    ∀ i ∈ [Instr.sdNext, .ddNext],
      (s.yrLen.toNat < s.yrPos.toNat + 8 → exec i s = .next { s with status := { err := .oob, fault := true } }) ∧
      (s.yrPos.toNat + 8 ≤ s.yrLen.toNat → s.memBytes < s.yrBase.toNat + s.yrPos.toNat + 8 →
        exec i s = .next { s with status := { err := .bus, fault := true } })

/-- R223: values of at most 2^60 - 1 pushed after SE.CLR and YW.CLR and flushed, all succeeding, come back from SD.NEXT over
the written bytes, one each, under either tail policy. -/
def Obligations.Simple8bRoundTrip : Prop :=
  ∀ (vs : List Word) (s t u : State), s.halted = false → Memory.wf s.mem = true → s.seQ = [] → s.ywLen = 0 →
    issueAll ((vs.map fun v => (.sePush, v)) ++ [(.seFlush, 0)]) s = .next t → t.halted = false →
    ViewsByteStream u t →
    ∃ v, collectAll (List.replicate vs.length (.sdNext, 0)) u = some (vs, v)

/-! ### Delta-of-delta (spec/45_delta_of_delta.md) -/

/-- R240, R246: DE.PUSH hands to the packer the value, the zig-zag of its first difference, or the zig-zag of its second
difference, by phase, returns that element in `DOUT`, and records the value, the difference and the phase. Stated where the
element is packable and no word is emitted; the emission is SE.PUSH's. -/
def Obligations.DeltaPushRecordsTheDifference : Prop :=
  ∀ s : State, s.halted = false → s.seQ.length ≠ 59 →
    (s.dePhase = .zero → s.din.toNat < 2 ^ 60 →
      exec .dePush s = .next { s with seQ := s.seQ ++ [s.din.setWidth 60], dePrev := s.din, dePdelta := 0,
                                      dePhase := .one, dout := s.din }) ∧
    (s.dePhase = .one → (zigzag (s.din - s.dePrev)).toNat < 2 ^ 60 →
      exec .dePush s = .next { s with seQ := s.seQ ++ [(zigzag (s.din - s.dePrev)).setWidth 60], dePrev := s.din,
                                      dePdelta := s.din - s.dePrev, dePhase := .two,
                                      dout := zigzag (s.din - s.dePrev) }) ∧
    (s.dePhase = .two → (zigzag (s.din - s.dePrev - s.dePdelta)).toNat < 2 ^ 60 →
      exec .dePush s = .next { s with seQ := s.seQ ++ [(zigzag (s.din - s.dePrev - s.dePdelta)).setWidth 60],
                                      dePrev := s.din, dePdelta := s.din - s.dePrev, dePhase := .two,
                                      dout := zigzag (s.din - s.dePrev - s.dePdelta) })

/-- R246: DE.PUSH acts on the FIFO and the byte writer as SE.PUSH of its element e does, e the one R240 gives: its next state
is that of SE.PUSH with operand e but for `DIN`, `DOUT` and the encoder's three registers, an emitted word included; and
it raises what that SE.PUSH raises. -/
def Obligations.DeltaPushFeedsThePacker : Prop :=
  ∀ (s t : State) (e d : Word) (p : Phase), s.halted = false →
    (s.dePhase = .zero → e = s.din ∧ d = 0 ∧ p = .one) →
    (s.dePhase = .one → e = zigzag (s.din - s.dePrev) ∧ d = s.din - s.dePrev ∧ p = .two) →
    (s.dePhase = .two → e = zigzag (s.din - s.dePrev - s.dePdelta) ∧ d = s.din - s.dePrev ∧ p = .two) →
    exec .sePush { s with din := e } = .next t →
    (t.halted = true → exec .dePush s = .next { s with status := t.status }) ∧
    (t.halted = false →
      exec .dePush s = .next { t with din := s.din, dout := e, dePrev := s.din, dePdelta := d, dePhase := p })

/-- R242: DE.PUSH raises ERR_RANGE exactly when v[0] exceeds 2^60 - 1, or the first or second difference, read as signed, is
outside -2^59 .. 2^59 - 1; nothing but `STATUS` changes. -/
def Obligations.DeltaRangeIsOfTheElement : Prop :=
  ∀ s : State, s.halted = false →
    (exec .dePush s = .next { s with status := { err := .range, fault := true } } ↔
      match s.dePhase with
      | .zero => 2 ^ 60 - 1 < s.din.toNat
      | .one => ¬ (-2 ^ 59 ≤ (s.din - s.dePrev).toInt ∧ (s.din - s.dePrev).toInt ≤ 2 ^ 59 - 1)
      | .two => ¬ (-2 ^ 59 ≤ (s.din - s.dePrev - s.dePdelta).toInt ∧
          (s.din - s.dePrev - s.dePdelta).toInt ≤ 2 ^ 59 - 1))

/-- R243, R251: DD.NEXT, with a field left in a valid word or a whole word readable, takes SD.NEXT's effect on the decoder
and the cursor, rebuilds the value from SD.NEXT's element by phase, and returns it in `DOUT`; nothing else changes. -/
def Obligations.DeltaNextRebuildsTheValue : Prop :=
  ∀ s : State, s.halted = false →
    ((s.sdCtrl.valid = true ∧ s.sdCtrl.idx.toNat < selCount s.sdCtrl.sel) ∨
      ((s.sdCtrl.valid = false ∨ s.sdCtrl.idx.toNat = selCount s.sdCtrl.sel) ∧ BytesReadable s 8)) →
    ∃ t, exec .sdNext s = .next t ∧ t.halted = false ∧
      (s.ddPhase = .zero → exec .ddNext s = .next { t with ddDelta := 0, ddLast := t.dout, ddPhase := .one }) ∧
      (s.ddPhase = .one → exec .ddNext s = .next { t with
        ddDelta := unzigzag t.dout, ddLast := s.ddLast + unzigzag t.dout, ddPhase := .two
        dout := s.ddLast + unzigzag t.dout }) ∧
      (s.ddPhase = .two → exec .ddNext s = .next { t with
        ddDelta := s.ddDelta + unzigzag t.dout, ddLast := s.ddLast + (s.ddDelta + unzigzag t.dout)
        dout := s.ddLast + (s.ddDelta + unzigzag t.dout) })

/-- R253: values pushed by DE.PUSH after DE.CLR, SE.CLR and YW.CLR and flushed, all succeeding, come back from DD.NEXT over
the written bytes after DD.CLR and SD.CLR, one each, exactly. -/
def Obligations.DeltaOfDeltaRoundTrip : Prop :=
  ∀ (vs : List Word) (s t u : State), s.halted = false → Memory.wf s.mem = true → s.seQ = [] → s.ywLen = 0 →
    s.dePhase = .zero → issueAll ((vs.map fun v => (.dePush, v)) ++ [(.seFlush, 0)]) s = .next t → t.halted = false →
    ViewsByteStream u t → u.ddPhase = .zero →
    ∃ v, collectAll (List.replicate vs.length (.ddNext, 0)) u = some (vs, v)

/-! ### Gorilla (spec/46_gorilla.md, spec/30_encoding.md R106 to R110) -/

/-- R16: mask(w) is 2^w - 1; clz64 and ctz64 count the leading and the trailing zero bits, 64 for 0. -/
def Obligations.NamedFunctionsOfR16 : Prop :=
  (∀ w ≤ 64, (mask w).toNat = 2 ^ w - 1) ∧ clz64 0 = 64 ∧ ctz64 0 = 64 ∧
  ∀ x : Word, x ≠ 0 →
    clz64 x + ctz64 x ≤ 63 ∧
    x.getLsbD (63 - clz64 x) = true ∧ (∀ i, 63 - clz64 x < i → x.getLsbD i = false) ∧
    x.getLsbD (ctz64 x) = true ∧ (∀ i, i < ctz64 x → x.getLsbD i = false)

/-- R107, R265, R271: GE.PUT of the first value writes its 64 bits; of a repeat, one 0 bit and the window stays. -/
def Obligations.GorillaFirstAndRepeat : Prop :=
  ∀ s : State, s.halted = false → Memory.wf s.mem = true →
    (s.geCtrl.started = false → BitRoom s 64 →
      ∃ t, exec .gePut s = .next t ∧
        t = { s with mem := t.mem, bwBits := t.bwBits, geLast := s.din, geCtrl := { s.geCtrl with started := true } } ∧
        t.bwBits.toNat = s.bwBits.toNat + 64 ∧ BitsAppended s t.mem 64 fun j => s.din.getLsbD j) ∧
    (s.geCtrl.started = true → s.din = s.geLast → BitRoom s 1 →
      ∃ t, exec .gePut s = .next t ∧ t = { s with mem := t.mem, bwBits := t.bwBits } ∧
        t.bwBits.toNat = s.bwBits.toNat + 1 ∧ BitsAppended s t.mem 1 fun _ => false)

/-- R107, R261, R262, R271: GE.PUT of a changed value under a reusable window writes '1','0' and the DB data bits
`(XOR >>l TZB)`, 2 + DB bits, and keeps the window; the data bits hold all of the XOR. -/
def Obligations.GorillaReusesTheWindow : Prop :=
  ∀ s : State, s.halted = false → Memory.wf s.mem = true → s.geCtrl.started = true → s.din ≠ s.geLast →
    s.geCtrl.wvalid = true → s.geCtrl.lzb.toNat ≤ clz64 (s.din ^^^ s.geLast) →
    s.geCtrl.tzb.toNat ≤ ctz64 (s.din ^^^ s.geLast) →
    let db := 64 - s.geCtrl.lzb.toNat - s.geCtrl.tzb.toNat
    BitRoom s (2 + db) →
    ∃ t, exec .gePut s = .next t ∧ t = { s with mem := t.mem, bwBits := t.bwBits, geLast := s.din } ∧
      t.bwBits.toNat = s.bwBits.toNat + (2 + db) ∧
      (BitsAppended s t.mem (2 + db) fun j =>
        if j = 0 then true else if j = 1 then false
        else (s.din ^^^ s.geLast).getLsbD (s.geCtrl.tzb.toNat + (j - 2))) ∧
      ∀ i, (s.din ^^^ s.geLast).getLsbD i = true → s.geCtrl.tzb.toNat ≤ i ∧ i < s.geCtrl.tzb.toNat + db

/-- R107, R108, R264, R271: GE.PUT of a changed value without a reusable window writes '1','1', LZB in 5 bits, the DB code in
6 bits (0 for 64) and the DB data bits, and records the window (min(lz, 31), tz). -/
def Obligations.GorillaNewWindow : Prop :=
  ∀ s : State, s.halted = false → Memory.wf s.mem = true → s.geCtrl.started = true → s.din ≠ s.geLast →
    ¬ (s.geCtrl.wvalid = true ∧ s.geCtrl.lzb.toNat ≤ clz64 (s.din ^^^ s.geLast) ∧
      s.geCtrl.tzb.toNat ≤ ctz64 (s.din ^^^ s.geLast)) →
    let lz := min (clz64 (s.din ^^^ s.geLast)) 31
    let tz := ctz64 (s.din ^^^ s.geLast)
    let db := 64 - lz - tz
    BitRoom s (13 + db) →
    ∃ t, exec .gePut s = .next t ∧
      t = { s with mem := t.mem, bwBits := t.bwBits, geLast := s.din, geCtrl := t.geCtrl } ∧
      t.geCtrl.started = true ∧ t.geCtrl.wvalid = true ∧ t.geCtrl.lzb.toNat = lz ∧ t.geCtrl.tzb.toNat = tz ∧
      1 ≤ db ∧ t.bwBits.toNat = s.bwBits.toNat + (13 + db) ∧
      BitsAppended s t.mem (13 + db) fun j =>
        if j < 2 then true else if j < 7 then lz.testBit (j - 2) else if j < 13 then (db % 64).testBit (j - 7)
        else (s.din ^^^ s.geLast).getLsbD (tz + (j - 13))

/-- R262, R264, R265, R271, R303, R304: the record of GE.PUT has 64 bits for the first value, 1 for a repeat, 2 + DB (3 to
66) under a reusable window and 13 + DB (14 to 77) under a new one; GE.PUT raises ERR_CAP when the record needs a word at
or beyond `BW_CAP`, and otherwise ERR_BUS when the word lies beyond MEM; nothing but `STATUS` changes. -/
def Obligations.GorillaEncoderErrors : Prop :=
  ∀ s : State, s.halted = false →
    let x := s.din ^^^ s.geLast
    let reusable : Prop :=
      s.geCtrl.wvalid = true ∧ s.geCtrl.lzb.toNat ≤ clz64 x ∧ s.geCtrl.tzb.toNat ≤ ctz64 x
    let errors := fun n : Nat =>
      (encodeRecord s.geLast s.geCtrl s.din).length = n ∧
      (s.bwCap.toNat < (s.bwBits.toNat + n + 63) / 64 →
        exec .gePut s = .next { s with status := { err := .cap, fault := true } }) ∧
      ((s.bwBits.toNat + n + 63) / 64 ≤ s.bwCap.toNat →
        s.memBytes < s.bwBase.toNat + 8 * ((s.bwBits.toNat + n + 63) / 64) →
        exec .gePut s = .next { s with status := { err := .bus, fault := true } })
    (s.geCtrl.started = false → errors 64) ∧
    (s.geCtrl.started = true → s.din = s.geLast → errors 1) ∧
    (s.geCtrl.started = true → s.din ≠ s.geLast → reusable →
      let n := 2 + (64 - s.geCtrl.lzb.toNat - s.geCtrl.tzb.toNat)
      3 ≤ n ∧ n ≤ 66 ∧ errors n) ∧
    (s.geCtrl.started = true → s.din ≠ s.geLast → ¬ reusable →
      let n := 13 + (64 - min (clz64 x) 31 - ctz64 x)
      14 ≤ n ∧ n ≤ 77 ∧ errors n)

/-- R109, R281: GD.NEXT of the first value takes 64 bits; of a repeat, one bit, and returns the last value again. -/
def Obligations.GorillaDecodesFirstAndRepeat : Prop :=
  ∀ s : State, s.halted = false →
    (s.gdCtrl.started = false → BitsReadable s 64 →
      ∃ t, exec .gdNext s = .next t ∧
        t = { s with brPos := t.brPos, gdLast := t.dout, dout := t.dout, gdCtrl := { s.gdCtrl with started := true } } ∧
        t.brPos.toNat = s.brPos.toNat + 64 ∧ ∀ j < 64, t.dout.getLsbD j = viewBit s j) ∧
    (s.gdCtrl.started = true → BitsReadable s 1 → viewBit s 0 = false →
      ∃ t, exec .gdNext s = .next t ∧ t = { s with brPos := t.brPos, dout := s.gdLast } ∧
        t.brPos.toNat = s.brPos.toNat + 1)

/-- R107 to R109, R281: GD.NEXT of a windowed record takes 2 + DB or 13 + DB bits, XORs the data bits shifted left by TZB into
the last value, and records a new window (LZB, 64 - LZB - DB) where the record names one, DB code 0 meaning 64. -/
def Obligations.GorillaDecodesWindows : Prop :=
  ∀ s : State, s.halted = false → s.gdCtrl.started = true →
    (s.gdCtrl.wvalid = true →
      let db := 64 - s.gdCtrl.lzb.toNat - s.gdCtrl.tzb.toNat
      BitsReadable s (2 + db) → viewBit s 0 = true → viewBit s 1 = false →
      ∃ t, exec .gdNext s = .next t ∧ t = { s with brPos := t.brPos, gdLast := t.dout, dout := t.dout } ∧
        t.brPos.toNat = s.brPos.toNat + (2 + db) ∧
        t.dout = s.gdLast ^^^ (viewField s 2 db <<< s.gdCtrl.tzb.toNat)) ∧
    (let lz := (viewField s 2 5).toNat
     let db := if viewField s 7 6 = 0 then 64 else (viewField s 7 6).toNat
     lz + db ≤ 64 → BitsReadable s (13 + db) → viewBit s 0 = true → viewBit s 1 = true →
      ∃ t, exec .gdNext s = .next t ∧
        t = { s with brPos := t.brPos, gdLast := t.dout, dout := t.dout, gdCtrl := t.gdCtrl } ∧
        t.gdCtrl.started = true ∧ t.gdCtrl.wvalid = true ∧ t.gdCtrl.lzb.toNat = lz ∧
        t.gdCtrl.tzb.toNat = 64 - lz - db ∧ t.brPos.toNat = s.brPos.toNat + (13 + db) ∧
        t.dout = s.gdLast ^^^ (viewField s 13 db <<< (64 - lz - db)))

/-- R74, R110, R281, R303, R304: the errors of GD.NEXT. Each field it asks for, once those before it are read (the first
value; the two control bits; LZB; the DB code; the data bits), raises ERR_OOB if it runs past the readable bits and
otherwise ERR_BUS if it runs past MEM. ERR_CORRUPT for a reuse record without a window once its two control bits are
read, and for a new-window record with LZB + DB > 64 once its LZB and DB code are. Nothing but `STATUS` changes. -/
def Obligations.GorillaDecoderErrors : Prop :=
  ∀ s : State, s.halted = false →
    let raises := fun e : ErrCode => exec .gdNext s = .next { s with status := { err := e, fault := true } }
    let cutsAt := fun n : Nat => ∀ e : ErrCode, FetchStops s n e → raises e
    let lz := (viewField s 2 5).toNat
    let db := if viewField s 7 6 = 0 then 64 else (viewField s 7 6).toNat
    (s.gdCtrl.started = false → cutsAt 64) ∧
    (s.gdCtrl.started = true → cutsAt 1) ∧
    (s.gdCtrl.started = true → BitsReadable s 1 → viewBit s 0 = true → cutsAt 2) ∧
    (s.gdCtrl.started = true → BitsReadable s 2 → viewBit s 0 = true → viewBit s 1 = false →
      (s.gdCtrl.wvalid = false → raises .corrupt) ∧
      (s.gdCtrl.wvalid = true → cutsAt (2 + (64 - s.gdCtrl.lzb.toNat - s.gdCtrl.tzb.toNat)))) ∧
    (s.gdCtrl.started = true → BitsReadable s 2 → viewBit s 0 = true → viewBit s 1 = true →
      cutsAt 7 ∧
      (BitsReadable s 7 → cutsAt 13) ∧
      (BitsReadable s 13 → 64 < lz + db → raises .corrupt) ∧
      (BitsReadable s 13 → lz + db ≤ 64 → cutsAt (13 + db)))

/-- R283: patterns encoded by GE.PUT after GE.CLR and BW.CLR, all succeeding, come back from GD.NEXT over the written bytes
after GD.CLR, one each, exactly; after each record the cursor is where `BW_BITS` was after that record, and the decoder
holds the window the encoder held. -/
def Obligations.GorillaRoundTrip : Prop :=
  ∀ (vs : List Word) (s t u : State), s.halted = false → Memory.wf s.mem = true → s.bwBits = 0 →
    s.geCtrl = { started := false, wvalid := false, lzb := 0, tzb := 0 } →
    issueAll (vs.map fun v => (.gePut, v)) s = .next t → t.halted = false → ViewsBitStream u t →
    u.gdCtrl = { started := false, wvalid := false, lzb := 0, tzb := 0 } →
    ∀ k ≤ vs.length, ∃ tk uk, issueAll ((vs.take k).map fun v => (.gePut, v)) s = .next tk ∧
      collectAll (List.replicate k (.gdNext, 0)) u = some (vs.take k, uk) ∧
      uk.brPos = tk.bwBits ∧ uk.gdCtrl = tk.geCtrl
end

