-- ==== Sys2Proof/Laws/Bits.lean ====
section
/-! SUPPORT. The bit-order and byte-order helpers, bit by bit. -/

namespace Sys2Proof.Laws

open Sys2Proof Sys2Proof.Machine

/-- `mask(w)` has exactly its low `w` bits set. -/
theorem getLsbD_mask (w i : Nat) : (mask w).getLsbD i = (decide (i < 64) && decide (i < w)) := by
  simp [mask, BitVec.getLsbD_ofNat, Nat.testBit_two_pow_sub_one]

/-- A word built from bits has those bits. -/
theorem getLsbD_wordOfBits (f : Nat → Bool) : ∀ n i : Nat,
    (wordOfBits f n).getLsbD i = (decide (i < n) && decide (i < 64) && f i)
  | 0, i => by simp [wordOfBits]
  | n + 1, i => by
    rw [wordOfBits, BitVec.getLsbD_or, getLsbD_wordOfBits f n i, BitVec.getLsbD_shiftLeft]
    by_cases h64 : i < 64
    · by_cases hn : i < n
      · have : i < n + 1 := by omega
        simp [h64, hn, this]
      · by_cases he : i = n
        · subst he
          simp [h64]
        · have : ¬ i < n + 1 := by omega
          simp only [h64, hn, this, decide_true, decide_false, Bool.false_and, Bool.true_and, Bool.false_or, Bool.not_false,
            BitVec.getLsbD_setWidth]
          have : i - n ≠ 0 := by omega
          simp [BitVec.getLsbD_ofBool, this]
    · simp [h64]

/-- A little-endian value has the bytes' bits (R62, R65). -/
theorem getLsbD_readLE (m : Memory) (a : Nat) : ∀ n i : Nat,
    (Memory.readLE m a n).getLsbD i =
      (decide (i < 64) && decide (i < 8 * n) && (Memory.read m (a + i / 8)).getLsbD (i % 8))
  | 0, i => by simp [Memory.readLE]
  | n + 1, i => by
    rw [Memory.readLE, BitVec.getLsbD_or, getLsbD_readLE m a n i, BitVec.getLsbD_shiftLeft]
    by_cases h64 : i < 64
    · by_cases hn : i < 8 * n
      · have : i < 8 * (n + 1) := by omega
        simp [h64, hn, this]
      · by_cases he : i < 8 * (n + 1)
        · have h1 : i / 8 = n := by omega
          have h2 : i % 8 = i - 8 * n := by omega
          have h3 : i - 8 * n < 64 := by omega
          simp [h64, hn, he, h1, h2, h3]
        · simp only [h64, hn, he, decide_true, decide_false, Bool.false_and, Bool.true_and, Bool.and_false,
            Bool.false_or, Bool.not_false, BitVec.getLsbD_setWidth]
          rw [BitVec.getLsbD_of_ge _ _ (by omega)]
          simp
    · simp [h64]

@[simp] theorem length_bytesLE (v : Word) (n : Nat) : (bytesLE v n).length = n := by
  simp [bytesLE]

/-- Byte `j` of a value is its bits `8j + 7 : 8j` (R65). -/
theorem getElem_bytesLE (v : Word) (n j : Nat) (h : j < (bytesLE v n).length) :
    (bytesLE v n)[j] = v.extractLsb' (8 * j) 8 := by
  simp [bytesLE]

/-- A value stored little-endian is read back (R67). -/
theorem readLE_of_bytes (m : Memory) (a n : Nat) (v : Word)
    (h : ∀ j < n, Memory.read m (a + j) = v.extractLsb' (8 * j) 8) :
    Memory.readLE m a n = v &&& mask (8 * n) := by
  apply BitVec.eq_of_getLsbD_eq
  intro i hi
  rw [getLsbD_readLE, BitVec.getLsbD_and, getLsbD_mask]
  by_cases hn : i < 8 * n
  · rw [h (i / 8) (by omega)]
    have h8 : i % 8 < 8 := Nat.mod_lt _ (by omega)
    have h9 : 8 * (i / 8) + i % 8 = i := by omega
    simp [hi, hn, h8, h9]
  · simp [hn]

/-- A little-endian value depends only on the bytes it covers. -/
theorem readLE_congr (m m' : Memory) (a : Nat) : ∀ n : Nat,
    (∀ j < n, Memory.read m (a + j) = Memory.read m' (a + j)) → Memory.readLE m a n = Memory.readLE m' a n
  | 0, _ => rfl
  | n + 1, h => by
    rw [Memory.readLE, Memory.readLE, readLE_congr m m' a n (fun j hj => h j (by omega)), h n (by omega)]

theorem leadingZerosBelow_le (x : Word) : ∀ n : Nat, leadingZerosBelow x n ≤ n
  | 0 => Nat.le_refl 0
  | n + 1 => by
    rw [leadingZerosBelow]
    split
    · omega
    · have := leadingZerosBelow_le x n
      omega

/-- The bits the count passes are 0. -/
theorem getLsbD_of_leadingZerosBelow (x : Word) : ∀ n i : Nat, i < n → n ≤ i + leadingZerosBelow x n →
    x.getLsbD i = false
  | 0, i, h, _ => by omega
  | n + 1, i, h, hc => by
    rw [leadingZerosBelow] at hc
    split at hc
    · omega
    · rename_i hb
      by_cases hi : i = n
      · subst hi; simpa using hb
      · exact getLsbD_of_leadingZerosBelow x n i (by omega) (by omega)

/-- The bit at which the count stops is 1. -/
theorem getLsbD_at_leadingZerosBelow (x : Word) : ∀ n : Nat, leadingZerosBelow x n < n →
    x.getLsbD (n - 1 - leadingZerosBelow x n) = true
  | 0, h => by omega
  | n + 1, h => by
    rw [leadingZerosBelow] at h ⊢
    split at h
    · rename_i hb
      rw [if_pos hb]
      simpa using hb
    · rename_i hb
      rw [if_neg hb]
      have := getLsbD_at_leadingZerosBelow x n (by omega)
      rw [show n + 1 - 1 - (leadingZerosBelow x n + 1) = n - 1 - leadingZerosBelow x n by omega]
      exact this

theorem trailingZerosFrom_le (x : Word) : ∀ n : Nat, trailingZerosFrom x n ≤ n
  | 0 => Nat.le_refl 0
  | n + 1 => by
    rw [trailingZerosFrom]
    split
    · omega
    · have := trailingZerosFrom_le x n
      omega

theorem getLsbD_of_trailingZerosFrom (x : Word) : ∀ n i : Nat, n ≤ 64 → 64 - n ≤ i → i < 64 - n + trailingZerosFrom x n →
    x.getLsbD i = false
  | 0, i, _, h, hc => by
    have := trailingZerosFrom_le x 0
    omega
  | n + 1, i, hn, h, hc => by
    rw [trailingZerosFrom] at hc
    split at hc
    · omega
    · rename_i hb
      by_cases hi : i = 63 - n
      · subst hi; simpa using hb
      · exact getLsbD_of_trailingZerosFrom x n i (by omega) (by omega) (by omega)

theorem getLsbD_at_trailingZerosFrom (x : Word) : ∀ n : Nat, n ≤ 64 → trailingZerosFrom x n < n →
    x.getLsbD (64 - n + trailingZerosFrom x n) = true
  | 0, _, h => by omega
  | n + 1, hn, h => by
    rw [trailingZerosFrom] at h ⊢
    split at h
    · rename_i hb
      rw [if_pos hb, show 64 - (n + 1) + 0 = 63 - n by omega]
      exact hb
    · rename_i hb
      rw [if_neg hb]
      have := getLsbD_at_trailingZerosFrom x n (by omega) (by omega)
      rw [show 64 - (n + 1) + (trailingZerosFrom x n + 1) = 64 - n + trailingZerosFrom x n by omega]
      exact this

theorem clz64_le (x : Word) : clz64 x ≤ 64 := leadingZerosBelow_le x 64

theorem ctz64_le (x : Word) : ctz64 x ≤ 64 := trailingZerosFrom_le x 64

/-- The bits above the highest 1 bit are 0 (R16). -/
theorem getLsbD_of_clz64 (x : Word) (i : Nat) (h : 64 ≤ i + clz64 x) : x.getLsbD i = false := by
  by_cases hi : i < 64
  · exact getLsbD_of_leadingZerosBelow x 64 i hi h
  · exact BitVec.getLsbD_of_ge x i (by omega)

/-- The bits below the lowest 1 bit are 0 (R16). -/
theorem getLsbD_of_ctz64 (x : Word) (i : Nat) (h : i < ctz64 x) : x.getLsbD i = false :=
  getLsbD_of_trailingZerosFrom x 64 i (Nat.le_refl 64) (by omega) (by simpa [ctz64] using h)

theorem eq_zero_of_clz64 (x : Word) (h : clz64 x = 64) : x = 0 := by
  apply BitVec.eq_of_getLsbD_eq
  intro i _
  rw [getLsbD_of_clz64 x i (by omega)]
  simp

/-- A value that is not 0 has its lowest 1 bit no higher than its highest (R263). -/
theorem clz64_add_ctz64_le (x : Word) (h : x ≠ 0) : clz64 x + ctz64 x ≤ 63 := by
  have hc : clz64 x < 64 := by
    have := clz64_le x
    by_contra hcon
    exact h (eq_zero_of_clz64 x (by omega))
  by_contra hcon
  have h1 : x.getLsbD (64 - 1 - clz64 x) = true := getLsbD_at_leadingZerosBelow x 64 hc
  have h2 := getLsbD_of_ctz64 x (64 - 1 - clz64 x) (by omega)
  rw [h1] at h2
  exact absurd h2 (by simp)

end Sys2Proof.Laws
end

