-- ==== Sys2Proof/Laws/Decode.lean ====
section
/-! SUPPORT. The fields of a command word as numbers (R90). -/

namespace Sys2Proof.Laws

open Sys2Proof

/-- A command word is the sum of its fields (R90). -/
theorem toNat_commandWord (op w r : BitVec 8) :
    (commandWord op w r).toNat = r.toNat * 2 ^ 16 + w.toNat * 2 ^ 8 + op.toNat := by
  change (0#8 ++ r ++ w ++ op : BitVec (8 + 8 + 8 + 8)).toNat = _
  have := r.isLt
  have := w.isLt
  have := op.isLt
  rw [BitVec.toNat_append, BitVec.toNat_append, BitVec.toNat_append,
    ← Nat.shiftLeft_add_eq_or_of_lt (by omega), ← Nat.shiftLeft_add_eq_or_of_lt (by omega),
    ← Nat.shiftLeft_add_eq_or_of_lt (by omega)]
  simp only [Nat.shiftLeft_eq, BitVec.toNat_ofNat]
  omega

theorem toNat_fieldOp (c : CommandWord) : (fieldOp c).toNat = c.toNat % 256 := by
  simp [fieldOp]

theorem toNat_fieldW (c : CommandWord) : (fieldW c).toNat = c.toNat / 2 ^ 8 % 256 := by
  simp [fieldW, BitVec.extractLsb'_toNat, Nat.shiftRight_eq_div_pow]

theorem toNat_fieldR (c : CommandWord) : (fieldR c).toNat = c.toNat / 2 ^ 16 % 256 := by
  simp [fieldR, BitVec.extractLsb'_toNat, Nat.shiftRight_eq_div_pow]

theorem toNat_fieldZ (c : CommandWord) : (fieldZ c).toNat = c.toNat / 2 ^ 24 := by
  have := c.isLt
  simp only [fieldZ, BitVec.extractLsb'_toNat, Nat.shiftRight_eq_div_pow]
  omega

@[simp] theorem fieldOp_commandWord (op w r : BitVec 8) : fieldOp (commandWord op w r) = op := by
  apply BitVec.eq_of_toNat_eq
  rw [toNat_fieldOp, toNat_commandWord]
  omega

@[simp] theorem fieldW_commandWord (op w r : BitVec 8) : fieldW (commandWord op w r) = w := by
  apply BitVec.eq_of_toNat_eq
  rw [toNat_fieldW, toNat_commandWord]
  omega

@[simp] theorem fieldR_commandWord (op w r : BitVec 8) : fieldR (commandWord op w r) = r := by
  apply BitVec.eq_of_toNat_eq
  rw [toNat_fieldR, toNat_commandWord]
  omega

@[simp] theorem fieldZ_commandWord (op w r : BitVec 8) : fieldZ (commandWord op w r) = 0 := by
  apply BitVec.eq_of_toNat_eq
  have := r.isLt
  have := w.isLt
  have := op.isLt
  rw [toNat_fieldZ, toNat_commandWord, show (0 : BitVec 8).toNat = 0 from rfl]
  omega

/-- A word whose `Z` is 0 is the word of its fields (R90). -/
theorem commandWord_fields (c : CommandWord) (h : fieldZ c = 0) : commandWord (fieldOp c) (fieldW c) (fieldR c) = c := by
  apply BitVec.eq_of_toNat_eq
  have hz : (fieldZ c).toNat = 0 := by rw [h]; rfl
  rw [toNat_fieldZ] at hz
  rw [toNat_commandWord, toNat_fieldOp, toNat_fieldW, toNat_fieldR]
  omega

end Sys2Proof.Laws
end

