-- ==== Sys2Proof/Laws/Memory.lean ====
section
/-! SUPPORT. Memory: reading after writing, and the canonical form that every memory operation keeps. -/

namespace Sys2Proof.Laws

open Sys2Proof Sys2Proof.Machine

theorem wfFrom_mono {lo lo' : Nat} (h : lo' ≤ lo) : ∀ m : Memory, Memory.wfFrom lo m = true → Memory.wfFrom lo' m = true
  | [], _ => rfl
  | (a, b) :: m, hm => by
    simp only [Memory.wfFrom, Bool.and_eq_true, decide_eq_true_eq] at hm ⊢
    exact ⟨⟨by omega, hm.1.2⟩, hm.2⟩

/-- Below its first address a canonical memory reads as unlisted. -/
theorem read_below {lo x : Nat} : ∀ m : Memory, Memory.wfFrom lo m = true → x < lo → Memory.read m x = Config.powerOnByte
  | [], _, _ => rfl
  | (a, b) :: m, hm, hx => by
    simp only [Memory.wfFrom, Bool.and_eq_true, decide_eq_true_eq] at hm
    rw [Memory.read, if_neg (by omega)]
    exact read_below m hm.2 (by omega)

theorem wfFrom_write {lo : Nat} : ∀ (m : Memory) (x : Nat) (v : Byte), Memory.wfFrom lo m = true → lo ≤ x →
    Memory.wfFrom lo (Memory.write m x v) = true
  | [], x, v, _, hx => by
    rw [Memory.write]
    split
    · rfl
    · simp [Memory.wfFrom, *]
  | (a, b) :: m, x, v, hm, hx => by
    simp only [Memory.wfFrom, Bool.and_eq_true, decide_eq_true_eq] at hm
    rw [Memory.write]
    split
    · split
      · simp [Memory.wfFrom, hm]
      · simp only [Memory.wfFrom, Bool.and_eq_true, decide_eq_true_eq]
        exact ⟨⟨hx, by assumption⟩, ⟨by omega, hm.1.2⟩, hm.2⟩
    · split
      · split
        · exact wfFrom_mono (by omega) m hm.2
        · simp only [Memory.wfFrom, Bool.and_eq_true, decide_eq_true_eq]
          exact ⟨⟨hx, by assumption⟩, by simp [*]⟩
      · simp only [Memory.wfFrom, Bool.and_eq_true, decide_eq_true_eq]
        exact ⟨hm.1, wfFrom_write m x v hm.2 (by omega)⟩

/-- A write keeps the canonical form. -/
theorem wf_write (m : Memory) (x : Nat) (v : Byte) (h : Memory.wf m = true) : Memory.wf (Memory.write m x v) = true :=
  wfFrom_write m x v h (Nat.zero_le x)

theorem wf_writeBytes : ∀ (bs : List Byte) (m : Memory) (a : Nat), Memory.wf m = true →
    Memory.wf (Memory.writeBytes m a bs) = true
  | [], _, _, h => h
  | b :: bs, m, a, h => wf_writeBytes bs _ _ (wf_write m a b h)

theorem wf_nil : Memory.wf [] = true := rfl

theorem below_write (n : Nat) : ∀ (m : Memory) (x : Nat) (v : Byte), Memory.below n m = true → x < n →
    Memory.below n (Memory.write m x v) = true
  | [], x, v, _, hx => by
    rw [Memory.write]
    split <;> simp [Memory.below, hx]
  | (a, b) :: m, x, v, hm, hx => by
    have ih := below_write n m x v
    simp only [Memory.below, List.all_cons, Bool.and_eq_true, decide_eq_true_eq] at hm ih
    rw [Memory.write]
    split
    · split <;> simp only [Memory.below, List.all_cons, Bool.and_eq_true, decide_eq_true_eq] <;> tauto
    · split
      · split <;> simp only [Memory.below, List.all_cons, Bool.and_eq_true, decide_eq_true_eq] <;> tauto
      · simp only [Memory.below, List.all_cons, Bool.and_eq_true, decide_eq_true_eq]
        exact ⟨hm.1, ih hm.2 hx⟩

theorem below_writeBytes (n : Nat) : ∀ (bs : List Byte) (m : Memory) (a : Nat), Memory.below n m = true →
    a + bs.length ≤ n → Memory.below n (Memory.writeBytes m a bs) = true
  | [], _, _, h, _ => h
  | b :: bs, m, a, h, ha => by
    simp only [List.length_cons] at ha
    exact below_writeBytes n bs _ _ (below_write n m a b h (by omega)) (by omega)

theorem read_write_from {lo : Nat} : ∀ (m : Memory) (x : Nat) (v : Byte) (y : Nat), Memory.wfFrom lo m = true →
    Memory.read (Memory.write m x v) y = if y = x then v else Memory.read m y
  | [], x, v, y, _ => by
    rw [Memory.write]
    split
    · subst v; split <;> rfl
    · simp [Memory.read]
  | (a, b) :: m, x, v, y, hm => by
    simp only [Memory.wfFrom, Bool.and_eq_true, decide_eq_true_eq] at hm
    have ih := read_write_from m x v y hm.2
    rw [Memory.write]
    split
    · split
      · split
        · subst_vars
          rw [Memory.read, if_neg (by omega)]
          exact read_below m hm.2 (by omega)
        · rfl
      · simp [Memory.read]
    · split
      · rename_i h1 h2
        subst h2
        split
        · by_cases hy : y = x
          · rw [if_pos hy, hy]
            rename_i hv
            rw [hv]
            exact read_below m hm.2 (by omega)
          · simp [Memory.read, hy]
        · by_cases hy : y = x <;> simp [Memory.read, hy]
      · rw [Memory.read, ih]
        by_cases hy : y = a
        · have : ¬ y = x := by omega
          simp [Memory.read, hy]
          intro h; omega
        · simp [Memory.read, hy]

/-- Reading after one write. -/
theorem read_write (m : Memory) (x : Nat) (v : Byte) (y : Nat) (h : Memory.wf m = true) :
    Memory.read (Memory.write m x v) y = if y = x then v else Memory.read m y :=
  read_write_from m x v y h

/-- Reading after writing a run of bytes: the run inside it, unchanged outside. -/
theorem read_writeBytes : ∀ (bs : List Byte) (m : Memory) (a y : Nat), Memory.wf m = true →
    Memory.read (Memory.writeBytes m a bs) y =
      if h : a ≤ y ∧ y - a < bs.length then bs[y - a]'h.2 else Memory.read m y
  | [], m, a, y, _ => by simp [Memory.writeBytes]
  | b :: bs, m, a, y, h => by
    rw [Memory.writeBytes, read_writeBytes bs _ _ y (wf_write m a b h), read_write m a b y h]
    by_cases h1 : a + 1 ≤ y ∧ y - (a + 1) < bs.length
    · have h2 : a ≤ y ∧ y - a < (b :: bs).length := by simp only [List.length_cons]; omega
      rw [dif_pos h1, dif_pos h2]
      have : y - a = (y - (a + 1)) + 1 := by omega
      simp [this]
    · rw [dif_neg h1]
      by_cases h3 : y = a
      · subst h3
        simp
      · rw [if_neg h3, dif_neg]
        simp only [List.length_cons]
        omega

/-- A run of bytes leaves every byte outside it as it was. -/
theorem read_writeBytes_outside (bs : List Byte) (m : Memory) (a y : Nat) (h : Memory.wf m = true)
    (hy : y < a ∨ a + bs.length ≤ y) : Memory.read (Memory.writeBytes m a bs) y = Memory.read m y := by
  rw [read_writeBytes bs m a y h, dif_neg (by omega)]

/-- A run of bytes is read back as it was written. -/
theorem read_writeBytes_inside (bs : List Byte) (m : Memory) (a j : Nat) (h : Memory.wf m = true) (hj : j < bs.length) :
    Memory.read (Memory.writeBytes m a bs) (a + j) = bs[j] := by
  rw [read_writeBytes bs m a _ h, dif_pos ⟨by omega, by omega⟩]
  congr 1
  omega

theorem length_readBytes (m : Memory) (a n : Nat) : (Memory.readBytes m a n).length = n := by
  simp [Memory.readBytes]

theorem getElem_readBytes (m : Memory) (a n j : Nat) (h : j < (Memory.readBytes m a n).length) :
    (Memory.readBytes m a n)[j] = Memory.read m (a + j) := by
  simp [Memory.readBytes]

end Sys2Proof.Laws
end

