-- ==== Sys2Proof/Laws/Ops.lean ====
section
/-! SUPPORT. What each shared operation can do, said once: errors and the halted state, the buffer primitives. -/

namespace Sys2Proof.Laws

open Sys2Proof Sys2Proof.Machine

/-! ### Completing a command -/

/-- Taking an error when not halted: `STATUS` and nothing else (R302). -/
theorem raise_of_running (s : State) (e : ErrCode) (h : s.halted = false) :
    s.raise e = { s with status := { err := e, fault := true } } := by
  simp [State.raise, h]

/-- A halted block keeps its first error (R305). -/
theorem raise_of_halted (s : State) (e : ErrCode) (h : s.halted = true) : s.raise e = s := by
  simp [State.raise, h]

@[simp] theorem complete_ok (s t : State) : complete s (.ok t) = .next t := rfl

@[simp] theorem complete_error (s : State) (e : ErrCode) : complete s (.error e) = .next (s.raise e) := rfl

/-- A halted block ignores a data command (R305). -/
theorem dataCommand_of_halted (s : State) (r : Except ErrCode State) (h : s.halted = true) :
    dataCommand s r = .next s := by
  simp [dataCommand, h]

/-- A running block completes a data command or raises (R303). -/
theorem dataCommand_of_running (s : State) (r : Except ErrCode State) (h : s.halted = false) :
    dataCommand s r = complete s r := by
  simp [dataCommand, h]

/-- Everything a data command can do: ignored, completed, or raised with no other effect. -/
theorem dataCommand_cases {s t : State} {r : Except ErrCode State} (h : dataCommand s r = .next t) :
    (s.halted = true ∧ t = s) ∨ (s.halted = false ∧ r = .ok t) ∨
      ∃ e, s.halted = false ∧ r = .error e ∧ t = { s with status := { err := e, fault := true } } := by
  cases hs : s.halted with
  | true =>
    rw [dataCommand_of_halted s r hs] at h
    exact .inl ⟨rfl, (Host.Outcome.next.inj h).symm⟩
  | false =>
    rw [dataCommand_of_running s r hs] at h
    cases r with
    | ok u => exact .inr (.inl ⟨rfl, by rw [Host.Outcome.next.inj h]⟩)
    | error e =>
      refine .inr (.inr ⟨e, rfl, rfl, ?_⟩)
      rw [← raise_of_running s e hs]
      exact (Host.Outcome.next.inj h).symm

/-- A data command always has a next state. -/
theorem dataCommand_next (s : State) (r : Except ErrCode State) : ∃ t, dataCommand s r = .next t := by
  unfold dataCommand complete
  split
  · exact ⟨_, rfl⟩
  · split <;> exact ⟨_, rfl⟩

/-- A result that goes to `DOUT` comes from a completed read. -/
theorem toDout_ok {r : Except ErrCode (Word × State)} {t : State} (h : toDout r = .ok t) :
    ∃ v u, r = .ok (v, u) ∧ t = { u with dout := v } := by
  cases r with
  | error e => cases h
  | ok p => exact ⟨p.1, p.2, rfl, by cases h; rfl⟩

@[simp] theorem toDout_error (e : ErrCode) : toDout (.error e) = .error e := rfl

@[simp] theorem toDout_pair (v : Word) (t : State) : toDout (.ok (v, t)) = .ok { t with dout := v } := rfl

/-! ### MemRead and MemWrite -/

theorem memRead_ok (s : State) (a n : Nat) (h : a + n ≤ s.memBytes) :
    s.memRead a n = .ok (Memory.readLE s.mem a n) := by
  rw [State.memRead, if_neg (by omega)]

theorem memWrite_ok (s : State) (a n : Nat) (v : Word) (h : a + n ≤ s.memBytes) :
    s.memWrite a n v = .ok { s with mem := Memory.writeBytes s.mem a (bytesLE v n) } := by
  rw [State.memWrite, if_neg (by omega)]

/-- A `MemWrite` keeps the canonical form. -/
theorem memWrite_wf {s t : State} {a n : Nat} {v : Word} (h : s.memWrite a n v = .ok t) (hm : Memory.wf s.mem = true) :
    Memory.wf t.mem = true := by
  unfold State.memWrite at h
  split at h
  · cases h
  · cases h
    exact wf_writeBytes _ _ _ hm

/-- A host write keeps the canonical form. -/
theorem hostWrite_wf {s t : State} {a : Addr} {b : Byte} (h : hostWrite s a b = .next t) (hm : Memory.wf s.mem = true) :
    Memory.wf t.mem = true := by
  unfold hostWrite at h
  split at h
  · cases h
    exact wf_write _ _ _ hm
  · cases h

theorem wf_reset : Memory.wf State.reset.mem = true := rfl

/-! ### The CSRs -/

/-- A `CSRW` fails exactly where the map of R26 says read-only, and then with ERR_ILLEGAL (R25, R122). -/
theorem writeCsr_error_iff (s : State) (c : Csr) (v : Word) (e : ErrCode) :
    writeCsr s c v = .error e ↔ csrAccess c = .ro ∧ e = .illegal := by
  cases c <;> simp [writeCsr, csrAccess, eq_comm]

/-- A `CSRW` touches neither `MEM` nor `STATUS` (R122). -/
theorem writeCsr_frame {s t : State} {c : Csr} {v : Word} (h : writeCsr s c v = .ok t) :
    t.mem = s.mem ∧ t.memBytes = s.memBytes ∧ t.status = s.status ∧ t.dout = s.dout := by
  cases c <;> simp [writeCsr] at h <;> subst h <;> exact ⟨rfl, rfl, rfl, rfl⟩

/-! ### The bit writer -/

/-- Bit `p` of a stream is a bit of the word that holds it (R71). -/
theorem getLsbD_readLE_stream (m : Memory) (base k j : Nat) (hj : j < 64) :
    (Memory.readLE m (base + 8 * k) 8).getLsbD j = streamBit m base (64 * k + j) := by
  rw [getLsbD_readLE, streamBit]
  have h1 : base + 8 * k + j / 8 = base + (64 * k + j) / 8 := by omega
  have h2 : (64 * k + j) % 8 = j % 8 := by omega
  simp [hj, h1, h2]

/-- The bits of a merged word (R70). -/
theorem getLsbD_mergeWord (B n : Nat) (v : BitVec 77) (k : Nat) (old : Word) (j : Nat) (hj : j < 64) :
    (mergeWord B n v k old).getLsbD j =
      if B ≤ 64 * k + j ∧ 64 * k + j < B + n then v.getLsbD (64 * k + j - B) else old.getLsbD j := by
  rw [mergeWord, getLsbD_wordOfBits]
  simp [hj]

/-- The memory after the outer loop of R70, where every word lies in memory. -/
def appendedMem (B n : Nat) (v : BitVec 77) (base : Nat) : List Nat → Memory → Memory
  | [], m => m
  | k :: ks, m =>
    appendedMem B n v base ks (Memory.writeBytes m (base + 8 * k)
      (bytesLE (mergeWord B n v k (if 64 * k ≥ B then 0 else Memory.readLE m (base + 8 * k) 8)) 8))

/-- The loop of R70 cannot fail once the range check of R70 has passed. -/
theorem appendWords_eq (B n : Nat) (v : BitVec 77) : ∀ (ks : List Nat) (s : State),
    (∀ k ∈ ks, s.bwBase.toNat + 8 * k + 8 ≤ s.memBytes) →
    appendWords B n v ks s = .ok { s with mem := appendedMem B n v s.bwBase.toNat ks s.mem }
  | [], s, _ => rfl
  | k :: ks, s, h => by
    have hk := h k (by simp)
    have hread : (if 64 * k ≥ B then (.ok 0 : Except ErrCode Word) else s.memRead (s.bwBase.toNat + 8 * k) 8) =
        .ok (if 64 * k ≥ B then 0 else Memory.readLE s.mem (s.bwBase.toNat + 8 * k) 8) := by
      split
      · rfl
      · exact memRead_ok s _ 8 hk
    rw [appendWords, hread]
    simp only
    rw [memWrite_ok s _ 8 _ hk]
    simp only
    refine (appendWords_eq B n v ks _ ?_).trans rfl
    intro k' hk'
    exact h k' (by simp [hk'])

theorem appendedMem_wf (B n : Nat) (v : BitVec 77) (base : Nat) : ∀ (ks : List Nat) (m : Memory),
    Memory.wf m = true → Memory.wf (appendedMem B n v base ks m) = true
  | [], _, h => h
  | _ :: ks, m, h => appendedMem_wf B n v base ks _ (wf_writeBytes _ m _ h)

theorem appendedMem_below (B n : Nat) (v : BitVec 77) (base N : Nat) : ∀ (ks : List Nat) (m : Memory),
    Memory.below N m = true → (∀ k ∈ ks, base + 8 * k + 8 ≤ N) →
    Memory.below N (appendedMem B n v base ks m) = true
  | [], _, h, _ => h
  | k :: ks, m, h, hk =>
    appendedMem_below B n v base N ks _ (below_writeBytes N _ m _ h (by simpa using hk k (by simp)))
      (fun k' hk' => hk k' (by simp [hk']))

/-- The loop touches only the bytes of its words. -/
theorem read_appendedMem_outside (B n : Nat) (v : BitVec 77) (base y : Nat) : ∀ (ks : List Nat) (m : Memory),
    Memory.wf m = true → (∀ k ∈ ks, y < base + 8 * k ∨ base + 8 * k + 8 ≤ y) →
    Memory.read (appendedMem B n v base ks m) y = Memory.read m y
  | [], _, _, _ => rfl
  | k :: ks, m, h, hy => by
    rw [appendedMem, read_appendedMem_outside B n v base y ks _ (wf_writeBytes _ m _ h)
      (fun k' hk' => hy k' (by simp [hk'])),
      read_writeBytes_outside _ m _ y h (by simpa using hy k (by simp))]

/-- A stream bit of word `k` after that word alone is written. -/
theorem streamBit_writeWord (m : Memory) (base k p : Nat) (w : Word) (h : Memory.wf m = true) (hp : p / 64 = k) :
    streamBit (Memory.writeBytes m (base + 8 * k) (bytesLE w 8)) base p = w.getLsbD (p % 64) := by
  rw [streamBit]
  have hin : base + p / 8 = base + 8 * k + (p / 8 - 8 * k) := by omega
  have hj : p / 8 - 8 * k < (bytesLE w 8).length := by rw [length_bytesLE]; omega
  rw [hin, read_writeBytes_inside _ m _ _ h hj, getElem_bytesLE, BitVec.getLsbD_extractLsb']
  have h1 : p % 8 < 8 := by omega
  have h2 : 8 * (p / 8 - 8 * k) + p % 8 = p % 64 := by omega
  simp [h1, h2]

/-- The bits of the stream's words after the loop of R70 (R71, R72). -/
theorem streamBit_appendedMem (B n : Nat) (v : BitVec 77) (base : Nat) : ∀ (len k0 : Nat) (m : Memory) (p : Nat),
    Memory.wf m = true → 64 * k0 ≤ p → p < 64 * (k0 + len) →
    streamBit (appendedMem B n v base (List.range' k0 len) m) base p =
      if B ≤ p ∧ p < B + n then v.getLsbD (p - B)
      else if B ≤ 64 * (p / 64) then false else streamBit m base p
  | 0, k0, m, p, _, h1, h2 => by omega
  | len + 1, k0, m, p, h, h1, h2 => by
    rw [List.range'_succ, appendedMem]
    by_cases hp : p / 64 = k0
    · have hout : ∀ m' : Memory, Memory.wf m' = true →
          streamBit (appendedMem B n v base (List.range' (k0 + 1) len) m') base p = streamBit m' base p := by
        intro m' hm'
        rw [streamBit, streamBit, read_appendedMem_outside B n v base _ _ m' hm']
        intro k hk
        have := (List.mem_range'_1.mp hk).1
        omega
      rw [hout _ (wf_writeBytes _ m _ h), streamBit_writeWord m base k0 p _ h hp,
        getLsbD_mergeWord _ _ _ _ _ _ (by omega)]
      have e : 64 * k0 + p % 64 = p := by omega
      rw [e]
      split
      · rfl
      · have e2 : 64 * (p / 64) = 64 * k0 := by omega
        rw [e2]
        by_cases hB : B ≤ 64 * k0
        · rw [if_pos hB, if_pos hB]
          simp
        · rw [if_neg hB, if_neg hB, getLsbD_readLE_stream m base k0 _ (by omega), e]
    · rw [streamBit_appendedMem B n v base len (k0 + 1) _ p (wf_writeBytes _ m _ h) (by omega) (by omega)]
      have hsame : streamBit (Memory.writeBytes m (base + 8 * k0) (bytesLE (mergeWord B n v k0
          (if 64 * k0 ≥ B then 0 else Memory.readLE m (base + 8 * k0) 8)) 8)) base p = streamBit m base p := by
        rw [streamBit, streamBit, read_writeBytes_outside _ m _ _ h]
        rw [length_bytesLE]
        omega
      rw [hsame]

/-- The words a `BitAppend` touches. -/
def touchedWords (B n : Nat) : List Nat := List.range' (B / 64) (wordsFor (B + n) - B / 64)

/-- `BitAppend` in closed form (R70): nothing, ERR_CAP, ERR_BUS, or the appended memory and the new length. -/
theorem bitAppend_eq (v : BitVec 77) (n : Nat) (s : State) :
    bitAppend v n s =
      if n = 0 then .ok s
      else if wordsFor (s.bwBits.toNat + n) > s.bwCap.toNat then .error .cap
      else if s.bwBase.toNat + 8 * wordsFor (s.bwBits.toNat + n) > s.memBytes then .error .bus
      else .ok { s with
        mem := appendedMem s.bwBits.toNat n v s.bwBase.toNat (touchedWords s.bwBits.toNat n) s.mem
        bwBits := BitVec.ofNat 64 (s.bwBits.toNat + n) } := by
  unfold bitAppend
  simp only
  split
  · rfl
  · split
    · rfl
    · split
      · rfl
      · rename_i h0 hcap hbus
        rw [appendWords_eq]
        · rfl
        · intro k hk
          have := (List.mem_range'_1.mp hk).2
          unfold wordsFor at *
          omega

/-- Everything a completed `BitAppend` of at least one bit did (R70 to R72). -/
theorem bitAppend_ok {v : BitVec 77} {n : Nat} {s t : State} (h : bitAppend v n s = .ok t) (hn : n ≠ 0) :
    wordsFor (s.bwBits.toNat + n) ≤ s.bwCap.toNat ∧
    s.bwBase.toNat + 8 * wordsFor (s.bwBits.toNat + n) ≤ s.memBytes ∧
    t = { s with
      mem := appendedMem s.bwBits.toNat n v s.bwBase.toNat (touchedWords s.bwBits.toNat n) s.mem
      bwBits := BitVec.ofNat 64 (s.bwBits.toNat + n) } := by
  rw [bitAppend_eq, if_neg hn] at h
  split at h
  · cases h
  · split at h
    · cases h
    · exact ⟨by omega, by omega, (Except.ok.inj h).symm⟩

/-- Appending nothing changes nothing. -/
theorem bitAppend_zero (v : BitVec 77) (s : State) : bitAppend v 0 s = .ok s := by
  rw [bitAppend_eq, if_pos rfl]

/-- The new length fits its register: the capacity bounds it. -/
theorem bwBits_after (s : State) (n : Nat) (h : wordsFor (s.bwBits.toNat + n) ≤ s.bwCap.toNat) :
    (BitVec.ofNat 64 (s.bwBits.toNat + n)).toNat = s.bwBits.toNat + n := by
  have := s.bwCap.isLt
  unfold wordsFor at h
  rw [BitVec.toNat_ofNat]
  omega

/-- The touched bytes after a completed append. -/
theorem streamBit_append (s : State) (v : BitVec 77) (n p : Nat) (hm : Memory.wf s.mem = true)
    (h1 : 64 * (s.bwBits.toNat / 64) ≤ p) (h2 : p < 64 * wordsFor (s.bwBits.toNat + n)) :
    streamBit (appendedMem s.bwBits.toNat n v s.bwBase.toNat (touchedWords s.bwBits.toNat n) s.mem) s.bwBase.toNat p =
      if s.bwBits.toNat ≤ p ∧ p < s.bwBits.toNat + n then v.getLsbD (p - s.bwBits.toNat)
      else if s.bwBits.toNat ≤ 64 * (p / 64) then false else streamBit s.mem s.bwBase.toNat p := by
  unfold touchedWords
  apply streamBit_appendedMem _ _ _ _ _ _ _ _ hm h1
  unfold wordsFor at *
  omega

theorem read_append_outside (s : State) (v : BitVec 77) (n y : Nat) (hm : Memory.wf s.mem = true)
    (hy : y < s.bwBase.toNat + 8 * (s.bwBits.toNat / 64) ∨
      s.bwBase.toNat + 8 * wordsFor (s.bwBits.toNat + n) ≤ y) :
    Memory.read (appendedMem s.bwBits.toNat n v s.bwBase.toNat (touchedWords s.bwBits.toNat n) s.mem) y =
      Memory.read s.mem y := by
  apply read_appendedMem_outside _ _ _ _ _ _ _ hm
  intro k hk
  have := List.mem_range'_1.mp hk
  unfold wordsFor at *
  omega

/-- A bit of the stream below the append stays as it was. -/
theorem streamBit_append_below (s : State) (v : BitVec 77) (n p : Nat) (hm : Memory.wf s.mem = true)
    (hp : p < s.bwBits.toNat) :
    streamBit (appendedMem s.bwBits.toNat n v s.bwBase.toNat (touchedWords s.bwBits.toNat n) s.mem) s.bwBase.toNat p =
      streamBit s.mem s.bwBase.toNat p := by
  by_cases h : 64 * (s.bwBits.toNat / 64) ≤ p
  · rw [streamBit_append s v n p hm h (by unfold wordsFor; omega), if_neg (by omega), if_neg (by omega)]
  · rw [streamBit, streamBit, read_append_outside s v n _ hm (by omega)]

/-! ### The bit cursor -/

/-- Everything a completed `BitFetch` did (R74). -/
theorem bitFetch_ok {n : Nat} {s t : State} {v : Word} (h : bitFetch n s = .ok (v, t)) :
    s.brPos.toNat + n ≤ s.readableBits ∧
    (n > 0 → s.brBase.toNat + (s.brPos.toNat + n + 7) / 8 ≤ s.memBytes) ∧
    v = wordOfBits (fun i => streamBit s.mem s.brBase.toNat (s.brPos.toNat + i)) n ∧
    t = { s with brPos := BitVec.ofNat 64 (s.brPos.toNat + n) } := by
  unfold bitFetch at h
  simp only at h
  split at h
  · cases h
  · split at h
    · cases h
    · have := Prod.mk.inj (Except.ok.inj h)
      exact ⟨by omega, by omega, this.1.symm, this.2.symm⟩

/-- When a `BitFetch` completes (R74, R76). -/
theorem bitFetch_of_readable (n : Nat) (s : State) (h1 : s.brPos.toNat + n ≤ s.readableBits)
    (h2 : n > 0 → s.brBase.toNat + (s.brPos.toNat + n + 7) / 8 ≤ s.memBytes) :
    bitFetch n s = .ok (wordOfBits (fun i => streamBit s.mem s.brBase.toNat (s.brPos.toNat + i)) n,
      { s with brPos := BitVec.ofNat 64 (s.brPos.toNat + n) }) := by
  unfold bitFetch
  simp only
  rw [if_neg (by omega), if_neg (by omega)]

theorem readableBits_lt (s : State) : s.readableBits < 2 ^ 36 := by
  have := s.brLen.isLt
  unfold State.readableBits
  omega

/-- The new position fits its register: the view bounds it. -/
theorem brPos_after (s : State) (n : Nat) (h : s.brPos.toNat + n ≤ s.readableBits) :
    (BitVec.ofNat 64 (s.brPos.toNat + n)).toNat = s.brPos.toNat + n := by
  have := readableBits_lt s
  rw [BitVec.toNat_ofNat]
  omega

/-! ### The byte writer and the byte cursor -/

/-- Everything a completed `ByteAppend` of at least one byte did (R77). -/
theorem byteAppend_ok {b : List Byte} {s t : State} (h : byteAppend b s = .ok t) (hb : b.length ≠ 0) :
    s.ywLen.toNat + b.length ≤ s.ywCap.toNat ∧ s.ywBase.toNat + s.ywLen.toNat + b.length ≤ s.memBytes ∧
    t = { s with
      mem := Memory.writeBytes s.mem (s.ywBase.toNat + s.ywLen.toNat) b
      ywLen := BitVec.ofNat 64 (s.ywLen.toNat + b.length) } := by
  unfold byteAppend at h
  simp only at h
  rw [if_neg hb] at h
  split at h
  · cases h
  · split at h
    · cases h
    · exact ⟨by omega, by omega, (Except.ok.inj h).symm⟩

theorem byteAppend_nil (s : State) : byteAppend [] s = .ok s := rfl

/-- When a `ByteAppend` completes (R77). -/
theorem byteAppend_of_room (b : List Byte) (s : State) (h1 : s.ywLen.toNat + b.length ≤ s.ywCap.toNat)
    (h2 : s.ywBase.toNat + s.ywLen.toNat + b.length ≤ s.memBytes) (hb : b.length ≠ 0) :
    byteAppend b s = .ok { s with
      mem := Memory.writeBytes s.mem (s.ywBase.toNat + s.ywLen.toNat) b
      ywLen := BitVec.ofNat 64 (s.ywLen.toNat + b.length) } := by
  unfold byteAppend
  simp only
  rw [if_neg hb, if_neg (by omega), if_neg (by omega)]

/-- The new length fits its register: the capacity bounds it. -/
theorem ywLen_after (s : State) (n : Nat) (h : s.ywLen.toNat + n ≤ s.ywCap.toNat) :
    (BitVec.ofNat 64 (s.ywLen.toNat + n)).toNat = s.ywLen.toNat + n := by
  have := s.ywCap.isLt
  rw [BitVec.toNat_ofNat]
  omega

/-- Everything a completed `ByteFetch` did (R78). -/
theorem byteFetch_ok {n : Nat} {s t : State} {v : Word} (h : byteFetch n s = .ok (v, t)) :
    s.yrPos.toNat + n ≤ s.yrLen.toNat ∧ s.yrBase.toNat + s.yrPos.toNat + n ≤ s.memBytes ∧
    v = Memory.readLE s.mem (s.yrBase.toNat + s.yrPos.toNat) n ∧
    t = { s with yrPos := BitVec.ofNat 64 (s.yrPos.toNat + n) } := by
  unfold byteFetch State.memRead at h
  simp only at h
  split at h
  · cases h
  · split at h
    · cases h
    · rename_i hr
      split at hr
      · cases hr
      · have := Prod.mk.inj (Except.ok.inj h)
        exact ⟨by omega, by omega, by rw [← this.1]; exact (Except.ok.inj hr).symm, this.2.symm⟩

/-- When a `ByteFetch` completes (R78). -/
theorem byteFetch_of_inside (n : Nat) (s : State) (h1 : s.yrPos.toNat + n ≤ s.yrLen.toNat)
    (h2 : s.yrBase.toNat + s.yrPos.toNat + n ≤ s.memBytes) :
    byteFetch n s = .ok (Memory.readLE s.mem (s.yrBase.toNat + s.yrPos.toNat) n,
      { s with yrPos := BitVec.ofNat 64 (s.yrPos.toNat + n) }) := by
  unfold byteFetch
  simp only
  rw [if_neg (by omega), memRead_ok s _ _ h2]

theorem yrPos_after (s : State) (n : Nat) (h : s.yrPos.toNat + n ≤ s.yrLen.toNat) :
    (BitVec.ofNat 64 (s.yrPos.toNat + n)).toNat = s.yrPos.toNat + n := by
  have := s.yrLen.isLt
  rw [BitVec.toNat_ofNat]
  omega

end Sys2Proof.Laws
end

