-- ==== Sys2Proof/Laws/Simple8b.lean ====
section
/-! SUPPORT. The selector table, the choice of a selector, and the fields of a packed word. -/

namespace Sys2Proof.Laws

open Sys2Proof Sys2Proof.Machine

/-! ### The table -/

/-- Every selector's fields fit below the selector (R101). -/
theorem selector_product_le (s : BitVec 4) : selCount s * selWidth s ≤ 60 := by
  revert s; decide

theorem selWidth_le (s : BitVec 4) : selWidth s ≤ 60 := by
  revert s; decide

theorem selCount_pos (s : BitVec 4) : 1 ≤ selCount s := by
  revert s; decide

theorem selCount_le_of_width (s : BitVec 4) (h : selWidth s ≠ 0) : selCount s ≤ 60 := by
  revert s; decide

theorem selCount_lt (s : BitVec 4) : selCount s ≤ 240 := by
  revert s; decide

theorem mem_selectorOrder (s : BitVec 4) : s ∈ selectorOrder := by
  revert s; decide

/-! ### The choice -/

theorem taken_length (s : BitVec 4) (q : List Packable) : (taken s q).length = min (selCount s) q.length := by
  simp [taken]

/-- Every value of 60 bits fits 60 bits. -/
theorem fits_sixty (v : Packable) : fits 60 v = true := by
  have := v.isLt
  simp only [fits, decide_eq_true_eq]
  omega

/-- Selector 15 is always admissible (R204). -/
theorem admissible_fifteen (tailPad : Bool) (q : List Packable) (h : q ≠ []) : admissible tailPad q 15 = true := by
  have hw : selWidth 15 = 60 := by decide
  have hc : selCount 15 = 1 := by decide
  have hl : 1 ≤ q.length := List.length_pos_iff.mpr h
  unfold admissible
  rw [hw, hc]
  simp [hl, fits_sixty]

/-- The chosen selector is admissible (R204). -/
theorem admissible_choose (tailPad : Bool) (q : List Packable) (h : q ≠ []) :
    admissible tailPad q (chooseSelector tailPad q) = true := by
  unfold chooseSelector
  cases hf : selectorOrder.find? (admissible tailPad q) with
  | none => simpa using admissible_fifteen tailPad q h
  | some s => simpa using List.find?_some hf

theorem find_order_least (p : BitVec 4 → Bool) (s s' : BitVec 4) (h : selectorOrder.find? p = some s)
    (hlt : s'.toNat < s.toNat) : p s' = false := by
  obtain ⟨_, as, bs, hab, has⟩ := List.find?_eq_some_iff_append.mp h
  by_contra hp
  have hmem : s' ∉ as := fun hm => by simpa [hp] using has s' hm
  have hsorted : List.Pairwise (fun a b : BitVec 4 => a.toNat < b.toNat) selectorOrder := by decide
  rw [hab] at hsorted
  have h' : s' ∈ as ++ s :: bs := hab ▸ mem_selectorOrder s'
  rcases List.mem_append.mp h' with hm | hm
  · exact hmem hm
  · rcases List.mem_cons.mp hm with he | hm
    · subst he; omega
    · have := (List.pairwise_cons.mp (List.pairwise_append.mp hsorted).2.1).1 s' hm
      omega

/-- No denser selector is admissible (R203). -/
theorem not_admissible_below (tailPad : Bool) (q : List Packable) (h : q ≠ []) (s : BitVec 4)
    (hlt : s.toNat < (chooseSelector tailPad q).toNat) : admissible tailPad q s = false := by
  cases hf : selectorOrder.find? (admissible tailPad q) with
  | none =>
    have := List.find?_eq_none.mp hf 15 (mem_selectorOrder 15)
    exact absurd (admissible_fifteen tailPad q h) this
  | some s' =>
    have hc : chooseSelector tailPad q = s' := by simp [chooseSelector, hf]
    exact find_order_least _ s' s hf (hc ▸ hlt)

/-- What an admissible selector promises (R201, R203). -/
theorem admissible_iff (tailPad : Bool) (q : List Packable) (s : BitVec 4) :
    admissible tailPad q s = true ↔
      selWidth s ≠ 0 ∧ (selCount s ≤ q.length ∨ tailPad = true) ∧ ∀ v ∈ taken s q, v.toNat ≤ 2 ^ selWidth s - 1 := by
  simp [admissible, fits, and_assoc]

/-- `Select` consumes at least one value and no more than there are, at most 60 (R204, R205). -/
theorem select_used (tailPad : Bool) (q : List Packable) (h : q ≠ []) :
    1 ≤ (select tailPad q).used ∧ (select tailPad q).used ≤ q.length ∧ (select tailPad q).used ≤ 60 := by
  have hw := ((admissible_iff _ _ _).mp (admissible_choose tailPad q h)).1
  have h1 := selCount_pos (chooseSelector tailPad q)
  have h2 := selCount_le_of_width _ hw
  have h3 : 1 ≤ q.length := List.length_pos_iff.mpr h
  simp only [select, taken_length]
  omega

/-! ### The fields of a packed word -/

theorem getLsbD_of_fits {w : Nat} {v : Packable} (h : v.toNat ≤ 2 ^ w - 1) (b : Nat) (hb : w ≤ b) :
    v.getLsbD b = false := by
  rw [BitVec.getLsbD]
  apply Nat.testBit_lt_two_pow
  have h1 : 2 ^ w ≤ 2 ^ b := Nat.pow_le_pow_right (by omega) hb
  have h2 : 0 < 2 ^ w := by positivity
  omega

/-- The bits of packed fields (R202). -/
theorem getLsbD_packFields (w : Nat) (hw : 0 < w) : ∀ (vs : List Packable) (i j : Nat),
    (∀ v ∈ vs, v.toNat ≤ 2 ^ w - 1) →
    (packFields w i vs).getLsbD j =
      (decide (j < 64) && if h : i ≤ j / w ∧ j / w - i < vs.length then (vs[j / w - i]'h.2).getLsbD (j % w) else false)
  | [], i, j, _ => by simp [packFields]
  | v :: vs, i, j, hf => by
    have hv := hf v (by simp)
    rw [packFields, BitVec.getLsbD_or, getLsbD_packFields w hw vs (i + 1) j (fun u hu => hf u (by simp [hu])),
      BitVec.getLsbD_shiftLeft]
    by_cases h64 : j < 64
    · have hdm := Nat.div_add_mod j w
      have hmod := Nat.mod_lt j hw
      by_cases hi : j / w = i
      · have e : j - i * w = j % w := by
          have : i * w = w * (j / w) := by rw [hi, Nat.mul_comm]
          omega
        have hge : i * w ≤ j := by
          have : i * w = w * (j / w) := by rw [hi, Nat.mul_comm]
          omega
        have h3 : j % w < 64 := by omega
        rw [dif_neg (by omega), dif_pos ⟨by omega, by simp; omega⟩]
        simp only [e, hi, Nat.sub_self, List.getElem_cons_zero, BitVec.getLsbD_setWidth, h64, h3, decide_true,
          Bool.true_and, Bool.and_false, Bool.or_false]
        simp [hge]
      · have hz : (!decide (j < i * w) && (v.setWidth 64).getLsbD (j - i * w)) = false := by
          by_cases hlt : j < i * w
          · simp [hlt]
          · have : w ≤ j - i * w := by
              by_contra hcon
              apply hi
              apply Nat.div_eq_of_lt_le
              · omega
              · rw [Nat.succ_mul]; omega
            rw [BitVec.getLsbD_setWidth, getLsbD_of_fits hv _ this]
            simp
        rw [Bool.and_assoc, hz]
        simp only [h64, decide_true, Bool.true_and, Bool.false_or]
        by_cases hc : i + 1 ≤ j / w ∧ j / w - (i + 1) < vs.length
        · rw [dif_pos hc, dif_pos ⟨by omega, by simp; omega⟩]
          have : j / w - i = (j / w - (i + 1)) + 1 := by omega
          simp only [this, List.getElem_cons_succ]
        · rw [dif_neg hc, dif_neg]
          simp only [List.length_cons]
          omega
    · simp [h64]

/-- A packed word's fields lie below its selector, and its selector is on top (R102). -/
theorem pack_selector (s : BitVec 4) (f : List Packable) (hw : selWidth s ≠ 0) (hl : f.length ≤ selCount s)
    (hf : ∀ v ∈ f, v.toNat ≤ 2 ^ selWidth s - 1) : (pack s f).extractLsb' 60 4 = s := by
  apply BitVec.eq_of_getLsbD_eq
  intro b hb
  rw [BitVec.getLsbD_extractLsb', pack, BitVec.getLsbD_or, getLsbD_packFields _ (by omega) f _ _ hf, dif_neg]
  · have h1 : 60 + b < 64 := by omega
    simp [hb, h1]
  · intro hc
    have hp := selector_product_le s
    have : (60 + b) / selWidth s < selCount s := by omega
    have h3 := (Nat.div_lt_iff_lt_mul (by omega : 0 < selWidth s)).mp this
    omega

/-- Field `i` of a packed word: the `i`-th value, or 0 in an empty field (R102, R202). -/
theorem pack_field (s : BitVec 4) (f : List Packable) (i : Nat) (hf : ∀ v ∈ f, v.toNat ≤ 2 ^ selWidth s - 1)
    (hi : i < selCount s) :
    (pack s f >>> (i * selWidth s)) &&& mask (selWidth s) =
      if h : i < f.length then (f[i]'h).setWidth 64 else 0 := by
  apply BitVec.eq_of_getLsbD_eq
  intro b hb
  have hp := selector_product_le s
  have hbound : (i + 1) * selWidth s ≤ selCount s * selWidth s := Nat.mul_le_mul_right _ hi
  rw [Nat.succ_mul] at hbound
  rw [BitVec.getLsbD_and, getLsbD_mask, BitVec.getLsbD_ushiftRight]
  by_cases hbw : b < selWidth s
  · have hlt : i * selWidth s + b < 60 := by omega
    have hdiv : (i * selWidth s + b) / selWidth s = i := by
      rw [Nat.mul_comm, Nat.mul_add_div (by omega), Nat.div_eq_of_lt hbw, Nat.add_zero]
    have hmod : (i * selWidth s + b) % selWidth s = b := by
      rw [Nat.mul_comm, Nat.mul_add_mod, Nat.mod_eq_of_lt hbw]
    rw [pack, BitVec.getLsbD_or, BitVec.getLsbD_shiftLeft, getLsbD_packFields _ (by omega) f _ _ hf]
    have h64 : i * selWidth s + b < 64 := by omega
    simp only [hb, hbw, hlt, h64, hdiv, hmod, decide_true, Bool.not_true, Bool.and_false, Bool.false_and,
      Bool.false_or, Bool.true_and, Bool.and_true, Nat.zero_le, true_and, Nat.sub_zero]
    split <;> simp [hb]
  · simp only [hbw, decide_false, Bool.and_false]
    split
    · rename_i h
      rw [BitVec.getLsbD_setWidth, getLsbD_of_fits (hf _ (List.getElem_mem h)) b (by omega)]
      simp
    · simp

/-! ### Emitting a queue -/

/-- The words of a queue hold its values in order: each word's values, then the rest (R205, R213). -/
theorem flushWords_cons (tailPad : Bool) (fuel : Nat) (q : List Packable) (h : q ≠ []) :
    flushWords tailPad (fuel + 1) q =
      (select tailPad q).word :: flushWords tailPad fuel (q.drop (select tailPad q).used) := by
  cases q with
  | nil => exact absurd rfl h
  | cons v q => rfl

/-- More fuel than values adds nothing (log entry 10). -/
theorem flushWords_fuel (tailPad : Bool) : ∀ (fuel fuel' : Nat) (q : List Packable), q.length ≤ fuel →
    q.length ≤ fuel' → flushWords tailPad fuel q = flushWords tailPad fuel' q
  | 0, 0, _, _, _ => rfl
  | 0, fuel' + 1, q, h, _ => by
    have : q = [] := List.length_eq_zero_iff.mp (by omega)
    subst this; rfl
  | fuel + 1, 0, q, _, h => by
    have : q = [] := List.length_eq_zero_iff.mp (by omega)
    subst this; rfl
  | fuel + 1, fuel' + 1, q, h, h' => by
    by_cases hq : q = []
    · subst hq; rfl
    · rw [flushWords_cons _ _ _ hq, flushWords_cons _ _ _ hq]
      have := select_used tailPad q hq
      rw [flushWords_fuel tailPad fuel fuel' _ (by rw [List.length_drop]; omega) (by rw [List.length_drop]; omega)]

theorem length_flatMap_bytes (ws : List Word) : (ws.flatMap fun w => bytesLE w 8).length = 8 * ws.length := by
  induction ws with
  | nil => rfl
  | cons w ws ih => rw [List.flatMap_cons, List.length_append, ih, length_bytesLE, List.length_cons]; omega

end Sys2Proof.Laws
end

