-- ==== Sys2Proof/Laws/Frames.lean ====
section
/-! SUPPORT. What each effect can change and which errors it can raise, said once: the frame of every shared operation and
of every command's effect. -/

namespace Sys2Proof.Laws

open Sys2Proof Sys2Proof.Machine

/-! ### The buffer primitives -/

/-- A `BitAppend` changes `MEM` and `BW_BITS` only (R70). -/
theorem bitAppend_frame {v : BitVec 77} {n : Nat} {s t : State} (h : bitAppend v n s = .ok t) :
    t = { s with mem := t.mem, bwBits := t.bwBits } := by
  by_cases hn : n = 0
  · subst hn
    rw [bitAppend_zero] at h
    cases h
    rfl
  · rw [(bitAppend_ok h hn).2.2]

theorem bitAppend_error {v : BitVec 77} {n : Nat} {s : State} {e : ErrCode} (h : bitAppend v n s = .error e) :
    e = .cap ∨ e = .bus := by
  rw [bitAppend_eq] at h
  split at h
  · cases h
  · split at h
    · cases h; exact .inl rfl
    · split at h <;> cases h
      exact .inr rfl

/-- A `BitFetch` changes `BR_POS` only (R74). -/
theorem bitFetch_frame {n : Nat} {s t : State} {v : Word} (h : bitFetch n s = .ok (v, t)) :
    t = { s with brPos := t.brPos } := by
  rw [(bitFetch_ok h).2.2.2]

theorem bitFetch_error {n : Nat} {s : State} {e : ErrCode} (h : bitFetch n s = .error e) : e = .oob ∨ e = .bus := by
  unfold bitFetch at h
  simp only at h
  split at h
  · cases h; exact .inl rfl
  · split at h <;> cases h
    exact .inr rfl

/-- A `ByteAppend` changes `MEM` and `YW_LEN` only (R77). -/
theorem byteAppend_frame {b : List Byte} {s t : State} (h : byteAppend b s = .ok t) :
    t = { s with mem := t.mem, ywLen := t.ywLen } := by
  by_cases hb : b.length = 0
  · rw [List.length_eq_zero_iff.mp hb, byteAppend_nil] at h
    cases h
    rfl
  · rw [(byteAppend_ok h hb).2.2]

theorem byteAppend_error {b : List Byte} {s : State} {e : ErrCode} (h : byteAppend b s = .error e) :
    e = .cap ∨ e = .bus := by
  unfold byteAppend at h
  simp only at h
  split at h
  · cases h
  · split at h
    · cases h; exact .inl rfl
    · split at h <;> cases h
      exact .inr rfl

/-- A `ByteFetch` changes `YR_POS` only (R78). -/
theorem byteFetch_frame {n : Nat} {s t : State} {v : Word} (h : byteFetch n s = .ok (v, t)) :
    t = { s with yrPos := t.yrPos } := by
  rw [(byteFetch_ok h).2.2.2]

theorem byteFetch_error {n : Nat} {s : State} {e : ErrCode} (h : byteFetch n s = .error e) : e = .oob ∨ e = .bus := by
  unfold byteFetch at h
  simp only at h
  split at h
  · cases h; exact .inl rfl
  · unfold State.memRead at h
    split at h <;> rename_i hr <;> cases h
    split at hr <;> cases hr
    exact .inr rfl

/-! ### Where memory may change -/

/-- A `BitAppend` keeps the memory canonical and inside, and writes inside the bit writer's region (R70, R79). -/
theorem bitAppend_mem {v : BitVec 77} {n : Nat} {s t : State} (h : bitAppend v n s = .ok t) (hm : Memory.wf s.mem = true) :
    Memory.wf t.mem = true ∧ (Memory.below s.memBytes s.mem = true → Memory.below s.memBytes t.mem = true) ∧
    ∀ a, Memory.read t.mem a ≠ Memory.read s.mem a →
      s.bwBase.toNat ≤ a ∧ a < s.bwBase.toNat + 8 * s.bwCap.toNat := by
  by_cases hn : n = 0
  · subst hn
    rw [bitAppend_zero] at h
    cases h
    exact ⟨hm, id, fun a ha => absurd rfl ha⟩
  · obtain ⟨h1, h2, h3⟩ := bitAppend_ok h hn
    rw [h3]
    refine ⟨appendedMem_wf _ _ _ _ _ _ hm, fun hb => appendedMem_below _ _ _ _ _ _ _ hb ?_, fun a ha => ?_⟩
    · intro k hk
      have := (List.mem_range'_1.mp hk).2
      unfold wordsFor at *
      omega
    · by_contra hcon
      apply ha
      apply read_append_outside s v n a hm
      omega

/-- A `ByteAppend` keeps the memory canonical and inside, and writes inside the byte writer's region (R77, R79). -/
theorem byteAppend_mem {b : List Byte} {s t : State} (h : byteAppend b s = .ok t) (hm : Memory.wf s.mem = true) :
    Memory.wf t.mem = true ∧ (Memory.below s.memBytes s.mem = true → Memory.below s.memBytes t.mem = true) ∧
    ∀ a, Memory.read t.mem a ≠ Memory.read s.mem a →
      s.ywBase.toNat ≤ a ∧ a < s.ywBase.toNat + s.ywCap.toNat := by
  by_cases hb : b.length = 0
  · rw [List.length_eq_zero_iff.mp hb, byteAppend_nil] at h
    cases h
    exact ⟨hm, id, fun a ha => absurd rfl ha⟩
  · obtain ⟨h1, h2, h3⟩ := byteAppend_ok h hb
    rw [h3]
    refine ⟨wf_writeBytes _ _ _ hm, fun hb => below_writeBytes _ _ _ _ hb h2, fun a ha => ?_⟩
    by_contra hcon
    apply ha
    apply read_writeBytes_outside _ _ _ _ hm
    omega

/-! ### The commands' effects -/

theorem ywCpy_cases {s t : State} (h : ywCpy s = .ok t) :
    t = s ∨ byteAppend (Memory.readBytes s.mem (cpySource s.din) (cpyCount s.din)) s = .ok t := by
  unfold ywCpy at h
  simp only at h
  split at h
  · cases h; exact .inl rfl
  · split at h
    · cases h
    · split at h
      · cases h
      · exact .inr h

theorem ywCpy_error {s : State} {e : ErrCode} (h : ywCpy s = .error e) : e = .cap ∨ e = .bus := by
  unfold ywCpy at h
  simp only at h
  split at h
  · cases h
  · split at h
    · cases h; exact .inl rfl
    · split at h
      · cases h; exact .inr rfl
      · exact byteAppend_error h

/-- `SEPush` queues, or emits one word through the byte writer (R211). -/
theorem sePushValue_cases {v : Word} {s t : State} (h : sePushValue v s = .ok t) :
    v.toNat < 2 ^ 60 ∧
    (((s.seQ ++ [v.setWidth 60]).length ≠ 60 ∧ t = { s with seQ := s.seQ ++ [v.setWidth 60] }) ∨
      ((s.seQ ++ [v.setWidth 60]).length = 60 ∧
        byteAppend (bytesLE (select s.tailPad (s.seQ ++ [v.setWidth 60])).word 8)
          { s with seQ := (s.seQ ++ [v.setWidth 60]).drop (select s.tailPad (s.seQ ++ [v.setWidth 60])).used } =
          .ok t)) := by
  unfold sePushValue Config.fifoDepth at h
  simp only at h
  split at h
  · cases h
  · refine ⟨by omega, ?_⟩
    split at h
    · exact .inr ⟨by assumption, h⟩
    · exact .inl ⟨by assumption, (Except.ok.inj h).symm⟩

theorem sePushValue_error {v : Word} {s : State} {e : ErrCode} (h : sePushValue v s = .error e) :
    e = .range ∨ e = .cap ∨ e = .bus := by
  unfold sePushValue at h
  simp only at h
  split at h
  · cases h; exact .inl rfl
  · split at h
    · exact .inr (byteAppend_error h)
    · cases h

/-- `SEPush` changes the FIFO, `MEM` and `YW_LEN` only (R211). -/
theorem sePushValue_frame {v : Word} {s t : State} (h : sePushValue v s = .ok t) :
    t = { s with mem := t.mem, ywLen := t.ywLen, seQ := t.seQ } := by
  obtain ⟨_, ⟨_, rfl⟩ | ⟨_, hb⟩⟩ := sePushValue_cases h
  · rfl
  · rw [byteAppend_frame hb]

/-- `SEPush` keeps the memory canonical and inside, and writes inside the byte writer's region (R79, R211). -/
theorem sePushValue_mem {v : Word} {s t : State} (h : sePushValue v s = .ok t) (hm : Memory.wf s.mem = true) :
    Memory.wf t.mem = true ∧ (Memory.below s.memBytes s.mem = true → Memory.below s.memBytes t.mem = true) ∧
    ∀ a, Memory.read t.mem a ≠ Memory.read s.mem a →
      s.ywBase.toNat ≤ a ∧ a < s.ywBase.toNat + s.ywCap.toNat := by
  obtain ⟨_, ⟨_, rfl⟩ | ⟨_, hb⟩⟩ := sePushValue_cases h
  · exact ⟨hm, id, fun a ha => absurd rfl ha⟩
  · exact (byteAppend_mem hb hm :)

theorem seFlush_frame {s t : State} (h : seFlush s = .ok t) :
    t = { s with mem := t.mem, ywLen := t.ywLen, seQ := [] } := by
  rw [byteAppend_frame h]

/-- A word is held, with a field left, after the fetch of `SDNext` (R221). -/
theorem sdFetch_cases {s t : State} (h : sdFetch s = .ok t) :
    (sdExhausted s.sdCtrl = false ∧ t = s) ∨
      (sdExhausted s.sdCtrl = true ∧ BitVec.toNat s.yrPos + 8 ≤ s.yrLen.toNat ∧
        s.yrBase.toNat + s.yrPos.toNat + 8 ≤ s.memBytes ∧
        t = { s with
          yrPos := BitVec.ofNat 64 (s.yrPos.toNat + 8)
          sdWord := Memory.readLE s.mem (s.yrBase.toNat + s.yrPos.toNat) 8
          sdCtrl := { sel := (Memory.readLE s.mem (s.yrBase.toNat + s.yrPos.toNat) 8).extractLsb' 60 4, idx := 0,
                      valid := true } }) := by
  unfold sdFetch at h
  split at h
  · rename_i hx
    refine .inr ⟨hx, ?_⟩
    split at h
    · cases h
    · rename_i hb
      obtain ⟨h1, h2, h3, h4⟩ := byteFetch_ok hb
      subst h3 h4
      exact ⟨h1, h2, (Except.ok.inj h).symm⟩
  · rename_i hx
    exact .inl ⟨by simpa using hx, (Except.ok.inj h).symm⟩

/-- `SDNext` changes `YR_POS` and the decoder's two registers only (R221). -/
theorem sdNextValue_frame {s t : State} {v : Word} (h : sdNextValue s = .ok (v, t)) :
    t = { s with yrPos := t.yrPos, sdWord := t.sdWord, sdCtrl := t.sdCtrl } := by
  unfold sdNextValue at h
  split at h
  · cases h
  · rename_i u hu
    cases h
    obtain ⟨_, rfl⟩ | ⟨_, _, _, rfl⟩ := sdFetch_cases hu <;> rfl

theorem sdNextValue_error {s : State} {e : ErrCode} (h : sdNextValue s = .error e) : e = .oob ∨ e = .bus := by
  unfold sdNextValue at h
  split at h
  · rename_i hu
    cases h
    unfold sdFetch at hu
    split at hu
    · split at hu
      · rename_i hb
        cases hu
        exact byteFetch_error hb
      · cases hu
    · cases hu
  · cases h

/-- `DE.PUSH` changes what `SEPush` changes, the encoder's three registers and `DOUT` (R246). -/
theorem dePush_cases {s t : State} (h : dePush s = .ok t) :
    ∃ u, sePushValue (deElement s s.din) s = .ok u ∧
      t = { u with
        dePrev := s.din
        dePdelta := deDelta s s.din
        dePhase := nextPhase s.dePhase
        dout := deElement s s.din } := by
  unfold dePush at h
  split at h
  · cases h
  · rename_i u hu
    exact ⟨u, hu, (Except.ok.inj h).symm⟩

theorem dePush_error {s : State} {e : ErrCode} (h : dePush s = .error e) :
    sePushValue (deElement s s.din) s = .error e := by
  unfold dePush at h
  split at h
  · rename_i he
    cases h
    exact he
  · cases h

/-- `DD.NEXT` changes what `SDNext` changes, the decoder's three registers and `DOUT` (R251). -/
theorem ddNext_cases {s t : State} (h : ddNext s = .ok t) :
    ∃ e u, sdNextValue s = .ok (e, u) ∧
      t = { u with
        ddDelta := ddDeltaAfter s e
        ddLast := ddValueAfter s e
        ddPhase := nextPhase s.ddPhase
        dout := ddValueAfter s e } := by
  unfold ddNext at h
  split at h
  · cases h
  · rename_i e u hu
    exact ⟨e, u, hu, (Except.ok.inj h).symm⟩

theorem ddNext_error {s : State} {e : ErrCode} (h : ddNext s = .error e) : sdNextValue s = .error e := by
  unfold ddNext at h
  split at h
  · rename_i he
    cases h
    exact he
  · cases h

/-- `GE.PUT` appends its record and records the value and the window (R271). -/
theorem gePut_cases {s t : State} (h : gePut s = .ok t) :
    ∃ u, bitAppend (encodeRecord s.geLast s.geCtrl s.din).bits (encodeRecord s.geLast s.geCtrl s.din).length s = .ok u ∧
      t = { u with geLast := s.din, geCtrl := (encodeRecord s.geLast s.geCtrl s.din).ctrl } := by
  unfold gePut at h
  simp only at h
  split at h
  · cases h
  · rename_i u hu
    exact ⟨u, hu, (Except.ok.inj h).symm⟩

theorem gePut_error {s : State} {e : ErrCode} (h : gePut s = .error e) : e = .cap ∨ e = .bus := by
  unfold gePut at h
  simp only at h
  split at h
  · rename_i he
    cases h
    exact bitAppend_error he
  · cases h

/-- The window of a new-window record (R108, R281). -/
theorem gdNewWindow_ok {s t : State} (h : gdNewWindow s = .ok t) :
    ∃ lz c s1 s2, bitFetch 5 s = .ok (lz, s1) ∧ bitFetch 6 s1 = .ok (c, s2) ∧
      lz.toNat + (if c = 0 then 64 else c.toNat) ≤ 64 ∧
      t = { s2 with gdCtrl := { s2.gdCtrl with
        lzb := lz.setWidth 5, tzb := BitVec.ofNat 6 (64 - lz.toNat - (if c = 0 then 64 else c.toNat)), wvalid := true } } := by
  unfold gdNewWindow at h
  split at h
  · cases h
  · rename_i lz s1 h1
    split at h
    · cases h
    · rename_i c s2 h2
      simp only at h
      by_cases hc : lz.toNat + (if c = 0 then 64 else c.toNat) > 64
      · rw [if_pos hc] at h
        cases h
      · rw [if_neg hc] at h
        exact ⟨lz, c, s1, s2, h1, h2, by omega, (Except.ok.inj h).symm⟩

theorem gdNewWindow_error {s : State} {e : ErrCode} (h : gdNewWindow s = .error e) :
    e = .oob ∨ e = .bus ∨ e = .corrupt := by
  unfold gdNewWindow at h
  split at h
  · rename_i h1
    cases h
    have := bitFetch_error h1
    tauto
  · rename_i lz _ _
    split at h
    · rename_i h2
      cases h
      have := bitFetch_error h2
      tauto
    · rename_i c s2 _
      simp only at h
      by_cases hc : lz.toNat + (if c = 0 then 64 else c.toNat) > 64
      · rw [if_pos hc] at h
        cases h
        exact .inr (.inr rfl)
      · rw [if_neg hc] at h
        cases h

theorem gdNewWindow_frame {s t : State} (h : gdNewWindow s = .ok t) :
    t = { s with brPos := t.brPos, gdCtrl := t.gdCtrl } := by
  obtain ⟨lz, c, s1, s2, h1, h2, _, rfl⟩ := gdNewWindow_ok h
  rw [bitFetch_frame h2, bitFetch_frame h1]

theorem gdWindow_frame {s t : State} (h : gdWindow s = .ok t) :
    t = { s with brPos := t.brPos, gdCtrl := t.gdCtrl } := by
  unfold gdWindow at h
  split at h
  · cases h
  · rename_i c s1 h1
    split at h
    · rw [gdNewWindow_frame h, bitFetch_frame h1]
    · split at h
      · cases h
      · cases h
        rw [bitFetch_frame h1]

theorem gdWindow_error {s : State} {e : ErrCode} (h : gdWindow s = .error e) :
    e = .oob ∨ e = .bus ∨ e = .corrupt := by
  unfold gdWindow at h
  split at h
  · rename_i h1
    cases h
    have := bitFetch_error h1
    tauto
  · split at h
    · exact gdNewWindow_error h
    · split at h <;> cases h
      exact .inr (.inr rfl)

theorem gdData_frame {s t : State} (h : gdData s = .ok t) :
    t = { s with brPos := t.brPos, gdLast := t.gdLast } := by
  unfold gdData at h
  split at h
  · cases h
  · rename_i m s1 h1
    cases h
    rw [bitFetch_frame h1]

/-- A record changes `BR_POS` and the decoder's two registers only (R281). -/
theorem gdRecord_frame {s t : State} (h : gdRecord s = .ok t) :
    t = { s with brPos := t.brPos, gdLast := t.gdLast, gdCtrl := t.gdCtrl } := by
  unfold gdRecord at h
  split at h
  · split at h
    · cases h
    · rename_i v s1 h1
      cases h
      rw [bitFetch_frame h1]
  · split at h
    · cases h
    · rename_i c s1 h1
      split at h
      · split at h
        · cases h
        · rename_i s2 h2
          rw [gdData_frame h, gdWindow_frame h2, bitFetch_frame h1]
      · cases h
        rw [bitFetch_frame h1]

theorem gdRecord_error {s : State} {e : ErrCode} (h : gdRecord s = .error e) :
    e = .oob ∨ e = .bus ∨ e = .corrupt := by
  unfold gdRecord at h
  split at h
  · split at h
    · rename_i h1
      cases h
      have := bitFetch_error h1
      tauto
    · cases h
  · split at h
    · rename_i h1
      cases h
      have := bitFetch_error h1
      tauto
    · split at h
      · split at h
        · rename_i h2
          cases h
          exact gdWindow_error h2
        · unfold gdData at h
          split at h
          · rename_i h3
            cases h
            have := bitFetch_error h3
            tauto
          · cases h
      · cases h

theorem gdNext_ok {s t : State} (h : gdNext s = .ok t) : ∃ u, gdRecord s = .ok u ∧ t = { u with dout := u.gdLast } := by
  unfold gdNext at h
  split at h
  · cases h
  · rename_i u hu
    exact ⟨u, hu, (Except.ok.inj h).symm⟩

theorem gdNext_error {s : State} {e : ErrCode} (h : gdNext s = .error e) : e = .oob ∨ e = .bus ∨ e = .corrupt := by
  unfold gdNext at h
  split at h
  · rename_i he
    cases h
    exact gdRecord_error he
  · cases h

/-- A `CSRW` raises ERR_ILLEGAL or nothing (R122). -/
theorem csrw_error {n : BitVec 8} {s : State} {e : ErrCode} (h : csrw n s = .error e) : e = .illegal := by
  unfold csrw at h
  split at h
  · cases h; rfl
  · rename_i c _
    cases c <;> simp [writeCsr] at h <;> exact h.symm

theorem csrr_error {n : BitVec 8} {s : State} {e : ErrCode} (h : csrr n s = .error e) : e = .illegal := by
  unfold csrr at h
  split at h <;> cases h
  rfl

end Sys2Proof.Laws
end

