-- ==== Sys2Proof/Laws/PerInstr.lean ====
section
/-! SUPPORT. The family `RowPattern`: the encoder against the match and mask of spec/opcode_table.json. -/

namespace Sys2Proof.Laws

open Sys2Proof

/-- `match` of each row of spec/opcode_table.json. -/
def rowMatch : Instr → CommandWord
  | .nop => 0x00000001#32
  | .csrr _ => 0x00000002#32
  | .csrw _ => 0x00000003#32
  | .clrerr => 0x00000004#32
  | .sreset => 0x00000005#32
  | .bwClr => 0x00000010#32
  | .bwPut _ => 0x00000011#32
  | .bwBlen => 0x00000012#32
  | .brGet _ => 0x00000020#32
  | .brBit => 0x00000021#32
  | .brEnd => 0x00000022#32
  | .ywClr => 0x00000030#32
  | .ywPut _ => 0x00000031#32
  | .ywCpy => 0x00000032#32
  | .yrGet _ => 0x00000040#32
  | .yrSub => 0x00000041#32
  | .zzEnc => 0x00000050#32
  | .zzDec => 0x00000051#32
  | .seClr => 0x00000060#32
  | .sePush => 0x00000061#32
  | .seFlush => 0x00000062#32
  | .sdClr => 0x00000070#32
  | .sdNext => 0x00000071#32
  | .deClr => 0x00000080#32
  | .dePush => 0x00000081#32
  | .ddClr => 0x00000090#32
  | .ddNext => 0x00000091#32
  | .geClr => 0x000000A0#32
  | .gePut => 0x000000A1#32
  | .gdClr => 0x000000B0#32
  | .gdNext => 0x000000B1#32

/-- `mask` of each row of spec/opcode_table.json. -/
def rowMask : Instr → CommandWord
  | .nop => 0xFFFFFFFF#32
  | .csrr _ => 0xFF00FFFF#32
  | .csrw _ => 0xFF00FFFF#32
  | .clrerr => 0xFFFFFFFF#32
  | .sreset => 0xFFFFFFFF#32
  | .bwClr => 0xFFFFFFFF#32
  | .bwPut _ => 0xFFFF00FF#32
  | .bwBlen => 0xFFFFFFFF#32
  | .brGet _ => 0xFFFF00FF#32
  | .brBit => 0xFFFFFFFF#32
  | .brEnd => 0xFFFFFFFF#32
  | .ywClr => 0xFFFFFFFF#32
  | .ywPut _ => 0xFFFF00FF#32
  | .ywCpy => 0xFFFFFFFF#32
  | .yrGet _ => 0xFFFF00FF#32
  | .yrSub => 0xFFFFFFFF#32
  | .zzEnc => 0xFFFFFFFF#32
  | .zzDec => 0xFFFFFFFF#32
  | .seClr => 0xFFFFFFFF#32
  | .sePush => 0xFFFFFFFF#32
  | .seFlush => 0xFFFFFFFF#32
  | .sdClr => 0xFFFFFFFF#32
  | .sdNext => 0xFFFFFFFF#32
  | .deClr => 0xFFFFFFFF#32
  | .dePush => 0xFFFFFFFF#32
  | .ddClr => 0xFFFFFFFF#32
  | .ddNext => 0xFFFFFFFF#32
  | .geClr => 0xFFFFFFFF#32
  | .gePut => 0xFFFFFFFF#32
  | .gdClr => 0xFFFFFFFF#32
  | .gdNext => 0xFFFFFFFF#32

/-- The word the encoder gives an instruction has the fixed bits of the instruction's row. -/
def RowPattern.Statement (i : Instr) : Prop := encode i &&& rowMask i = rowMatch i

theorem RowPattern.nop : RowPattern.Statement .nop := by unfold RowPattern.Statement; decide
theorem RowPattern.csrr (csr : BitVec 8) : RowPattern.Statement (.csrr csr) := by
  unfold RowPattern.Statement; revert csr; decide
theorem RowPattern.csrw (csr : BitVec 8) : RowPattern.Statement (.csrw csr) := by
  unfold RowPattern.Statement; revert csr; decide
theorem RowPattern.clrerr : RowPattern.Statement .clrerr := by unfold RowPattern.Statement; decide
theorem RowPattern.sreset : RowPattern.Statement .sreset := by unfold RowPattern.Statement; decide
theorem RowPattern.bwClr : RowPattern.Statement .bwClr := by unfold RowPattern.Statement; decide
theorem RowPattern.bwPut (w : BitVec 8) : RowPattern.Statement (.bwPut w) := by
  unfold RowPattern.Statement; revert w; decide
theorem RowPattern.bwBlen : RowPattern.Statement .bwBlen := by unfold RowPattern.Statement; decide
theorem RowPattern.brGet (w : BitVec 8) : RowPattern.Statement (.brGet w) := by
  unfold RowPattern.Statement; revert w; decide
theorem RowPattern.brBit : RowPattern.Statement .brBit := by unfold RowPattern.Statement; decide
theorem RowPattern.brEnd : RowPattern.Statement .brEnd := by unfold RowPattern.Statement; decide
theorem RowPattern.ywClr : RowPattern.Statement .ywClr := by unfold RowPattern.Statement; decide
theorem RowPattern.ywPut (w : BitVec 8) : RowPattern.Statement (.ywPut w) := by
  unfold RowPattern.Statement; revert w; decide
theorem RowPattern.ywCpy : RowPattern.Statement .ywCpy := by unfold RowPattern.Statement; decide
theorem RowPattern.yrGet (w : BitVec 8) : RowPattern.Statement (.yrGet w) := by
  unfold RowPattern.Statement; revert w; decide
theorem RowPattern.yrSub : RowPattern.Statement .yrSub := by unfold RowPattern.Statement; decide
theorem RowPattern.zzEnc : RowPattern.Statement .zzEnc := by unfold RowPattern.Statement; decide
theorem RowPattern.zzDec : RowPattern.Statement .zzDec := by unfold RowPattern.Statement; decide
theorem RowPattern.seClr : RowPattern.Statement .seClr := by unfold RowPattern.Statement; decide
theorem RowPattern.sePush : RowPattern.Statement .sePush := by unfold RowPattern.Statement; decide
theorem RowPattern.seFlush : RowPattern.Statement .seFlush := by unfold RowPattern.Statement; decide
theorem RowPattern.sdClr : RowPattern.Statement .sdClr := by unfold RowPattern.Statement; decide
theorem RowPattern.sdNext : RowPattern.Statement .sdNext := by unfold RowPattern.Statement; decide
theorem RowPattern.deClr : RowPattern.Statement .deClr := by unfold RowPattern.Statement; decide
theorem RowPattern.dePush : RowPattern.Statement .dePush := by unfold RowPattern.Statement; decide
theorem RowPattern.ddClr : RowPattern.Statement .ddClr := by unfold RowPattern.Statement; decide
theorem RowPattern.ddNext : RowPattern.Statement .ddNext := by unfold RowPattern.Statement; decide
theorem RowPattern.geClr : RowPattern.Statement .geClr := by unfold RowPattern.Statement; decide
theorem RowPattern.gePut : RowPattern.Statement .gePut := by unfold RowPattern.Statement; decide
theorem RowPattern.gdClr : RowPattern.Statement .gdClr := by unfold RowPattern.Statement; decide
theorem RowPattern.gdNext : RowPattern.Statement .gdNext := by unfold RowPattern.Statement; decide

end Sys2Proof.Laws
end

