-- ==== Sys2Proof/Laws/State.lean ====
section
/-! SUPPORT. One lemma per field per named update of the state, true by rfl. -/

namespace Sys2Proof.Machine

/-! ### `State.latch`: `DIN` alone (R21) -/

@[simp] theorem State.latch_mem (s : State) (d : Word) : (s.latch d).mem = s.mem := rfl
@[simp] theorem State.latch_memBytes (s : State) (d : Word) : (s.latch d).memBytes = s.memBytes := rfl
@[simp] theorem State.latch_din (s : State) (d : Word) : (s.latch d).din = d := rfl
@[simp] theorem State.latch_dout (s : State) (d : Word) : (s.latch d).dout = s.dout := rfl
@[simp] theorem State.latch_status (s : State) (d : Word) : (s.latch d).status = s.status := rfl
@[simp] theorem State.latch_tailPad (s : State) (d : Word) : (s.latch d).tailPad = s.tailPad := rfl
@[simp] theorem State.latch_bwBase (s : State) (d : Word) : (s.latch d).bwBase = s.bwBase := rfl
@[simp] theorem State.latch_bwCap (s : State) (d : Word) : (s.latch d).bwCap = s.bwCap := rfl
@[simp] theorem State.latch_bwBits (s : State) (d : Word) : (s.latch d).bwBits = s.bwBits := rfl
@[simp] theorem State.latch_brBase (s : State) (d : Word) : (s.latch d).brBase = s.brBase := rfl
@[simp] theorem State.latch_brLen (s : State) (d : Word) : (s.latch d).brLen = s.brLen := rfl
@[simp] theorem State.latch_brPos (s : State) (d : Word) : (s.latch d).brPos = s.brPos := rfl
@[simp] theorem State.latch_ywBase (s : State) (d : Word) : (s.latch d).ywBase = s.ywBase := rfl
@[simp] theorem State.latch_ywCap (s : State) (d : Word) : (s.latch d).ywCap = s.ywCap := rfl
@[simp] theorem State.latch_ywLen (s : State) (d : Word) : (s.latch d).ywLen = s.ywLen := rfl
@[simp] theorem State.latch_yrBase (s : State) (d : Word) : (s.latch d).yrBase = s.yrBase := rfl
@[simp] theorem State.latch_yrLen (s : State) (d : Word) : (s.latch d).yrLen = s.yrLen := rfl
@[simp] theorem State.latch_yrPos (s : State) (d : Word) : (s.latch d).yrPos = s.yrPos := rfl
@[simp] theorem State.latch_seQ (s : State) (d : Word) : (s.latch d).seQ = s.seQ := rfl
@[simp] theorem State.latch_sdWord (s : State) (d : Word) : (s.latch d).sdWord = s.sdWord := rfl
@[simp] theorem State.latch_sdCtrl (s : State) (d : Word) : (s.latch d).sdCtrl = s.sdCtrl := rfl
@[simp] theorem State.latch_dePrev (s : State) (d : Word) : (s.latch d).dePrev = s.dePrev := rfl
@[simp] theorem State.latch_dePdelta (s : State) (d : Word) : (s.latch d).dePdelta = s.dePdelta := rfl
@[simp] theorem State.latch_dePhase (s : State) (d : Word) : (s.latch d).dePhase = s.dePhase := rfl
@[simp] theorem State.latch_ddLast (s : State) (d : Word) : (s.latch d).ddLast = s.ddLast := rfl
@[simp] theorem State.latch_ddDelta (s : State) (d : Word) : (s.latch d).ddDelta = s.ddDelta := rfl
@[simp] theorem State.latch_ddPhase (s : State) (d : Word) : (s.latch d).ddPhase = s.ddPhase := rfl
@[simp] theorem State.latch_geLast (s : State) (d : Word) : (s.latch d).geLast = s.geLast := rfl
@[simp] theorem State.latch_geCtrl (s : State) (d : Word) : (s.latch d).geCtrl = s.geCtrl := rfl
@[simp] theorem State.latch_gdLast (s : State) (d : Word) : (s.latch d).gdLast = s.gdLast := rfl
@[simp] theorem State.latch_gdCtrl (s : State) (d : Word) : (s.latch d).gdCtrl = s.gdCtrl := rfl
@[simp] theorem State.latch_inReset (s : State) (d : Word) : (s.latch d).inReset = s.inReset := rfl
@[simp] theorem State.latch_pending (s : State) (d : Word) : (s.latch d).pending = s.pending := rfl
@[simp] theorem State.latch_halted (s : State) (d : Word) : (s.latch d).halted = s.halted := rfl

/-! ### `State.clearError`: `STATUS` alone (R123) -/

@[simp] theorem State.clearError_mem (s : State) : s.clearError.mem = s.mem := rfl
@[simp] theorem State.clearError_memBytes (s : State) : s.clearError.memBytes = s.memBytes := rfl
@[simp] theorem State.clearError_din (s : State) : s.clearError.din = s.din := rfl
@[simp] theorem State.clearError_dout (s : State) : s.clearError.dout = s.dout := rfl
@[simp] theorem State.clearError_status (s : State) : s.clearError.status = { err := .noError, fault := false } := rfl
@[simp] theorem State.clearError_tailPad (s : State) : s.clearError.tailPad = s.tailPad := rfl
@[simp] theorem State.clearError_bwBase (s : State) : s.clearError.bwBase = s.bwBase := rfl
@[simp] theorem State.clearError_bwCap (s : State) : s.clearError.bwCap = s.bwCap := rfl
@[simp] theorem State.clearError_bwBits (s : State) : s.clearError.bwBits = s.bwBits := rfl
@[simp] theorem State.clearError_brBase (s : State) : s.clearError.brBase = s.brBase := rfl
@[simp] theorem State.clearError_brLen (s : State) : s.clearError.brLen = s.brLen := rfl
@[simp] theorem State.clearError_brPos (s : State) : s.clearError.brPos = s.brPos := rfl
@[simp] theorem State.clearError_ywBase (s : State) : s.clearError.ywBase = s.ywBase := rfl
@[simp] theorem State.clearError_ywCap (s : State) : s.clearError.ywCap = s.ywCap := rfl
@[simp] theorem State.clearError_ywLen (s : State) : s.clearError.ywLen = s.ywLen := rfl
@[simp] theorem State.clearError_yrBase (s : State) : s.clearError.yrBase = s.yrBase := rfl
@[simp] theorem State.clearError_yrLen (s : State) : s.clearError.yrLen = s.yrLen := rfl
@[simp] theorem State.clearError_yrPos (s : State) : s.clearError.yrPos = s.yrPos := rfl
@[simp] theorem State.clearError_seQ (s : State) : s.clearError.seQ = s.seQ := rfl
@[simp] theorem State.clearError_sdWord (s : State) : s.clearError.sdWord = s.sdWord := rfl
@[simp] theorem State.clearError_sdCtrl (s : State) : s.clearError.sdCtrl = s.sdCtrl := rfl
@[simp] theorem State.clearError_dePrev (s : State) : s.clearError.dePrev = s.dePrev := rfl
@[simp] theorem State.clearError_dePdelta (s : State) : s.clearError.dePdelta = s.dePdelta := rfl
@[simp] theorem State.clearError_dePhase (s : State) : s.clearError.dePhase = s.dePhase := rfl
@[simp] theorem State.clearError_ddLast (s : State) : s.clearError.ddLast = s.ddLast := rfl
@[simp] theorem State.clearError_ddDelta (s : State) : s.clearError.ddDelta = s.ddDelta := rfl
@[simp] theorem State.clearError_ddPhase (s : State) : s.clearError.ddPhase = s.ddPhase := rfl
@[simp] theorem State.clearError_geLast (s : State) : s.clearError.geLast = s.geLast := rfl
@[simp] theorem State.clearError_geCtrl (s : State) : s.clearError.geCtrl = s.geCtrl := rfl
@[simp] theorem State.clearError_gdLast (s : State) : s.clearError.gdLast = s.gdLast := rfl
@[simp] theorem State.clearError_gdCtrl (s : State) : s.clearError.gdCtrl = s.gdCtrl := rfl
@[simp] theorem State.clearError_inReset (s : State) : s.clearError.inReset = s.inReset := rfl
@[simp] theorem State.clearError_pending (s : State) : s.clearError.pending = s.pending := rfl
@[simp] theorem State.clearError_halted (s : State) : s.clearError.halted = false := rfl

/-! ### `State.resetRegisters`: every register, `MEM` kept (R124, R340) -/

@[simp] theorem State.resetRegisters_mem (s : State) : s.resetRegisters.mem = s.mem := rfl
@[simp] theorem State.resetRegisters_memBytes (s : State) : s.resetRegisters.memBytes = s.memBytes := rfl
@[simp] theorem State.resetRegisters_din (s : State) : s.resetRegisters.din = 0 := rfl
@[simp] theorem State.resetRegisters_dout (s : State) : s.resetRegisters.dout = 0 := rfl
@[simp] theorem State.resetRegisters_status (s : State) : s.resetRegisters.status = { err := .noError, fault := false } := rfl
@[simp] theorem State.resetRegisters_tailPad (s : State) : s.resetRegisters.tailPad = false := rfl
@[simp] theorem State.resetRegisters_bwBase (s : State) : s.resetRegisters.bwBase = 0 := rfl
@[simp] theorem State.resetRegisters_bwCap (s : State) : s.resetRegisters.bwCap = 0 := rfl
@[simp] theorem State.resetRegisters_bwBits (s : State) : s.resetRegisters.bwBits = 0 := rfl
@[simp] theorem State.resetRegisters_brBase (s : State) : s.resetRegisters.brBase = 0 := rfl
@[simp] theorem State.resetRegisters_brLen (s : State) : s.resetRegisters.brLen = 0 := rfl
@[simp] theorem State.resetRegisters_brPos (s : State) : s.resetRegisters.brPos = 0 := rfl
@[simp] theorem State.resetRegisters_ywBase (s : State) : s.resetRegisters.ywBase = 0 := rfl
@[simp] theorem State.resetRegisters_ywCap (s : State) : s.resetRegisters.ywCap = 0 := rfl
@[simp] theorem State.resetRegisters_ywLen (s : State) : s.resetRegisters.ywLen = 0 := rfl
@[simp] theorem State.resetRegisters_yrBase (s : State) : s.resetRegisters.yrBase = 0 := rfl
@[simp] theorem State.resetRegisters_yrLen (s : State) : s.resetRegisters.yrLen = 0 := rfl
@[simp] theorem State.resetRegisters_yrPos (s : State) : s.resetRegisters.yrPos = 0 := rfl
@[simp] theorem State.resetRegisters_seQ (s : State) : s.resetRegisters.seQ = [] := rfl
@[simp] theorem State.resetRegisters_sdWord (s : State) : s.resetRegisters.sdWord = 0 := rfl
@[simp] theorem State.resetRegisters_sdCtrl (s : State) : s.resetRegisters.sdCtrl = { sel := 0, idx := 0, valid := false } := rfl
@[simp] theorem State.resetRegisters_dePrev (s : State) : s.resetRegisters.dePrev = 0 := rfl
@[simp] theorem State.resetRegisters_dePdelta (s : State) : s.resetRegisters.dePdelta = 0 := rfl
@[simp] theorem State.resetRegisters_dePhase (s : State) : s.resetRegisters.dePhase = .zero := rfl
@[simp] theorem State.resetRegisters_ddLast (s : State) : s.resetRegisters.ddLast = 0 := rfl
@[simp] theorem State.resetRegisters_ddDelta (s : State) : s.resetRegisters.ddDelta = 0 := rfl
@[simp] theorem State.resetRegisters_ddPhase (s : State) : s.resetRegisters.ddPhase = .zero := rfl
@[simp] theorem State.resetRegisters_geLast (s : State) : s.resetRegisters.geLast = 0 := rfl
@[simp] theorem State.resetRegisters_geCtrl (s : State) : s.resetRegisters.geCtrl = { started := false, wvalid := false, lzb := 0, tzb := 0 } := rfl
@[simp] theorem State.resetRegisters_gdLast (s : State) : s.resetRegisters.gdLast = 0 := rfl
@[simp] theorem State.resetRegisters_gdCtrl (s : State) : s.resetRegisters.gdCtrl = { started := false, wvalid := false, lzb := 0, tzb := 0 } := rfl
@[simp] theorem State.resetRegisters_inReset (s : State) : s.resetRegisters.inReset = s.inReset := rfl
@[simp] theorem State.resetRegisters_pending (s : State) : s.resetRegisters.pending = s.pending := rfl
@[simp] theorem State.resetRegisters_halted (s : State) : s.resetRegisters.halted = false := rfl

/-! ### `State.enterReset` (R341) -/

@[simp] theorem State.enterReset_mem (s : State) : s.enterReset.mem = s.mem := rfl
@[simp] theorem State.enterReset_memBytes (s : State) : s.enterReset.memBytes = s.memBytes := rfl
@[simp] theorem State.enterReset_din (s : State) : s.enterReset.din = 0 := rfl
@[simp] theorem State.enterReset_dout (s : State) : s.enterReset.dout = 0 := rfl
@[simp] theorem State.enterReset_status (s : State) : s.enterReset.status = { err := .noError, fault := false } := rfl
@[simp] theorem State.enterReset_tailPad (s : State) : s.enterReset.tailPad = false := rfl
@[simp] theorem State.enterReset_bwBase (s : State) : s.enterReset.bwBase = 0 := rfl
@[simp] theorem State.enterReset_bwCap (s : State) : s.enterReset.bwCap = 0 := rfl
@[simp] theorem State.enterReset_bwBits (s : State) : s.enterReset.bwBits = 0 := rfl
@[simp] theorem State.enterReset_brBase (s : State) : s.enterReset.brBase = 0 := rfl
@[simp] theorem State.enterReset_brLen (s : State) : s.enterReset.brLen = 0 := rfl
@[simp] theorem State.enterReset_brPos (s : State) : s.enterReset.brPos = 0 := rfl
@[simp] theorem State.enterReset_ywBase (s : State) : s.enterReset.ywBase = 0 := rfl
@[simp] theorem State.enterReset_ywCap (s : State) : s.enterReset.ywCap = 0 := rfl
@[simp] theorem State.enterReset_ywLen (s : State) : s.enterReset.ywLen = 0 := rfl
@[simp] theorem State.enterReset_yrBase (s : State) : s.enterReset.yrBase = 0 := rfl
@[simp] theorem State.enterReset_yrLen (s : State) : s.enterReset.yrLen = 0 := rfl
@[simp] theorem State.enterReset_yrPos (s : State) : s.enterReset.yrPos = 0 := rfl
@[simp] theorem State.enterReset_seQ (s : State) : s.enterReset.seQ = [] := rfl
@[simp] theorem State.enterReset_sdWord (s : State) : s.enterReset.sdWord = 0 := rfl
@[simp] theorem State.enterReset_sdCtrl (s : State) : s.enterReset.sdCtrl = { sel := 0, idx := 0, valid := false } := rfl
@[simp] theorem State.enterReset_dePrev (s : State) : s.enterReset.dePrev = 0 := rfl
@[simp] theorem State.enterReset_dePdelta (s : State) : s.enterReset.dePdelta = 0 := rfl
@[simp] theorem State.enterReset_dePhase (s : State) : s.enterReset.dePhase = .zero := rfl
@[simp] theorem State.enterReset_ddLast (s : State) : s.enterReset.ddLast = 0 := rfl
@[simp] theorem State.enterReset_ddDelta (s : State) : s.enterReset.ddDelta = 0 := rfl
@[simp] theorem State.enterReset_ddPhase (s : State) : s.enterReset.ddPhase = .zero := rfl
@[simp] theorem State.enterReset_geLast (s : State) : s.enterReset.geLast = 0 := rfl
@[simp] theorem State.enterReset_geCtrl (s : State) : s.enterReset.geCtrl = { started := false, wvalid := false, lzb := 0, tzb := 0 } := rfl
@[simp] theorem State.enterReset_gdLast (s : State) : s.enterReset.gdLast = 0 := rfl
@[simp] theorem State.enterReset_gdCtrl (s : State) : s.enterReset.gdCtrl = { started := false, wvalid := false, lzb := 0, tzb := 0 } := rfl
@[simp] theorem State.enterReset_inReset (s : State) : s.enterReset.inReset = true := rfl
@[simp] theorem State.enterReset_pending (s : State) : s.enterReset.pending = s.pending := rfl
@[simp] theorem State.enterReset_halted (s : State) : s.enterReset.halted = false := rfl

/-! ### `State.leaveReset` (R341) -/

@[simp] theorem State.leaveReset_mem (s : State) : s.leaveReset.mem = s.mem := rfl
@[simp] theorem State.leaveReset_memBytes (s : State) : s.leaveReset.memBytes = s.memBytes := rfl
@[simp] theorem State.leaveReset_din (s : State) : s.leaveReset.din = s.din := rfl
@[simp] theorem State.leaveReset_dout (s : State) : s.leaveReset.dout = s.dout := rfl
@[simp] theorem State.leaveReset_status (s : State) : s.leaveReset.status = s.status := rfl
@[simp] theorem State.leaveReset_tailPad (s : State) : s.leaveReset.tailPad = s.tailPad := rfl
@[simp] theorem State.leaveReset_bwBase (s : State) : s.leaveReset.bwBase = s.bwBase := rfl
@[simp] theorem State.leaveReset_bwCap (s : State) : s.leaveReset.bwCap = s.bwCap := rfl
@[simp] theorem State.leaveReset_bwBits (s : State) : s.leaveReset.bwBits = s.bwBits := rfl
@[simp] theorem State.leaveReset_brBase (s : State) : s.leaveReset.brBase = s.brBase := rfl
@[simp] theorem State.leaveReset_brLen (s : State) : s.leaveReset.brLen = s.brLen := rfl
@[simp] theorem State.leaveReset_brPos (s : State) : s.leaveReset.brPos = s.brPos := rfl
@[simp] theorem State.leaveReset_ywBase (s : State) : s.leaveReset.ywBase = s.ywBase := rfl
@[simp] theorem State.leaveReset_ywCap (s : State) : s.leaveReset.ywCap = s.ywCap := rfl
@[simp] theorem State.leaveReset_ywLen (s : State) : s.leaveReset.ywLen = s.ywLen := rfl
@[simp] theorem State.leaveReset_yrBase (s : State) : s.leaveReset.yrBase = s.yrBase := rfl
@[simp] theorem State.leaveReset_yrLen (s : State) : s.leaveReset.yrLen = s.yrLen := rfl
@[simp] theorem State.leaveReset_yrPos (s : State) : s.leaveReset.yrPos = s.yrPos := rfl
@[simp] theorem State.leaveReset_seQ (s : State) : s.leaveReset.seQ = s.seQ := rfl
@[simp] theorem State.leaveReset_sdWord (s : State) : s.leaveReset.sdWord = s.sdWord := rfl
@[simp] theorem State.leaveReset_sdCtrl (s : State) : s.leaveReset.sdCtrl = s.sdCtrl := rfl
@[simp] theorem State.leaveReset_dePrev (s : State) : s.leaveReset.dePrev = s.dePrev := rfl
@[simp] theorem State.leaveReset_dePdelta (s : State) : s.leaveReset.dePdelta = s.dePdelta := rfl
@[simp] theorem State.leaveReset_dePhase (s : State) : s.leaveReset.dePhase = s.dePhase := rfl
@[simp] theorem State.leaveReset_ddLast (s : State) : s.leaveReset.ddLast = s.ddLast := rfl
@[simp] theorem State.leaveReset_ddDelta (s : State) : s.leaveReset.ddDelta = s.ddDelta := rfl
@[simp] theorem State.leaveReset_ddPhase (s : State) : s.leaveReset.ddPhase = s.ddPhase := rfl
@[simp] theorem State.leaveReset_geLast (s : State) : s.leaveReset.geLast = s.geLast := rfl
@[simp] theorem State.leaveReset_geCtrl (s : State) : s.leaveReset.geCtrl = s.geCtrl := rfl
@[simp] theorem State.leaveReset_gdLast (s : State) : s.leaveReset.gdLast = s.gdLast := rfl
@[simp] theorem State.leaveReset_gdCtrl (s : State) : s.leaveReset.gdCtrl = s.gdCtrl := rfl
@[simp] theorem State.leaveReset_inReset (s : State) : s.leaveReset.inReset = false := rfl
@[simp] theorem State.leaveReset_pending (s : State) : s.leaveReset.pending = s.pending := rfl

/-! ### `State.raise`: `STATUS` alone (R302) -/

@[simp] theorem State.raise_mem (s : State) (e : ErrCode) : (s.raise e).mem = s.mem := by
  unfold State.raise; split <;> rfl
@[simp] theorem State.raise_memBytes (s : State) (e : ErrCode) : (s.raise e).memBytes = s.memBytes := by
  unfold State.raise; split <;> rfl
@[simp] theorem State.raise_din (s : State) (e : ErrCode) : (s.raise e).din = s.din := by
  unfold State.raise; split <;> rfl
@[simp] theorem State.raise_dout (s : State) (e : ErrCode) : (s.raise e).dout = s.dout := by
  unfold State.raise; split <;> rfl
@[simp] theorem State.raise_tailPad (s : State) (e : ErrCode) : (s.raise e).tailPad = s.tailPad := by
  unfold State.raise; split <;> rfl
@[simp] theorem State.raise_bwBase (s : State) (e : ErrCode) : (s.raise e).bwBase = s.bwBase := by
  unfold State.raise; split <;> rfl
@[simp] theorem State.raise_bwCap (s : State) (e : ErrCode) : (s.raise e).bwCap = s.bwCap := by
  unfold State.raise; split <;> rfl
@[simp] theorem State.raise_bwBits (s : State) (e : ErrCode) : (s.raise e).bwBits = s.bwBits := by
  unfold State.raise; split <;> rfl
@[simp] theorem State.raise_brBase (s : State) (e : ErrCode) : (s.raise e).brBase = s.brBase := by
  unfold State.raise; split <;> rfl
@[simp] theorem State.raise_brLen (s : State) (e : ErrCode) : (s.raise e).brLen = s.brLen := by
  unfold State.raise; split <;> rfl
@[simp] theorem State.raise_brPos (s : State) (e : ErrCode) : (s.raise e).brPos = s.brPos := by
  unfold State.raise; split <;> rfl
@[simp] theorem State.raise_ywBase (s : State) (e : ErrCode) : (s.raise e).ywBase = s.ywBase := by
  unfold State.raise; split <;> rfl
@[simp] theorem State.raise_ywCap (s : State) (e : ErrCode) : (s.raise e).ywCap = s.ywCap := by
  unfold State.raise; split <;> rfl
@[simp] theorem State.raise_ywLen (s : State) (e : ErrCode) : (s.raise e).ywLen = s.ywLen := by
  unfold State.raise; split <;> rfl
@[simp] theorem State.raise_yrBase (s : State) (e : ErrCode) : (s.raise e).yrBase = s.yrBase := by
  unfold State.raise; split <;> rfl
@[simp] theorem State.raise_yrLen (s : State) (e : ErrCode) : (s.raise e).yrLen = s.yrLen := by
  unfold State.raise; split <;> rfl
@[simp] theorem State.raise_yrPos (s : State) (e : ErrCode) : (s.raise e).yrPos = s.yrPos := by
  unfold State.raise; split <;> rfl
@[simp] theorem State.raise_seQ (s : State) (e : ErrCode) : (s.raise e).seQ = s.seQ := by
  unfold State.raise; split <;> rfl
@[simp] theorem State.raise_sdWord (s : State) (e : ErrCode) : (s.raise e).sdWord = s.sdWord := by
  unfold State.raise; split <;> rfl
@[simp] theorem State.raise_sdCtrl (s : State) (e : ErrCode) : (s.raise e).sdCtrl = s.sdCtrl := by
  unfold State.raise; split <;> rfl
@[simp] theorem State.raise_dePrev (s : State) (e : ErrCode) : (s.raise e).dePrev = s.dePrev := by
  unfold State.raise; split <;> rfl
@[simp] theorem State.raise_dePdelta (s : State) (e : ErrCode) : (s.raise e).dePdelta = s.dePdelta := by
  unfold State.raise; split <;> rfl
@[simp] theorem State.raise_dePhase (s : State) (e : ErrCode) : (s.raise e).dePhase = s.dePhase := by
  unfold State.raise; split <;> rfl
@[simp] theorem State.raise_ddLast (s : State) (e : ErrCode) : (s.raise e).ddLast = s.ddLast := by
  unfold State.raise; split <;> rfl
@[simp] theorem State.raise_ddDelta (s : State) (e : ErrCode) : (s.raise e).ddDelta = s.ddDelta := by
  unfold State.raise; split <;> rfl
@[simp] theorem State.raise_ddPhase (s : State) (e : ErrCode) : (s.raise e).ddPhase = s.ddPhase := by
  unfold State.raise; split <;> rfl
@[simp] theorem State.raise_geLast (s : State) (e : ErrCode) : (s.raise e).geLast = s.geLast := by
  unfold State.raise; split <;> rfl
@[simp] theorem State.raise_geCtrl (s : State) (e : ErrCode) : (s.raise e).geCtrl = s.geCtrl := by
  unfold State.raise; split <;> rfl
@[simp] theorem State.raise_gdLast (s : State) (e : ErrCode) : (s.raise e).gdLast = s.gdLast := by
  unfold State.raise; split <;> rfl
@[simp] theorem State.raise_gdCtrl (s : State) (e : ErrCode) : (s.raise e).gdCtrl = s.gdCtrl := by
  unfold State.raise; split <;> rfl
@[simp] theorem State.raise_inReset (s : State) (e : ErrCode) : (s.raise e).inReset = s.inReset := by
  unfold State.raise; split <;> rfl
@[simp] theorem State.raise_pending (s : State) (e : ErrCode) : (s.raise e).pending = s.pending := by
  unfold State.raise; split <;> rfl

end Sys2Proof.Machine
end

