-- ==== Sys2Proof/Laws/Streams.lean ====
section
/-! SUPPORT. When each operation completes or raises, and what it leaves, in the terms of Sys2Proof/Safety.lean. -/

namespace Sys2Proof.Laws

open Sys2Proof Sys2Proof.Machine

/-! ### Widths -/

theorem legalBitCount_iff (w : BitVec 8) : legalBitCount w = true ↔ w.toNat ≤ 64 := by
  simp [legalBitCount]

theorem legalByteCount_iff (w : BitVec 8) :
    legalByteCount w = true ↔ w.toNat = 1 ∨ w.toNat = 2 ∨ w.toNat = 4 ∨ w.toNat = 8 := by
  simp only [legalByteCount, Bool.or_eq_true, beq_iff_eq]
  omega

theorem toDout_error_iff (r : Except ErrCode (Word × State)) (e : ErrCode) : toDout r = .error e ↔ r = .error e := by
  cases r with
  | error e' => simp [toDout]
  | ok p => simp [toDout]

/-! ### Bits -/

/-- A `BitAppend` with room completes (R70). -/
theorem bitAppend_of_room (v : BitVec 77) (n : Nat) (s : State) (hn : n ≠ 0) (h : BitRoom s n) :
    bitAppend v n s = .ok { s with
      mem := appendedMem s.bwBits.toNat n v s.bwBase.toNat (touchedWords s.bwBits.toNat n) s.mem
      bwBits := BitVec.ofNat 64 (s.bwBits.toNat + n) } := by
  have h1 := h.1
  have h2 := h.2
  rw [bitAppend_eq, if_neg hn, if_neg (by omega), if_neg (by omega)]

/-- The memory a `BitAppend` leaves (R70 to R72). -/
theorem bitsAppended_appendedMem (v : BitVec 77) (n : Nat) (s : State) (f : Nat → Bool) (hm : Memory.wf s.mem = true)
    (hf : ∀ j < n, v.getLsbD j = f j) :
    BitsAppended s (appendedMem s.bwBits.toNat n v s.bwBase.toNat (touchedWords s.bwBits.toNat n) s.mem) n f := by
  refine ⟨fun j hj => ?_, fun p hp => streamBit_append_below s v n p hm hp, fun p h1 h2 => ?_,
    fun a ha => read_append_outside s v n a hm ha⟩
  · rw [streamBit_append s v n _ hm (by omega) (by unfold wordsFor; omega), if_pos (by omega), ← hf j hj]
    congr 1
    omega
  · by_cases hp : 64 * (s.bwBits.toNat / 64) ≤ p
    · rw [streamBit_append s v n _ hm hp h2, if_neg (by omega)]
    · omega

/-- When a `BitAppend` raises (R70, R304). -/
theorem bitAppend_raises (v : BitVec 77) (n : Nat) (s : State) (hn : n ≠ 0) :
    (s.bwCap.toNat < wordsFor (s.bwBits.toNat + n) → bitAppend v n s = .error .cap) ∧
    (wordsFor (s.bwBits.toNat + n) ≤ s.bwCap.toNat →
      s.memBytes < s.bwBase.toNat + 8 * wordsFor (s.bwBits.toNat + n) → bitAppend v n s = .error .bus) := by
  rw [bitAppend_eq, if_neg hn]
  exact ⟨fun h => by rw [if_pos h], fun h h1 => by rw [if_neg (by omega), if_pos h1]⟩

/-- When a `BitFetch` raises (R74, R304). -/
theorem bitFetch_raises (n : Nat) (s : State) :
    (s.readableBits < s.brPos.toNat + n → bitFetch n s = .error .oob) ∧
    (s.brPos.toNat + n ≤ s.readableBits → 0 < n → s.memBytes < s.brBase.toNat + (s.brPos.toNat + n + 7) / 8 →
      bitFetch n s = .error .bus) := by
  unfold bitFetch
  simp only
  exact ⟨fun h => by rw [if_pos h], fun h h1 h2 => by rw [if_neg (by omega), if_pos ⟨h1, h2⟩]⟩

/-- Fewer bits are readable where more are (R74). -/
theorem bitsReadable_mono {s : State} {n m : Nat} (h : BitsReadable s n) (hm : m ≤ n) : BitsReadable s m := by
  refine ⟨by have := h.1; omega, fun h0 => ?_⟩
  have := h.2 (by omega)
  omega

/-- A field of `m` bits at offset `k` of the cursor's view, fetched once the `k` bits before it are read (R74). -/
theorem bitFetch_field {s : State} {k m : Nat} (h : BitsReadable s (k + m)) :
    bitFetch m { s with brPos := BitVec.ofNat 64 (s.brPos.toNat + k) } =
      .ok (viewField s k m, { s with brPos := BitVec.ofNat 64 (s.brPos.toNat + (k + m)) }) := by
  have hk := brPos_after s k (by have := h.1; omega)
  rw [bitFetch_of_readable, hk]
  · simp only [viewField, viewBit, Nat.add_assoc]
  · have := h.1
    simp only [hk, State.readableBits] at this ⊢
    omega
  · intro hm
    have := h.2 (by omega)
    simp only [hk]
    omega

/-- A field that runs past the view or past MEM, fetched once the `k` bits before it are read (R74, R304). -/
theorem bitFetch_field_stops {s : State} {k m : Nat} {e : ErrCode} (hk : BitsReadable s k) (hm : 0 < k + m)
    (h : FetchStops s (k + m) e) :
    bitFetch m { s with brPos := BitVec.ofNat 64 (s.brPos.toNat + k) } = .error e := by
  have hp := brPos_after s k hk.1
  obtain ⟨rfl, h1⟩ | ⟨rfl, h1, h2⟩ := h
  · apply (bitFetch_raises _ _).1
    simp only [hp, State.readableBits] at h1 ⊢
    omega
  · have hm' : 0 < m := by
      refine Nat.pos_of_ne_zero fun h0 => ?_
      subst h0
      have := hk.2 (by omega)
      omega
    apply (bitFetch_raises _ _).2 _ hm'
    · simp only [hp]
      omega
    · simp only [hp, State.readableBits] at h1 ⊢
      omega

/-- A bit fetched at offset `k` is the view's bit there. -/
theorem viewField_one (s : State) (k : Nat) : viewField s k 1 = if viewBit s k then 1 else 0 := by
  cases h : viewBit s k <;> simp [viewField, wordOfBits, h]

/-! ### Bytes -/

/-- The memory a `ByteAppend` leaves (R77). -/
theorem bytesAppended_writeBytes (s : State) (b : List Byte) (hm : Memory.wf s.mem = true) :
    BytesAppended s (Memory.writeBytes s.mem (s.ywBase.toNat + s.ywLen.toNat) b) b :=
  ⟨fun _ hj => read_writeBytes_inside _ _ _ _ hm hj, fun _ ha => read_writeBytes_outside _ _ _ _ hm ha⟩

/-- When a `ByteAppend` raises (R77, R304). -/
theorem byteAppend_raises (b : List Byte) (s : State) (hb : b.length ≠ 0) :
    (s.ywCap.toNat < s.ywLen.toNat + b.length → byteAppend b s = .error .cap) ∧
    (s.ywLen.toNat + b.length ≤ s.ywCap.toNat → s.memBytes < s.ywBase.toNat + s.ywLen.toNat + b.length →
      byteAppend b s = .error .bus) := by
  unfold byteAppend
  simp only
  rw [if_neg hb]
  exact ⟨fun h => by rw [if_pos h], fun h h1 => by rw [if_neg (by omega), if_pos h1]⟩

/-- When a `ByteFetch` raises (R78, R304). -/
theorem byteFetch_raises (n : Nat) (s : State) :
    (s.yrLen.toNat < s.yrPos.toNat + n → byteFetch n s = .error .oob) ∧
    (s.yrPos.toNat + n ≤ s.yrLen.toNat → s.memBytes < s.yrBase.toNat + s.yrPos.toNat + n →
      byteFetch n s = .error .bus) := by
  unfold byteFetch State.memRead
  simp only
  exact ⟨fun h => by rw [if_pos h], fun h h1 => by rw [if_neg (by omega), if_pos h1]⟩

/-! ### Simple8B -/

/-- `SEPush` by cases of the FIFO's length (R211). -/
theorem sePushValue_eq (v : Word) (s : State) :
    sePushValue v s =
      if v.toNat > 2 ^ 60 - 1 then .error .range
      else if s.seQ.length = 59 then
        byteAppend (bytesLE (select s.tailPad (s.seQ ++ [v.setWidth 60])).word 8)
          { s with seQ := (s.seQ ++ [v.setWidth 60]).drop (select s.tailPad (s.seQ ++ [v.setWidth 60])).used }
      else .ok { s with seQ := s.seQ ++ [v.setWidth 60] } := by
  have h : ((s.seQ ++ [v.setWidth 60]).length = Config.fifoDepth) ↔ s.seQ.length = 59 := by
    rw [List.length_append, Config.fifoDepth, List.length_singleton]
    omega
  unfold sePushValue
  simp only [h]

theorem sdExhausted_iff (c : SdCtrl) : sdExhausted c = true ↔ c.valid = false ∨ c.idx.toNat = selCount c.sel := by
  simp [sdExhausted]

/-- `SDNext` with a field left in a held word (R221). -/
theorem sdNextValue_held (s : State) (h : s.sdCtrl.valid = true) (h1 : s.sdCtrl.idx.toNat < selCount s.sdCtrl.sel) :
    sdNextValue s = .ok (sdExtract s, { s with sdCtrl := { s.sdCtrl with idx := s.sdCtrl.idx + 1 } }) := by
  have : sdExhausted s.sdCtrl = false := by
    simp only [sdExhausted, h, Bool.not_true, Bool.false_or, decide_eq_false_iff_not]
    omega
  simp [sdNextValue, sdFetch, this]

/-- `SDNext` that fetches a word (R221). -/
theorem sdNextValue_fetch (s : State) (h : s.sdCtrl.valid = false ∨ s.sdCtrl.idx.toNat = selCount s.sdCtrl.sel)
    (hr : BytesReadable s 8) :
    let w := Memory.readLE s.mem (s.yrBase.toNat + s.yrPos.toNat) 8
    sdNextValue s = .ok (w &&& mask (selWidth (w.extractLsb' 60 4)), { s with
      yrPos := BitVec.ofNat 64 (s.yrPos.toNat + 8)
      sdWord := w
      sdCtrl := { sel := w.extractLsb' 60 4, idx := 1, valid := true } }) := by
  have := (sdExhausted_iff _).mpr h
  simp [sdNextValue, sdFetch, this, byteFetch_of_inside _ _ hr.1 hr.2, sdExtract]

/-- `SDNext` that cannot fetch the word it needs (R221). -/
theorem sdNextValue_raises (s : State) (h : s.sdCtrl.valid = false ∨ s.sdCtrl.idx.toNat = selCount s.sdCtrl.sel) :
    (s.yrLen.toNat < s.yrPos.toNat + 8 → sdNextValue s = .error .oob) ∧
    (s.yrPos.toNat + 8 ≤ s.yrLen.toNat → s.memBytes < s.yrBase.toNat + s.yrPos.toNat + 8 →
      sdNextValue s = .error .bus) := by
  have := (sdExhausted_iff _).mpr h
  exact ⟨fun h1 => by simp [sdNextValue, sdFetch, this, (byteFetch_raises 8 s).1 h1],
    fun h1 h2 => by simp [sdNextValue, sdFetch, this, (byteFetch_raises 8 s).2 h1 h2]⟩

end Sys2Proof.Laws
end

