-- ==== Sys2Proof/Tests/Slice0.lean ====
section
/-! SUPPORT. The model's own tests. Expected results are the vectors of spec/95_test_vectors.md, named in each comment, or
are written out from the rule named; the last part shows, for each statement with hypotheses, a state that meets them. -/

namespace Sys2Proof.Tests

open Sys2Proof Sys2Proof.Machine

/-! ### WellFormed (R92) -/

theorem test_wf_bwPut_65 : ¬ WellFormed (.bwPut 65) := by decide
theorem test_wf_brGet_255 : ¬ WellFormed (.brGet 255) := by decide
theorem test_wf_ywPut_3 : ¬ WellFormed (.ywPut 3) := by decide
theorem test_wf_yrGet_0 : ¬ WellFormed (.yrGet 0) := by decide
theorem test_wf_limits : WellFormed (.bwPut 64) ∧ WellFormed (.brGet 0) ∧ WellFormed (.ywPut 8) ∧ WellFormed (.yrGet 1) := by
  decide

/-! ### Decode: every row of R95, its word written out from R91's pattern -/

theorem test_decode_nop : decode 0b00000000_00000000_00000000_00000001#32 = .ok .nop := by decide
theorem test_decode_csrr : decode 0b00000000_10110001_00000000_00000010#32 = .ok (.csrr 0xB1) := by decide
theorem test_decode_csrw : decode 0b00000000_01000010_00000000_00000011#32 = .ok (.csrw 0x42) := by decide
theorem test_decode_clrerr : decode 0b00000000_00000000_00000000_00000100#32 = .ok .clrerr := by decide
theorem test_decode_sreset : decode 0b00000000_00000000_00000000_00000101#32 = .ok .sreset := by decide
theorem test_decode_bwClr : decode 0b00000000_00000000_00000000_00010000#32 = .ok .bwClr := by decide
theorem test_decode_bwPut : decode 0b00000000_00000000_00111011_00010001#32 = .ok (.bwPut 59) := by decide
theorem test_decode_bwBlen : decode 0b00000000_00000000_00000000_00010010#32 = .ok .bwBlen := by decide
theorem test_decode_brGet : decode 0b00000000_00000000_01000000_00100000#32 = .ok (.brGet 64) := by decide
theorem test_decode_brBit : decode 0b00000000_00000000_00000000_00100001#32 = .ok .brBit := by decide
theorem test_decode_brEnd : decode 0b00000000_00000000_00000000_00100010#32 = .ok .brEnd := by decide
theorem test_decode_ywClr : decode 0b00000000_00000000_00000000_00110000#32 = .ok .ywClr := by decide
theorem test_decode_ywPut : decode 0b00000000_00000000_00000010_00110001#32 = .ok (.ywPut 2) := by decide
theorem test_decode_ywCpy : decode 0b00000000_00000000_00000000_00110010#32 = .ok .ywCpy := by decide
theorem test_decode_yrGet : decode 0b00000000_00000000_00001000_01000000#32 = .ok (.yrGet 8) := by decide
theorem test_decode_yrSub : decode 0b00000000_00000000_00000000_01000001#32 = .ok .yrSub := by decide
theorem test_decode_zzEnc : decode 0b00000000_00000000_00000000_01010000#32 = .ok .zzEnc := by decide
theorem test_decode_zzDec : decode 0b00000000_00000000_00000000_01010001#32 = .ok .zzDec := by decide
theorem test_decode_seClr : decode 0b00000000_00000000_00000000_01100000#32 = .ok .seClr := by decide
theorem test_decode_sePush : decode 0b00000000_00000000_00000000_01100001#32 = .ok .sePush := by decide
theorem test_decode_seFlush : decode 0b00000000_00000000_00000000_01100010#32 = .ok .seFlush := by decide
theorem test_decode_sdClr : decode 0b00000000_00000000_00000000_01110000#32 = .ok .sdClr := by decide
theorem test_decode_sdNext : decode 0b00000000_00000000_00000000_01110001#32 = .ok .sdNext := by decide
theorem test_decode_deClr : decode 0b00000000_00000000_00000000_10000000#32 = .ok .deClr := by decide
theorem test_decode_dePush : decode 0b00000000_00000000_00000000_10000001#32 = .ok .dePush := by decide
theorem test_decode_ddClr : decode 0b00000000_00000000_00000000_10010000#32 = .ok .ddClr := by decide
theorem test_decode_ddNext : decode 0b00000000_00000000_00000000_10010001#32 = .ok .ddNext := by decide
theorem test_decode_geClr : decode 0b00000000_00000000_00000000_10100000#32 = .ok .geClr := by decide
theorem test_decode_gePut : decode 0b00000000_00000000_00000000_10100001#32 = .ok .gePut := by decide
theorem test_decode_gdClr : decode 0b00000000_00000000_00000000_10110000#32 = .ok .gdClr := by decide
theorem test_decode_gdNext : decode 0b00000000_00000000_00000000_10110001#32 = .ok .gdNext := by decide

/-- CT8 to CT14: the illegal words, by the first check that fails (R96). -/
theorem test_decode_illegal :
    decode 0x00000000#32 = .error .reservedOpcode ∧ decode 0x01000001#32 = .error .reservedBits ∧
    decode 0x00000101#32 = .error .unusedField ∧ decode 0x00004111#32 = .error .illegalWidth ∧
    decode 0x00000331#32 = .error .illegalWidth ∧ decode 0x00010010#32 = .error .unusedField ∧
    decode 0x00000106#32 = .error .reservedOpcode := by decide

/-- The order of R96's checks: reserved bits, opcode, unused fields, width. -/
theorem test_decode_order :
    decode 0x01000000#32 = .error .reservedBits ∧ decode 0x00010111#32 = .error .unusedField ∧
    decode 0x00014111#32 = .error .unusedField := by decide

theorem test_decodeTableWord : decodeTableWord 32 0x00003B11 = some (.bwPut 59) ∧ decodeTableWord 32 0 = none := by decide

/-! ### Helpers -/

/-- The next state of an outcome. -/
def after (o : Host.Outcome State Fault Refusal) : State :=
  match o with
  | .next t => t
  | .fault _ => State.reset
  | .refused _ => State.reset

/-- Does the outcome have a next state? -/
def isNext (o : Host.Outcome State Fault Refusal) : Bool :=
  match o with
  | .next _ => true
  | .fault _ => false
  | .refused _ => false

theorem eq_after {o : Host.Outcome State Fault Refusal} (h : isNext o = true) : o = .next (after o) := by
  cases o <;> simp_all [isNext, after]

/-- Reset, with bytes at an address and an operand in `DIN`. -/
def start (base : Nat) (bytes : List Byte) (din : Word) : State :=
  { State.powerOn 4096 (Memory.writeBytes [] base bytes) with din := din }

/-- The bit writer at 0x100 with two words, the byte writer at 0x200 with 16 bytes. -/
def writer (din : Word) : State :=
  { start 0 [] din with bwBase := 0x100, bwCap := 2, ywBase := 0x200, ywCap := 16 }

/-- The bytes of BW1's end, in the bit cursor's view and the byte cursor's. -/
def reader (bitPos bytePos : Word) : State :=
  { start 0x100 [0xFF, 0xBD, 0x79, 0x35, 0xF1, 0xAC, 0x68, 0x24, 0xE0, 0xFF, 0xFF, 0xFF, 0xFF, 0xFF, 0xFF, 0xFF] 0 with
    brBase := 0x100, brLen := 16, brPos := bitPos, yrBase := 0x100, yrLen := 16, yrPos := bytePos }

/-- A halted state. -/
def stopped : State := { writer 7 with status := { err := .oob, fault := true } }

/-! ### Memory -/

theorem test_memory_canonical :
    Memory.write (Memory.write (Memory.write [] 5 1) 3 2) 5 0 = [(3, 2)] ∧
    Memory.wf [(3, 2), (5, 1)] = true ∧ Memory.wf [(5, 1), (3, 2)] = false ∧ Memory.wf [(3, 0)] = false := by decide

theorem test_reset_memory : Memory.wf State.reset.mem = true := by decide

/-! ### Control (spec/95 section 2.1) -/

/-- CT1. -/
theorem test_csrr_memsz : (after (exec (.csrr 0x02) State.reset)).dout = 0x1000 := by decide
/-- CT7, and the halted sequence after CT5. -/
theorem test_csrr_unassigned :
    statusWord (after (exec (.csrr 0x03) State.reset)).status = 0x11 ∧ (after (exec (.csrr 0x00) stopped)).dout = 0x13 := by
  decide
/-- CT2, CT3. -/
theorem test_csrw : (after (exec (.csrw 0x21) (writer 0x0000000100000010))).brLen = 0x10 ∧
    (after (exec (.csrw 0x01) (writer 0xFF))).tailPad = true := by decide
/-- CT5. -/
theorem test_csrw_read_only : statusWord (after (exec (.csrw 0x12) (writer 5))).status = 0x11 := by decide
theorem test_nop_halted : (after (exec .nop stopped)).status = { err := .oob, fault := true } := by decide
theorem test_clrerr : statusWord (after (exec .clrerr stopped)).status = 0 := by decide
/-- CT15. -/
theorem test_sreset : (after (exec .sreset (reader 5 5))).brPos = 0 ∧
    Memory.read (after (exec .sreset (reader 5 5))).mem 0x101 = 0xBD := by decide

/-! ### Bit writer and bit cursor (section 2.2) -/

theorem test_bwClr : (after (exec .bwClr { writer 0 with bwBits := 69 })).bwBits = 0 := by decide
/-- BW1, second command. -/
theorem test_bwPut : (after (exec (.bwPut 5) (writer 0xFF))).bwBits = 5 ∧
    Memory.read (after (exec (.bwPut 5) (writer 0xFF))).mem 0x100 = 0x1F := by decide
set_option maxRecDepth 8000 in
/-- BW1, third command: the value straddles words 0 and 1; the stale byte of word 1 is cleared (R72). -/
theorem test_bwPut_straddles :
    let s := { writer 0x0123456789ABCDEF with bwBits := 5, mem := [(0x100, 0x1F), (0x10F, 9)] }
    let t := after (exec (.bwPut 64) s)
    t.bwBits = 69 ∧ Memory.readLE t.mem 0x100 8 = 0x2468ACF13579BDFF ∧ Memory.readLE t.mem 0x108 8 = 0 := by decide
/-- BW1. -/
theorem test_bwBlen : (after (exec .bwBlen { writer 0 with bwBits := 69 })).dout = 16 := by decide
/-- BR1. -/
theorem test_brGet : (after (exec (.brGet 64) (reader 5 0))).dout = 0x0123456789ABCDEF ∧
    (after (exec (.brGet 64) (reader 5 0))).brPos = 69 := by decide
/-- BR4. -/
theorem test_brGet_beyond : (after (exec (.brGet 0) (reader 200 0))).status.err = .oob := by decide
/-- BR1: ERR_OOB at the end of the view; before it, bit 69 of BW1's stream is bit 5 of word 1. -/
theorem test_brBit : (after (exec .brBit (reader 69 0))).dout = 1 ∧ (after (exec .brBit (reader 128 0))).status.err = .oob := by
  decide
/-- BR1. -/
theorem test_brEnd : (after (exec .brEnd (reader 128 0))).dout = 1 ∧ (after (exec .brEnd (reader 69 0))).dout = 0 := by decide

/-! ### Byte writer and byte cursor (section 2.3) -/

theorem test_ywClr : (after (exec .ywClr { writer 0 with ywLen := 3 })).ywLen = 0 := by decide
/-- YW1, second command. -/
theorem test_ywPut :
    let t := after (exec (.ywPut 2) { writer 0xABCD with ywLen := 1 })
    t.ywLen = 3 ∧ Memory.readBytes t.mem 0x200 4 = [0, 0xCD, 0xAB, 0] := by decide
/-- YW4: an overlapping copy. -/
theorem test_ywCpy_overlap :
    let s := { writer 0x0000000400000200 with mem := [(0x200, 1), (0x201, 2), (0x202, 3), (0x203, 4)], ywLen := 2 }
    Memory.readBytes (after (exec .ywCpy s)).mem 0x200 6 = [1, 2, 1, 2, 3, 4] := by decide
/-- YW2: the capacity is checked first. -/
theorem test_ywCpy_cap : (after (exec .ywCpy { writer 0x0000000E00000300 with ywLen := 3 })).status.err = .cap := by decide
/-- Bytes 8 and 9 of BW1's end, little-endian (R62). -/
theorem test_yrGet : (after (exec (.yrGet 2) (reader 0 8))).dout = 0xFFE0 ∧ (after (exec (.yrGet 2) (reader 0 8))).yrPos = 10 := by
  decide
/-- YR3: `DIN[63:32]` is ignored. -/
theorem test_yrSub :
    let t := after (exec .yrSub { writer 0xFFFFFFFF00000008 with yrBase := 0x400, yrLen := 13, yrPos := 5 })
    t.dout = 0x405 ∧ t.yrPos = 13 := by decide

/-! ### Zig-zag (section 2.4, X2) -/

theorem test_zzEnc : (after (exec .zzEnc (writer 0xF800000000000000))).dout = 0x0FFFFFFFFFFFFFFF ∧
    (after (exec .zzEnc (writer 0x8000000000000000))).dout = 0xFFFFFFFFFFFFFFFF := by decide
theorem test_zzDec : (after (exec .zzDec (writer 3))).dout = 0xFFFFFFFFFFFFFFFE ∧
    (after (exec .zzDec (writer 0xFFFFFFFFFFFFFFFF))).dout = 0x8000000000000000 := by decide

/-! ### Simple8B (sections 2.5, 2.6) -/

/-- SS2: STRICT and PAD. -/
theorem test_select : (select false [1, 2]).word = 0xE000000080000001 ∧ (select true [1, 2]).word = 0x3000000000000009 := by
  decide
/-- SE4. -/
theorem test_seClr : seCntWord (after (exec .seClr { writer 0 with seQ := [1, 2, 3, 4, 5] })).seQ = 0 := by decide
/-- SE1. -/
theorem test_sePush : (after (exec .sePush (writer 0x0FFFFFFFFFFFFFFF))).seQ = [0x0FFFFFFFFFFFFFFF] ∧
    (after (exec .sePush (writer 0x1000000000000000))).status.err = .range := by decide
/-- SE3: the 60th value emits a word. -/
theorem test_sePush_emits :
    let t := after (exec .sePush { writer 1 with seQ := List.replicate 59 1 })
    t.seQ = [] ∧ t.ywLen = 8 ∧ Memory.readLE t.mem 0x200 8 = 0x2FFFFFFFFFFFFFFF := by decide
/-- SE2: two words that fill the capacity, and one byte less. -/
theorem test_seFlush :
    let t := after (exec .seFlush { writer 0 with seQ := [0x0FFFFFFFFFFFFFFF, 7] })
    t.ywLen = 16 ∧ t.seQ = [] ∧ Memory.readLE t.mem 0x200 8 = 0xFFFFFFFFFFFFFFFF ∧
    Memory.readLE t.mem 0x208 8 = 0xF000000000000007 := by decide
theorem test_seFlush_cap :
    (after (exec .seFlush { writer 0 with seQ := [0x0FFFFFFFFFFFFFFF, 7], ywCap := 15 })).status.err = .cap := by decide
theorem test_sdClr : (after (exec .sdClr { writer 0 with sdWord := 5, sdCtrl := ⟨2, 1, true⟩ })).sdCtrl = ⟨0, 0, false⟩ := by
  decide
/-- SD1, numbers 241 and 430: the last field of selector 0, then the fetch of a selector 1 word. -/
theorem test_sdNext :
    let t := after (exec .sdNext { start 0x207 [0x10] 0 with
      yrBase := 0x200, yrLen := 8, sdCtrl := ⟨0, 240, true⟩ })
    t.dout = 0 ∧ t.yrPos = 8 ∧ sdCtrlWord t.sdCtrl = 0x00010101 := by decide
/-- SD1, number 438: field 9 of a selector 7 word. -/
theorem test_sdNext_field :
    let t := after (exec .sdNext { writer 0 with sdWord := 0x7800000000000005, sdCtrl := ⟨7, 9, true⟩ })
    t.dout = 0x20 ∧ sdCtrlWord t.sdCtrl = 0x00010A07 := by decide

/-! ### Delta-of-delta (section 2.7) -/

theorem test_deClr : (after (exec .deClr { writer 0 with dePrev := 5, dePdelta := 6, dePhase := .two })).dePhase = .zero := by
  decide
/-- DD1: 80 after 90 after 100, then 85. -/
theorem test_dePush :
    let t := after (exec .dePush { writer 85 with dePrev := 80, dePdelta := -10, dePhase := .two })
    t.dout = 30 ∧ t.dePrev = 85 ∧ t.dePdelta = 5 ∧ t.seQ = [30] := by decide
/-- DD4: the range check is on the element. -/
theorem test_dePush_range :
    (after (exec .dePush { writer 0 with dePrev := 0x0FFFFFFFFFFFFFFF, dePhase := .one })).status.err = .range := by decide
theorem test_ddClr : (after (exec .ddClr { writer 0 with ddLast := 5, ddDelta := 6, ddPhase := .two })).ddPhase = .zero := by
  decide
/-- DD1: the word 0xC003C00000098064, its fourth field, after 100, 90, 80. -/
theorem test_ddNext :
    let t := after (exec .ddNext { writer 0 with
      sdWord := 0xC003C00000098064, sdCtrl := ⟨12, 3, true⟩, ddLast := 80, ddDelta := -10, ddPhase := .two })
    t.dout = 85 ∧ t.ddDelta = 5 := by decide

/-! ### Gorilla (section 2.8) -/

theorem test_geClr : gorillaCtrlWord (after (exec .geClr { writer 0 with geCtrl := ⟨true, true, 31, 4⟩ })).geCtrl = 0 := by
  decide
set_option maxRecDepth 8000 in
/-- GV3, second record: a new window with a clamped leading-zero count. -/
theorem test_gePut_new :
    let t := after (exec .gePut { writer 0xF0 with bwBits := 64, geCtrl := ⟨true, false, 0, 0⟩ })
    t.bwBits = 106 ∧ gorillaCtrlWord t.geCtrl = 0x41F03 ∧ Memory.readLE t.mem 0x108 8 = 0x1EEFF := by decide
set_option maxRecDepth 8000 in
/-- GV6, third record: a reused window of one data bit. -/
theorem test_gePut_reuse :
    let t := after (exec .gePut { writer 0 with
      bwBits := 78, geLast := 0x8000000000000000, geCtrl := ⟨true, true, 0, 63⟩, mem := [(0x108, 0x83), (0x109, 0x20)] })
    t.bwBits = 81 ∧ Memory.readLE t.mem 0x108 8 = 0x16083 := by decide
theorem test_gdClr : gorillaCtrlWord (after (exec .gdClr { writer 0 with gdCtrl := ⟨true, true, 31, 4⟩ })).gdCtrl = 0 := by
  decide
/-- GV3, second record, decoded. -/
theorem test_gdNext :
    let t := after (exec .gdNext { start 0x108 [0xFF, 0xEE, 0x01] 0 with
      brBase := 0x100, brLen := 16, brPos := 64, gdCtrl := ⟨true, false, 0, 0⟩ })
    t.dout = 0xF0 ∧ t.brPos = 106 ∧ gorillaCtrlWord t.gdCtrl = 0x41F03 := by decide
/-- GV10: a reuse record without a window. -/
theorem test_gdNext_corrupt :
    (after (exec .gdNext { start 0x108 [0x01] 0 with
      brBase := 0x100, brLen := 16, brPos := 64, gdCtrl := ⟨true, false, 0, 0⟩ })).status.err = .corrupt := by decide

/-! ### The step, the reset input, the assembler -/

theorem test_step_runs_first_word :
    (after (step (State.reset.withFetchWord 32 0x00020002))).dout = 0x1000 := by decide
theorem test_step_in_reset :
    (after (step { State.reset with inReset := true, pending := [.command 0 5] })).status = State.reset.status := by decide
/-- R99, R100. -/
theorem test_assembler :
    lineWords "BW.PUT 5, 0xFF".toList = some [(0x00000511, 0xFF)] ∧
    lineWords "CSRR MEMSZ".toList = some [(0x00020002, 0)] ∧ lineWords "BR.GET 256".toList = none ∧
    lineWords "VIEW.BR 0x100, 16 ; a view".toList = some [(0x00200003, 0x100), (0x00210003, 16), (0x00220003, 0)] := by decide

/-! ### Witnesses: for each statement with hypotheses, states and operands that meet them, clause by clause

A statement that is not named here has no hypothesis but that a value is of its type. -/

/-- Registers of every family set, one command pending. -/
def busy : State :=
  { reader 3 4 with
    bwBase := 0x300, bwCap := 2, bwBits := 70, ywBase := 0x340, ywCap := 16, ywLen := 3, seQ := [9, 10],
    sdWord := 0x7800000000000005, sdCtrl := ⟨7, 9, true⟩, dePrev := 80, dePdelta := 3, dePhase := .two,
    ddLast := 5, ddDelta := 1, ddPhase := .two, geLast := 3, geCtrl := ⟨true, true, 31, 4⟩,
    gdLast := 6, gdCtrl := ⟨true, true, 0, 63⟩, pending := [.command 0x00000010 5] }

theorem test_witness_DecodeOfEncode : WellFormed (.bwPut 64) ∧ WellFormed (.yrGet 8) ∧ WellFormed (.csrr 0xFF) := by decide

theorem test_witness_DecodedWordIsTheEncoding : decode 0x00FF0003#32 = .ok (.csrw 0xFF) := by decide

/-- A legal word at each limit, and for the illegal ones a running block that is presented one. -/
theorem test_witness_IllegalWordsAreExactlyThoseOfR97 :
    decode 0x00004011#32 = .ok (.bwPut 64) ∧ decode 0x000000B1#32 = .ok .gdNext ∧
    (writer 0).inReset = false ∧ (writer 0).halted = false ∧
    ({ writer 0 with pending := [.command 0x00004111 5] } : State).pending = [.command 0x00004111 5] ∧
    (step { writer 0 with pending := [.command 0x00004111 5] } = .next (after (step
      { writer 0 with pending := [.command 0x00004111 5] }))) := by
  refine ⟨by decide, by decide, rfl, rfl, rfl, eq_after (by decide)⟩

theorem test_witness_StepRunsThePresentedCommand :
    busy.inReset = false ∧ busy.pending = [.command 0x00000010 5] ∧ decode 0x00000010#32 = .ok .bwClr := by decide

/-- Reads and writes of the last byte, an access just beyond it, and an empty list of actions. -/
theorem test_witness_HostMemoryAccessChangesOneByte :
    State.reset.pending = [] ∧ Memory.wf busy.mem = true ∧ (4095#32).toNat < busy.memBytes ∧ busy.memBytes ≤ (4096#32).toNat := by
  decide

theorem test_witness_ResetInputHoldsTheBlock :
    ({ busy with inReset := true, pending := [.assertReset, .releaseReset] } : State).inReset = true := rfl

theorem test_witness_ResetValuesOfR340 :
    ({ stopped with pending := [.assertReset] } : State).pending = [.assertReset] := rfl

theorem test_witness_NopAndClrerrEffects : (0x01000001#32).toNat % 256 = 0x01 ∧ 0x01000001#32 ≠ 0x00000001#32 := by decide

theorem test_witness_StepKeepsInvariant : busy.Inv ∧ step busy = .next (after (step busy)) := by
  refine ⟨?_, eq_after (by decide)⟩
  constructor <;> decide

theorem test_witness_InvariantHoldsAtReset :
    64 ≤ 2 ^ 32 ∧ Memory.wf [(63, 1)] = true ∧ Memory.below 64 [(63, 1)] = true := by decide

theorem test_witness_CommandsCompleteOrOnlyRaise :
    State.reset.halted = false ∧ (after (exec .brBit State.reset)).halted = true := by decide

theorem test_witness_HaltedBlockIgnoresCommands :
    stopped.halted = true ∧ csrOfNumber 0x03 = none ∧ stopped.inReset = false ∧
    decode 0x00000106#32 = .error .reservedOpcode := by decide

/-- Each code of R300 is raised by a well-formed command of a running block. -/
theorem test_witness_ErrorsByCommand :
    (after (exec (.csrw 0x12) (writer 0))).status = { err := .illegal, fault := true } ∧
    (after (exec .sePush (writer (-1)))).status = { err := .range, fault := true } ∧
    (after (exec .brBit (writer 0))).status = { err := .oob, fault := true } ∧
    (after (exec (.bwPut 1) State.reset)).status = { err := .cap, fault := true } ∧
    (after (exec (.yrGet 1) { writer 0 with yrBase := 4096, yrLen := 1 })).status = { err := .bus, fault := true } ∧
    (after (exec .gdNext { start 0 [1] 0 with brLen := 8, gdCtrl := ⟨true, false, 0, 0⟩ })).status =
      { err := .corrupt, fault := true } := by decide

/-- One command of each family that changes its engine state. -/
theorem test_witness_EngineStateWrittenOnlyByItsFamily :
    (after (exec .bwClr busy)).bwBits ≠ busy.bwBits ∧ (after (exec (.csrw 0x22) busy)).brPos ≠ busy.brPos ∧
    (after (exec .ywClr busy)).ywLen ≠ busy.ywLen ∧ (after (exec (.csrw 0x42) busy)).yrPos ≠ busy.yrPos ∧
    (after (exec .seClr busy)).seQ ≠ busy.seQ ∧ (after (exec .sdClr busy)).sdWord ≠ busy.sdWord ∧
    (after (exec .deClr busy)).dePrev ≠ busy.dePrev ∧ (after (exec .ddClr busy)).ddLast ≠ busy.ddLast ∧
    (after (exec .geClr busy)).geLast ≠ busy.geLast ∧ (after (exec .gdClr busy)).gdLast ≠ busy.gdLast := by decide

/-- Each register of the host changes by its own command. -/
theorem test_witness_HostRegistersWrittenOnlyByCsrw :
    let s := { busy with din := 0xFFFFFFFF }
    (after (exec (.csrw 0x01) s)).tailPad ≠ s.tailPad ∧ (after (exec (.csrw 0x10) s)).bwBase ≠ s.bwBase ∧
    (after (exec (.csrw 0x11) s)).bwCap ≠ s.bwCap ∧ (after (exec (.csrw 0x20) s)).brBase ≠ s.brBase ∧
    (after (exec (.csrw 0x21) s)).brLen ≠ s.brLen ∧ (after (exec (.csrw 0x30) s)).ywBase ≠ s.ywBase ∧
    (after (exec (.csrw 0x31) s)).ywCap ≠ s.ywCap ∧ (after (exec (.csrw 0x40) s)).yrBase ≠ s.yrBase ∧
    (after (exec (.csrw 0x41) s)).yrLen ≠ s.yrLen ∧ (after (exec (.csrr 0x02) s)).dout ≠ s.dout ∧
    (after (exec (.csrr 0x03) s)).status ≠ s.status := by decide

/-- The last byte of the byte writer's region and a byte of the bit writer's change. -/
theorem test_witness_WritersStayInTheirRegions :
    let s := { writer 0xFF with ywLen := 15 }
    Memory.wf s.mem = true ∧ Memory.read (after (exec (.ywPut 1) s)).mem 0x20F ≠ Memory.read s.mem 0x20F ∧
    Memory.read (after (exec (.bwPut 8) s)).mem 0x100 ≠ Memory.read s.mem 0x100 := by decide

theorem test_witness_CsrReadReturnsTheRegister :
    (writer 0).halted = false ∧ stopped.halted = true ∧ csrOfNumber 0x03 = none := by decide

theorem test_witness_CsrFieldLayout : (List.replicate 60 (0 : Packable)).length ≤ 60 := by decide

theorem test_witness_CsrWriteEffects :
    (writer 0).halted = false ∧ stopped.halted = true ∧
    (0x00#8) ∉ ([0x01, 0x10, 0x11, 0x20, 0x21, 0x22, 0x30, 0x31, 0x40, 0x41, 0x42] : List (BitVec 8)) := by
  decide

theorem test_witness_ClearCommandsResetTheirFamily : busy.halted = false := rfl

/-- Width 64 that fills the capacity exactly, and width 0 at full capacity. -/
theorem test_witness_BitPutAppendsLowBits :
    let s := { writer 5 with bwBits := 64 }
    s.halted = false ∧ Memory.wf s.mem = true ∧ (64#8).toNat ≤ 64 ∧ BitRoom s (64#8).toNat ∧ (0#8).toNat = 0 := by
  refine ⟨rfl, rfl, by decide, ⟨by decide, by decide⟩, rfl⟩

/-- BW1's last command (ERR_CAP), BW3's (ERR_BUS), and width 65. -/
theorem test_witness_BitPutErrors :
    ({ writer 0 with bwBits := 128 } : State).bwCap.toNat < (128 + (1#8).toNat + 63) / 64 ∧
    (64 + (1#8).toNat + 63) / 64 ≤ 2 ∧ 64 < 0x38 + 8 * ((64 + (1#8).toNat + 63) / 64) ∧ 64 < (65#8).toNat := by decide

theorem test_witness_LengthAndEndQueries : (reader 128 0).halted = false := rfl

/-- The last bits of the view. -/
theorem test_witness_BitGetReadsTheView : BitsReadable (reader 64 0) (64#8).toNat ∧ BitsReadable (reader 127 0) 1 := by
  refine ⟨⟨by decide, by decide⟩, ⟨by decide, by decide⟩⟩

/-- One bit beyond the view, and one bit beyond MEM. -/
theorem test_witness_BitGetFailsExactlyPastTheEnd :
    (reader 128 0).halted = false ∧ 64 * ((reader 128 0).brLen.toNat / 8) < (reader 128 0).brPos.toNat + (1#8).toNat ∧
    (let s := { reader 64 0 with brBase := 4088 }
     s.brPos.toNat + (1#8).toNat ≤ 64 * (s.brLen.toNat / 8) ∧
       s.memBytes < s.brBase.toNat + (s.brPos.toNat + (1#8).toNat + 7) / 8) ∧ 64 < (65#8).toNat := by decide

set_option maxRecDepth 20000 in
/-- Puts that end at the end of a word, one of them of no bits, and the view of them. -/
theorem test_witness_BitStreamRoundTrip :
    let puts : List (BitVec 8 × Word) := [(59, 0x0123456789ABCDEF), (0, 1), (5, 7)]
    let s := writer 0
    let t := after (issueAll (puts.map fun p => (.bwPut p.1, p.2)) s)
    (∀ p ∈ puts, p.1.toNat ≤ 64) ∧ s.halted = false ∧ Memory.wf s.mem = true ∧ s.bwBits = 0 ∧
    issueAll (puts.map fun p => (.bwPut p.1, p.2)) s = .next t ∧ t.halted = false ∧
    ViewsBitStream { t with brBase := 0x100, brLen := 8 } t := by
  refine ⟨by simp, rfl, rfl, rfl, eq_after (by decide), by decide,
    by decide, rfl, by decide, by decide, by decide, fun _ _ _ => rfl⟩

/-- Eight bytes that fill the capacity exactly. -/
theorem test_witness_BytePutAppendsLowBytes :
    let s := { writer 5 with ywLen := 8 }
    s.halted = false ∧ Memory.wf s.mem = true ∧ (8#8).toNat = 8 ∧ ByteRoom s (8#8).toNat := by
  refine ⟨rfl, rfl, rfl, ⟨by decide, by decide⟩⟩

/-- A copy of nothing, and YW2's copy of the last 13 bytes of MEM. -/
theorem test_witness_ByteCopyMovesTheSource :
    let s := { writer 0x0000000D00000FF3 with ywLen := 3 }
    (BitVec.extractLsb' 32 32 (0x0000000000000300 : Word)).toNat = 0 ∧ s.halted = false ∧ Memory.wf s.mem = true ∧
    ByteRoom s (s.din.extractLsb' 32 32).toNat ∧
    (s.din.extractLsb' 0 32).toNat + (s.din.extractLsb' 32 32).toNat ≤ s.memBytes := by
  refine ⟨by decide, rfl, rfl, ⟨by decide, by decide⟩, by decide⟩

/-- Each error at its boundary: one byte too many for the capacity, for MEM, for the view. -/
theorem test_witness_ByteBufferErrors :
    (let s := { writer 0x0000000D00000FF4 with ywLen := 3 }
     ¬ ((3#8).toNat = 1 ∨ (3#8).toNat = 2 ∨ (3#8).toNat = 4 ∨ (3#8).toNat = 8) ∧ s.halted = false ∧
       s.ywCap.toNat < { s with ywLen := 16 }.ywLen.toNat + (1#8).toNat ∧
       (s.din.extractLsb' 32 32).toNat ≠ 0 ∧ s.ywLen.toNat + (s.din.extractLsb' 32 32).toNat ≤ s.ywCap.toNat ∧
       s.memBytes < (s.din.extractLsb' 0 32).toNat + (s.din.extractLsb' 32 32).toNat) ∧
    (let s := { writer 0x0000000E00000300 with ywLen := 3 }
     s.ywCap.toNat < s.ywLen.toNat + (s.din.extractLsb' 32 32).toNat) ∧
    (let s := { writer 0 with ywBase := 4095, ywLen := 1 }
     s.ywLen.toNat + (1#8).toNat ≤ s.ywCap.toNat ∧ s.memBytes < s.ywBase.toNat + s.ywLen.toNat + (1#8).toNat) ∧
    (let s := reader 0 15
     s.yrLen.toNat < s.yrPos.toNat + (2#8).toNat) ∧
    (let s := { reader 0 8 with yrBase := 4081 }
     s.yrPos.toNat + (8#8).toNat ≤ s.yrLen.toNat ∧ s.memBytes < s.yrBase.toNat + s.yrPos.toNat + (8#8).toNat) := by
  decide

/-- The last eight bytes of the view. -/
theorem test_witness_ByteGetReadsLittleEndian : (reader 0 8).halted = false ∧ BytesReadable (reader 0 8) (8#8).toNat := by
  refine ⟨rfl, by decide, by decide⟩

/-- A sub-range that ends at the end of the view, and one that crosses it. -/
theorem test_witness_SubRangeSkipsTheParent :
    let s := { reader 0 5 with din := 11 }
    s.halted = false ∧ s.yrPos.toNat + (s.din.extractLsb' 0 32).toNat ≤ s.yrLen.toNat ∧
    s.yrLen.toNat < { s with yrPos := 6 }.yrPos.toNat + (s.din.extractLsb' 0 32).toNat := by decide

theorem test_witness_ScalarReadsBackAsWritten :
    let s := writer 0x0102030405060708
    let t := after (exec (.ywPut 8) s)
    let u := { t with yrBase := 0x200, yrLen := 8 }
    s.halted = false ∧ Memory.wf s.mem = true ∧ exec (.ywPut 8) s = .next t ∧ t.halted = false ∧ u.halted = false ∧
    u.mem = t.mem ∧ BytesReadable u (8#8).toNat ∧
    u.yrBase.toNat + u.yrPos.toNat = s.ywBase.toNat + s.ywLen.toNat := by
  refine ⟨rfl, rfl, eq_after (by decide), by decide, by decide, rfl, ⟨by decide, by decide⟩, by decide⟩

theorem test_witness_ZigZag : (writer 0x8000000000000000).halted = false := rfl

/-- A queue of one value, and one of 60. -/
theorem test_witness_SelectIsTheDensestAdmissible :
    [(0x0FFFFFFFFFFFFFFF : Packable)] ≠ [] ∧ 60 ≤ (List.replicate 60 (1 : Packable)).length := by decide

/-- X3: seven values of 8 bits, selector 9, which leaves bits 59:56 unused. -/
theorem test_witness_PackedWordLayout :
    (List.replicate 7 (255 : Packable)).length ≤ selCount 9 ∧
    ∀ v ∈ List.replicate 7 (255 : Packable), v.toNat ≤ 2 ^ selWidth 9 - 1 := by
  refine ⟨by decide, fun v hv => ?_⟩
  rw [List.eq_of_mem_replicate hv]
  decide

/-- The largest packable value, onto 58 and onto 59 values with room for just one word. -/
theorem test_witness_PushQueuesOrEmitsOneWord :
    let s := { writer 0x0FFFFFFFFFFFFFFF with seQ := List.replicate 59 1, ywLen := 8 }
    s.halted = false ∧ s.din.toNat < 2 ^ 60 ∧ s.seQ.length = 59 ∧ (List.replicate 58 (1 : Packable)).length ≠ 59 ∧
    Memory.wf s.mem = true ∧ ByteRoom s 8 := by
  refine ⟨rfl, by decide, by decide, by decide, rfl, ⟨by decide, by decide⟩⟩

/-- SE1, SE3, SE2 at the boundary, and the bytes beyond MEM. -/
theorem test_witness_EncoderErrors :
    2 ^ 60 ≤ (writer 0x1000000000000000).din.toNat ∧
    (let s := { writer 1 with seQ := List.replicate 59 1, ywCap := 7 }
     s.din.toNat < 2 ^ 60 ∧ s.seQ.length = 59 ∧ s.ywCap.toNat < s.ywLen.toNat + 8) ∧
    (let s := { writer 1 with seQ := List.replicate 59 1, ywBase := 4089 }
     s.ywLen.toNat + 8 ≤ s.ywCap.toNat ∧ s.memBytes < s.ywBase.toNat + s.ywLen.toNat + 8) ∧
    (let s := { writer 0 with seQ := [0x0FFFFFFFFFFFFFFF, 7], ywCap := 15 }
     s.seQ ≠ [] ∧ s.ywCap.toNat < s.ywLen.toNat + 8 * (flushWords s.tailPad s.seQ.length s.seQ).length) ∧
    (let s := { writer 0 with seQ := [0x0FFFFFFFFFFFFFFF, 7], ywBase := 4081 }
     s.ywLen.toNat + 8 * (flushWords s.tailPad s.seQ.length s.seQ).length ≤ s.ywCap.toNat ∧
       s.memBytes < s.ywBase.toNat + s.ywLen.toNat + 8 * (flushWords s.tailPad s.seQ.length s.seQ).length) := by decide

/-- SE2: two words that fill the capacity exactly. -/
theorem test_witness_FlushEmitsTheQueue :
    let s := { writer 0 with seQ := [0x0FFFFFFFFFFFFFFF, 7] }
    s.halted = false ∧ s.seQ ≠ [] ∧ Memory.wf s.mem = true ∧
    ByteRoom s (8 * (flushWords s.tailPad s.seQ.length s.seQ).length) ∧ (writer 0).seQ = [] := by
  refine ⟨rfl, by decide, rfl, ⟨by decide, by decide⟩, rfl⟩

theorem test_witness_FlushedWordsHoldTheQueue : ([1, 2] : List Packable) ≠ [] := by decide

/-- The last field of a held word, and a fetch of the last word of the view after an exhausted one. -/
theorem test_witness_DecoderReturnsTheNextField :
    (busy.sdCtrl.valid = true ∧ busy.sdCtrl.idx.toNat < selCount busy.sdCtrl.sel) ∧
    (let s := { reader 0 8 with sdCtrl := ⟨0, 240, true⟩ }
     s.halted = false ∧ s.sdCtrl.idx.toNat = selCount s.sdCtrl.sel ∧ BytesReadable s 8) := by
  refine ⟨by decide, rfl, by decide, by decide, by decide⟩

/-- The same hypotheses, for DD.NEXT. -/
theorem test_witness_DeltaNextRebuildsTheValue :
    busy.halted = false ∧ busy.sdCtrl.valid = true ∧ busy.sdCtrl.idx.toNat < selCount busy.sdCtrl.sel ∧
    (reader 0 8).sdCtrl.valid = false ∧ BytesReadable (reader 0 8) 8 ∧ (reader 0 8).ddPhase = .zero ∧
    busy.ddPhase = .two ∧ ({ busy with ddPhase := .one } : State).ddPhase = .one := by
  refine ⟨rfl, by decide, by decide, rfl, ⟨by decide, by decide⟩, rfl, rfl, rfl⟩

/-- One byte too few in the view, and one byte too few in MEM. -/
theorem test_witness_DecoderErrors :
    (let s := reader 0 9
     s.halted = false ∧ s.sdCtrl.valid = false ∧ s.yrLen.toNat < s.yrPos.toNat + 8) ∧
    (let s := { reader 0 8 with yrBase := 4081, sdCtrl := ⟨15, 1, true⟩ }
     s.sdCtrl.idx.toNat = selCount s.sdCtrl.sel ∧ s.yrPos.toNat + 8 ≤ s.yrLen.toNat ∧
       s.memBytes < s.yrBase.toNat + s.yrPos.toNat + 8) := by decide

/-- SS6 under STRICT: two words. -/
theorem test_witness_Simple8bRoundTrip :
    let vs : List Word := [0x0FFFFFFFFFFFFFFF, 7]
    let s := writer 0
    let t := after (issueAll ((vs.map fun v => (.sePush, v)) ++ [(.seFlush, 0)]) s)
    s.halted = false ∧ Memory.wf s.mem = true ∧ s.seQ = [] ∧ s.ywLen = 0 ∧
    issueAll ((vs.map fun v => (.sePush, v)) ++ [(.seFlush, 0)]) s = .next t ∧ t.halted = false ∧
    ViewsByteStream { t with yrBase := 0x200, yrLen := 16 } t := by
  refine ⟨rfl, rfl, rfl, rfl, eq_after (by decide), by decide,
    by decide, rfl, by decide, by decide, by decide, by decide, fun _ _ _ => rfl⟩

/-- Each phase, with the largest packable element. -/
theorem test_witness_DeltaPushRecordsTheDifference :
    (writer 0x0FFFFFFFFFFFFFFF).seQ.length ≠ 59 ∧ (writer 0x0FFFFFFFFFFFFFFF).dePhase = .zero ∧
    (writer 0x0FFFFFFFFFFFFFFF).din.toNat < 2 ^ 60 ∧
    (let s := { writer 0xF800000000000000 with dePhase := .one }
     (zigzag (s.din - s.dePrev)).toNat < 2 ^ 60) ∧
    (let s := { writer 0xF800000000000000 with dePhase := .two }
     (zigzag (s.din - s.dePrev - s.dePdelta)).toNat < 2 ^ 60) := by decide

/-- The 60th element, which emits a word, and an element that is not packable. -/
theorem test_witness_DeltaPushFeedsThePacker :
    (let s := { writer 5 with seQ := List.replicate 59 1 }
     s.halted = false ∧ s.dePhase = .zero ∧ exec .sePush { s with din := 5 } = .next (after (exec .sePush { s with din := 5 })) ∧
       (after (exec .sePush { s with din := 5 })).halted = false) ∧
    (after (exec .sePush (writer (-1)))).halted = true := by
  refine ⟨⟨rfl, rfl, eq_after (by decide), by decide⟩, by decide⟩

theorem test_witness_DeltaRangeIsOfTheElement : (writer 0).halted = false := rfl

/-- DD2: a difference that wraps around. -/
theorem test_witness_DeltaOfDeltaRoundTrip :
    let vs : List Word := [3, 0xFFFFFFFFFFFFFFFF, 1]
    let s := writer 0
    let t := after (issueAll ((vs.map fun v => (.dePush, v)) ++ [(.seFlush, 0)]) s)
    s.halted = false ∧ Memory.wf s.mem = true ∧ s.seQ = [] ∧ s.ywLen = 0 ∧ s.dePhase = .zero ∧
    issueAll ((vs.map fun v => (.dePush, v)) ++ [(.seFlush, 0)]) s = .next t ∧ t.halted = false ∧
    ViewsByteStream { t with yrBase := 0x200, yrLen := 8 } t ∧ t.ddPhase = .zero := by
  refine ⟨rfl, rfl, rfl, rfl, rfl, eq_after (by decide), by decide,
    ⟨by decide, rfl, by decide, by decide, by decide, by decide, fun _ _ _ => rfl⟩, by decide⟩

/-- The first value and a repeat, each filling the capacity exactly. -/
theorem test_witness_GorillaFirstAndRepeat :
    (let s := { writer 5 with bwBits := 64 }
     s.halted = false ∧ Memory.wf s.mem = true ∧ s.geCtrl.started = false ∧ BitRoom s 64) ∧
    (let s := { writer 5 with bwBits := 127, geLast := 5, geCtrl := ⟨true, false, 0, 0⟩ }
     s.geCtrl.started = true ∧ s.din = s.geLast ∧ BitRoom s 1) := by
  refine ⟨⟨rfl, rfl, rfl, ⟨by decide, by decide⟩⟩, rfl, rfl, ⟨by decide, by decide⟩⟩

/-- A window that the XOR fits exactly: LZB is its leading-zero count and TZB its trailing-zero count. -/
theorem test_witness_GorillaReusesTheWindow :
    let s := { writer 0x00000001FFFFFFF0 with bwBits := 64, geCtrl := ⟨true, true, 31, 4⟩ }
    s.halted = false ∧ Memory.wf s.mem = true ∧ s.din ≠ s.geLast ∧ s.geCtrl.wvalid = true ∧
    s.geCtrl.lzb.toNat ≤ clz64 (s.din ^^^ s.geLast) ∧ s.geCtrl.tzb.toNat ≤ ctz64 (s.din ^^^ s.geLast) ∧
    BitRoom s (2 + (64 - s.geCtrl.lzb.toNat - s.geCtrl.tzb.toNat)) := by
  refine ⟨rfl, rfl, by decide, rfl, by decide, by decide, ⟨by decide, by decide⟩⟩

/-- GV2: 64 data bits; one trailing zero too few for the window. -/
theorem test_witness_GorillaNewWindow :
    let s := { writer 0x8000000000000001 with bwCap := 3, bwBits := 64, geCtrl := ⟨true, true, 0, 1⟩ }
    s.halted = false ∧ Memory.wf s.mem = true ∧ s.geCtrl.started = true ∧ s.din ≠ s.geLast ∧
    ¬ (s.geCtrl.wvalid = true ∧ s.geCtrl.lzb.toNat ≤ clz64 (s.din ^^^ s.geLast) ∧
      s.geCtrl.tzb.toNat ≤ ctz64 (s.din ^^^ s.geLast)) ∧
    BitRoom s (13 + (64 - min (clz64 (s.din ^^^ s.geLast)) 31 - ctz64 (s.din ^^^ s.geLast))) := by
  refine ⟨rfl, rfl, rfl, by decide, by decide, ⟨by decide, by decide⟩⟩

/-- Each record kind one bit too long: a first value one byte beyond MEM, a repeat and a reused window (DB = 1 and 64) of a
full writer, and GV8's 77-bit record that needs one word more than the capacity; then the shortest new window, DB = 1. -/
theorem test_witness_GorillaEncoderErrors :
    (let s := { writer 5 with bwBase := 4089 }
     s.halted = false ∧ s.geCtrl.started = false ∧ (s.bwBits.toNat + 64 + 63) / 64 ≤ s.bwCap.toNat ∧
       s.memBytes < s.bwBase.toNat + 8 * ((s.bwBits.toNat + 64 + 63) / 64)) ∧
    (let s := { writer 5 with bwBits := 128, geLast := 5, geCtrl := ⟨true, false, 0, 0⟩ }
     s.geCtrl.started = true ∧ s.din = s.geLast ∧ s.bwCap.toNat < (s.bwBits.toNat + 1 + 63) / 64) ∧
    (let s := { writer 0x8000000000000000 with bwBits := 126, geCtrl := ⟨true, true, 0, 63⟩ }
     let x := s.din ^^^ s.geLast
     s.din ≠ s.geLast ∧ s.geCtrl.wvalid = true ∧ s.geCtrl.lzb.toNat ≤ clz64 x ∧ s.geCtrl.tzb.toNat ≤ ctz64 x ∧
       s.bwCap.toNat < (s.bwBits.toNat + 3 + 63) / 64 ∧ 2 + (64 - s.geCtrl.lzb.toNat - s.geCtrl.tzb.toNat) = 3 ∧
       2 + (64 - (0#5).toNat - (0#6).toNat) = 66) ∧
    (let s := { writer 0x8000000000000001 with bwBits := 64, geCtrl := ⟨true, false, 0, 0⟩ }
     let x := s.din ^^^ s.geLast
     s.geCtrl.started = true ∧ s.din ≠ s.geLast ∧
       ¬ (s.geCtrl.wvalid = true ∧ s.geCtrl.lzb.toNat ≤ clz64 x ∧ s.geCtrl.tzb.toNat ≤ ctz64 x) ∧
       13 + (64 - min (clz64 x) 31 - ctz64 x) = 77 ∧ s.bwCap.toNat < (s.bwBits.toNat + 77 + 63) / 64) ∧
    13 + (64 - min (clz64 0x8000000000000000) 31 - ctz64 0x8000000000000000) = 14 := by decide

/-- The last 64 bits of a view, and its last bit, a repeat. -/
theorem test_witness_GorillaDecodesFirstAndRepeat :
    ((reader 64 0).gdCtrl.started = false ∧ BitsReadable (reader 64 0) 64) ∧
    (let s := { start 0x108 [] 0 with brBase := 0x100, brLen := 16, brPos := 127, gdCtrl := ⟨true, false, 0, 0⟩ }
     s.halted = false ∧ s.gdCtrl.started = true ∧ BitsReadable s 1 ∧ viewBit s 0 = false) := by
  refine ⟨⟨rfl, ⟨by decide, by decide⟩⟩, rfl, rfl, ⟨by decide, by decide⟩, by decide⟩

/-- A reuse record of 1 data bit at the end of the view, and GV2's new-window record of 64. -/
theorem test_witness_GorillaDecodesWindows :
    (let s := { start 0x10F [0x20] 0 with brBase := 0x100, brLen := 16, brPos := 125, gdCtrl := ⟨true, true, 0, 63⟩ }
     s.halted = false ∧ BitsReadable s (2 + (64 - s.gdCtrl.lzb.toNat - s.gdCtrl.tzb.toNat)) ∧
       viewBit s 0 = true ∧ viewBit s 1 = false) ∧
    (let s := { start 0x108 [0x03, 0x20] 0 with brBase := 0x100, brLen := 24, brPos := 64, gdCtrl := ⟨true, false, 0, 0⟩ }
     (viewField s 2 5).toNat + 64 ≤ 64 ∧ viewField s 7 6 = 0 ∧ BitsReadable s (13 + 64) ∧
       viewBit s 0 = true ∧ viewBit s 1 = true) := by
  refine ⟨⟨rfl, ⟨by decide, by decide⟩, by decide, by decide⟩, by decide, by decide, ⟨by decide, by decide⟩, by decide,
    by decide⟩

/-- GV10's corrupt records at the limit: a reuse record without a window, and LZB + DB = 65. -/
theorem test_witness_GorillaDecoderErrors :
    (let s := { start 0x10F [0x40] 0 with brBase := 0x100, brLen := 16, brPos := 126, gdCtrl := ⟨true, false, 0, 0⟩ }
     s.halted = false ∧ s.gdCtrl.started = true ∧ BitsReadable s 2 ∧ viewBit s 0 = true ∧ viewBit s 1 = false ∧
       s.gdCtrl.wvalid = false) ∧
    (let s := { start 0x108 [0x07] 0 with brBase := 0x100, brLen := 16, brPos := 64, gdCtrl := ⟨true, false, 0, 0⟩ }
     s.halted = false ∧ s.gdCtrl.started = true ∧ BitsReadable s 2 ∧ viewBit s 0 = true ∧ viewBit s 1 = true ∧
       BitsReadable s 13 ∧ (viewField s 2 5).toNat = 1 ∧ viewField s 7 6 = 0) := by
  refine ⟨⟨rfl, rfl, ⟨by decide, by decide⟩, by decide, by decide, rfl⟩, rfl, rfl, ⟨by decide, by decide⟩, by decide,
    by decide, ⟨by decide, by decide⟩, by decide, by decide⟩

/-- A started decoder at bit `p` of a view of 16 bytes at 0x100, of which `bytes` are from the eighth on; MEM holds the first `m`
bytes of the view. -/
def decoderAt (bytes : List Byte) (w : Bool) (m p : Nat) : State :=
  { start 0x108 bytes 0 with
    memBytes := 0x100 + m, brBase := 0x100, brLen := 16, brPos := BitVec.ofNat 64 p, gdCtrl := ⟨true, w, 0, 63⟩ }

/-- Each field as the one that runs past the view: the first value, either control bit, one data bit under the active
window, LZB, the DB code, and the data bits of a new window (LZB 0, DB 1). -/
theorem test_witness_GorillaDecoderErrors_oob :
    FetchStops (reader 65 0) 64 .oob ∧
    FetchStops (decoderAt [0, 0, 0, 0, 0, 0, 0, 0x80] true 16 128) 1 .oob ∧
    (let s := decoderAt [0, 0, 0, 0, 0, 0, 0, 0x80] true 16 127
     BitsReadable s 1 ∧ viewBit s 0 = true ∧ FetchStops s 2 .oob) ∧
    (let s := decoderAt [0, 0, 0, 0, 0, 0, 0, 0x40] true 16 126
     BitsReadable s 2 ∧ viewBit s 0 = true ∧ viewBit s 1 = false ∧
       FetchStops s (2 + (64 - s.gdCtrl.lzb.toNat - s.gdCtrl.tzb.toNat)) .oob) ∧
    (let s := decoderAt [0, 0, 0, 0, 0, 0, 0, 0xC0] true 16 126
     BitsReadable s 2 ∧ viewBit s 0 = true ∧ viewBit s 1 = true ∧ FetchStops s 7 .oob) ∧
    (let s := decoderAt [0, 0, 0, 0, 0, 0, 0, 0x06] true 16 121
     BitsReadable s 7 ∧ viewBit s 0 = true ∧ viewBit s 1 = true ∧ FetchStops s 13 .oob) ∧
    (let s := decoderAt [0, 0, 0, 0, 0, 0, 0x18, 0x04] true 16 115
     BitsReadable s 13 ∧ viewBit s 0 = true ∧ viewBit s 1 = true ∧ (viewField s 2 5).toNat = 0 ∧
       viewField s 7 6 = 1 ∧ FetchStops s 14 .oob) := by
  refine ⟨.inl ⟨rfl, by decide⟩, .inl ⟨rfl, by decide⟩, ⟨⟨by decide, by decide⟩, by decide, .inl ⟨rfl, by decide⟩⟩,
    ⟨⟨by decide, by decide⟩, by decide, by decide, .inl ⟨rfl, by decide⟩⟩,
    ⟨⟨by decide, by decide⟩, by decide, by decide, .inl ⟨rfl, by decide⟩⟩,
    ⟨⟨by decide, by decide⟩, by decide, by decide, .inl ⟨rfl, by decide⟩⟩,
    ⟨⟨by decide, by decide⟩, by decide, by decide, by decide, by decide, .inl ⟨rfl, by decide⟩⟩⟩

/-- Each field as the one that runs past MEM in a view that crosses its end. -/
theorem test_witness_GorillaDecoderErrors_bus :
    FetchStops { reader 64 0 with brBase := 4081 } 64 .bus ∧
    FetchStops (decoderAt [] true 8 64) 1 .bus ∧
    (let s := decoderAt [0x80] true 9 71
     BitsReadable s 1 ∧ viewBit s 0 = true ∧ FetchStops s 2 .bus) ∧
    (let s := decoderAt [0x40] true 9 70
     BitsReadable s 2 ∧ viewBit s 0 = true ∧ viewBit s 1 = false ∧
       FetchStops s (2 + (64 - s.gdCtrl.lzb.toNat - s.gdCtrl.tzb.toNat)) .bus) ∧
    (let s := decoderAt [0xC0] true 9 70
     BitsReadable s 2 ∧ viewBit s 0 = true ∧ viewBit s 1 = true ∧ FetchStops s 7 .bus) ∧
    (let s := decoderAt [0x06] true 9 65
     BitsReadable s 7 ∧ viewBit s 0 = true ∧ viewBit s 1 = true ∧ FetchStops s 13 .bus) ∧
    (let s := decoderAt [0x18, 0x04] true 10 67
     BitsReadable s 13 ∧ viewBit s 0 = true ∧ viewBit s 1 = true ∧ (viewField s 2 5).toNat = 0 ∧
       viewField s 7 6 = 1 ∧ FetchStops s 14 .bus) := by
  refine ⟨.inr ⟨rfl, by decide, by decide⟩, .inr ⟨rfl, by decide, by decide⟩,
    ⟨⟨by decide, by decide⟩, by decide, .inr ⟨rfl, by decide, by decide⟩⟩,
    ⟨⟨by decide, by decide⟩, by decide, by decide, .inr ⟨rfl, by decide, by decide⟩⟩,
    ⟨⟨by decide, by decide⟩, by decide, by decide, .inr ⟨rfl, by decide, by decide⟩⟩,
    ⟨⟨by decide, by decide⟩, by decide, by decide, .inr ⟨rfl, by decide, by decide⟩⟩,
    ⟨⟨by decide, by decide⟩, by decide, by decide, by decide, by decide, .inr ⟨rfl, by decide, by decide⟩⟩⟩

set_option maxRecDepth 20000 in
/-- GV6: a first value, a new window, a reuse, a repeat. -/
theorem test_witness_GorillaRoundTrip :
    let vs : List Word := [0, 0x8000000000000000, 0, 0]
    let s := writer 0
    let t := after (issueAll (vs.map fun v => (.gePut, v)) s)
    s.halted = false ∧ Memory.wf s.mem = true ∧ s.bwBits = 0 ∧
    s.geCtrl = { started := false, wvalid := false, lzb := 0, tzb := 0 } ∧
    issueAll (vs.map fun v => (.gePut, v)) s = .next t ∧ t.halted = false ∧
    ViewsBitStream { t with brBase := 0x100, brLen := 16 } t ∧
    t.gdCtrl = { started := false, wvalid := false, lzb := 0, tzb := 0 } := by
  refine ⟨rfl, rfl, rfl, rfl, eq_after (by decide), by decide,
    ⟨by decide, rfl, by decide, by decide, by decide, fun _ _ _ => rfl⟩, by decide⟩

end Sys2Proof.Tests
end

