-- ==== Sys2Proof/Proofs/NamedFunctions.lean ====
section
/-! The named functions of spec/00_scope.md R16: `mask`, `clz64` and `ctz64`. -/

namespace Sys2Proof.Proofs

open Sys2Proof Sys2Proof.Machine Sys2Proof.Laws

/-- No width up to 64 wraps: `2 ^ w - 1` fits in the 64-bit word. -/
theorem toNat_mask_of_le {w : Nat} (hw : w ≤ 64) : (mask w).toNat = 2 ^ w - 1 := by
  have hpow : 2 ^ w ≤ 2 ^ 64 := Nat.pow_le_pow_right (by omega) hw
  rw [mask, BitVec.toNat_ofNat, Nat.mod_eq_of_lt (by omega)]

/-- The leading count stops at a 1 bit, unless it passes the whole word. -/
theorem getLsbD_at_clz64 {x : Word} (h : clz64 x < 64) : x.getLsbD (63 - clz64 x) = true :=
  getLsbD_at_leadingZerosBelow x 64 h

/-- The trailing count stops at a 1 bit, unless it passes the whole word. -/
theorem getLsbD_at_ctz64 {x : Word} (h : ctz64 x < 64) : x.getLsbD (ctz64 x) = true := by
  simpa [ctz64] using getLsbD_at_trailingZerosFrom x 64 le_rfl h

/-- A count below 64 would stop at a 1 bit, and 0 has none. -/
theorem clz64_zero : clz64 0 = 64 := by
  by_contra hne
  have hlt : clz64 0 < 64 := lt_of_le_of_ne (clz64_le 0) hne
  simpa using getLsbD_at_clz64 hlt

/-- A count below 64 would stop at a 1 bit, and 0 has none. -/
theorem ctz64_zero : ctz64 0 = 64 := by
  by_contra hne
  have hlt : ctz64 0 < 64 := lt_of_le_of_ne (ctz64_le 0) hne
  simpa using getLsbD_at_ctz64 hlt

/-- Settles O51: each count stops at a 1 bit and passes only 0 bits, and for a value that is not 0 both stop inside the
word because together they are at most 63. -/
theorem namedFunctionsOfR16 : Obligations.NamedFunctionsOfR16 := by
  refine ⟨fun w hw => toNat_mask_of_le hw, clz64_zero, ctz64_zero, fun x hx => ?_⟩
  have hsum : clz64 x + ctz64 x ≤ 63 := clz64_add_ctz64_le x hx
  exact ⟨hsum, getLsbD_at_clz64 (by omega), fun i hi => getLsbD_of_clz64 x i (by omega),
    getLsbD_at_ctz64 (by omega), fun i hi => getLsbD_of_ctz64 x i hi⟩

end Sys2Proof.Proofs
end

/-! The commands as effects: what each command does where it executes (R303), what it may change, and which errors it
raises. Every statement about all commands below splits on the command here, once. -/

namespace Sys2Proof.Proofs

open Sys2Proof Sys2Proof.Machine Sys2Proof.Laws

/-! ### Execution is an effect, completed, raised or ignored -/

/-- What a command does where it executes: its next state, or the error it raises (R302, R303). -/
def effect (i : Instr) (s : State) : Except ErrCode State :=
  match i with
  | .nop => .ok s
  | .csrr n => csrr n s
  | .csrw n => csrw n s
  | .clrerr => .ok s.clearError
  | .sreset => .ok s.resetRegisters
  | .bwClr => .ok { s with bwBits := 0 }
  | .bwPut w => bwPut w s
  | .bwBlen => .ok { s with dout := BitVec.ofNat 64 (bitStreamBytes s) }
  | .brGet w => brGet w s
  | .brBit => toDout (bitFetch 1 s)
  | .brEnd => .ok { s with dout := if bitCursorAtEnd s then 1 else 0 }
  | .ywClr => .ok { s with ywLen := 0 }
  | .ywPut w => ywPut w s
  | .ywCpy => ywCpy s
  | .yrGet w => yrGet w s
  | .yrSub => yrSub s
  | .zzEnc => .ok { s with dout := zigzag s.din }
  | .zzDec => .ok { s with dout := unzigzag s.din }
  | .seClr => .ok { s with seQ := [] }
  | .sePush => sePushValue s.din s
  | .seFlush => seFlush s
  | .sdClr => .ok { s with sdWord := 0, sdCtrl := { sel := 0, idx := 0, valid := false } }
  | .sdNext => toDout (sdNextValue s)
  | .deClr => .ok { s with dePrev := 0, dePdelta := 0, dePhase := .zero }
  | .dePush => dePush s
  | .ddClr => .ok { s with ddLast := 0, ddDelta := 0, ddPhase := .zero }
  | .ddNext => ddNext s
  | .geClr => .ok { s with geLast := 0, geCtrl := { started := false, wvalid := false, lzb := 0, tzb := 0 } }
  | .gePut => gePut s
  | .gdClr => .ok { s with gdLast := 0, gdCtrl := { started := false, wvalid := false, lzb := 0, tzb := 0 } }
  | .gdNext => gdNext s

/-- The commands that execute while halted (R305). -/
def executesHalted : Instr → Bool
  | .nop | .csrr _ | .clrerr | .sreset => true
  | _ => false

/-- A command is its effect, completed always or in a running block only (R303, R305). -/
theorem exec_eq (i : Instr) (s : State) :
    exec i s = if executesHalted i then complete s (effect i s) else dataCommand s (effect i s) := by
  cases i <;> rfl

/-- Everything a completed command can do: nothing, its effect, or raise with no other effect. -/
theorem complete_cases {s t : State} {r : Except ErrCode State} (h : complete s r = .next t) :
    t = s ∨ r = .ok t ∨ ∃ e, r = .error e ∧ t = { s with status := { err := e, fault := true } } := by
  cases r with
  | ok u => exact .inr (.inl (congrArg Except.ok (Host.Outcome.next.inj h)))
  | error e =>
    have ht : s.raise e = t := Host.Outcome.next.inj h
    cases hs : s.halted with
    | true => exact .inl (ht ▸ raise_of_halted s e hs)
    | false => exact .inr (.inr ⟨e, rfl, ht ▸ raise_of_running s e hs⟩)

/-- Everything a command can do: nothing, its effect, or raise with no other effect. -/
theorem exec_cases {i : Instr} {s t : State} (h : exec i s = .next t) :
    t = s ∨ effect i s = .ok t ∨
      ∃ e, effect i s = .error e ∧ t = { s with status := { err := e, fault := true } } := by
  rw [exec_eq] at h
  split at h
  · exact complete_cases h
  · obtain ⟨_, hs⟩ | ⟨_, hok⟩ | ⟨e, _, he, ht⟩ := dataCommand_cases h
    · exact .inl hs
    · exact .inr (.inl hok)
    · exact .inr (.inr ⟨e, he, ht⟩)

/-! ### The effects with a width or a CSR number -/

/-- A command whose width is checked first completes only past that check (R92). -/
theorem guarded_ok {legal : Bool} {r : Except ErrCode State} {t : State}
    (h : (if legal then r else .error .illegal) = .ok t) : r = .ok t := by
  split at h
  · exact h
  · cases h

/-- A command whose width is checked first raises ERR_ILLEGAL or what it raises past that check (R92, log entry 6). -/
theorem guarded_error {legal : Bool} {r : Except ErrCode State} {e : ErrCode}
    (h : (if legal then r else .error .illegal) = .error e) : e = .illegal ∨ r = .error e := by
  split at h
  · exact .inr h
  · exact .inl (Except.error.inj h).symm

theorem bwPut_ok {w : BitVec 8} {s t : State} (h : bwPut w s = .ok t) :
    bitAppend ((s.din &&& mask w.toNat).setWidth 77) w.toNat s = .ok t := guarded_ok h

theorem bwPut_error {w : BitVec 8} {s : State} {e : ErrCode} (h : bwPut w s = .error e) :
    e = .illegal ∨ e = .cap ∨ e = .bus := (guarded_error h).imp_right bitAppend_error

theorem brGet_ok {w : BitVec 8} {s t : State} (h : brGet w s = .ok t) : toDout (bitFetch w.toNat s) = .ok t :=
  guarded_ok h

theorem brGet_error {w : BitVec 8} {s : State} {e : ErrCode} (h : brGet w s = .error e) :
    e = .illegal ∨ e = .oob ∨ e = .bus :=
  (guarded_error h).imp_right fun hr => bitFetch_error ((toDout_error_iff _ _).mp hr)

theorem ywPut_ok {w : BitVec 8} {s t : State} (h : ywPut w s = .ok t) : byteAppend (bytesLE s.din w.toNat) s = .ok t :=
  guarded_ok h

theorem ywPut_error {w : BitVec 8} {s : State} {e : ErrCode} (h : ywPut w s = .error e) :
    e = .illegal ∨ e = .cap ∨ e = .bus := (guarded_error h).imp_right byteAppend_error

theorem yrGet_ok {w : BitVec 8} {s t : State} (h : yrGet w s = .ok t) : toDout (byteFetch w.toNat s) = .ok t :=
  guarded_ok h

theorem yrGet_error {w : BitVec 8} {s : State} {e : ErrCode} (h : yrGet w s = .error e) :
    e = .illegal ∨ e = .oob ∨ e = .bus :=
  (guarded_error h).imp_right fun hr => byteFetch_error ((toDout_error_iff _ _).mp hr)

/-- `YR.SUB` changes `YR_POS` and `DOUT` only (R181). -/
theorem yrSub_frame {s t : State} (h : yrSub s = .ok t) : t = { s with yrPos := t.yrPos, dout := t.dout } := by
  unfold yrSub at h
  simp only at h
  split at h
  · cases h
  · cases h; rfl

theorem yrSub_error {s : State} {e : ErrCode} (h : yrSub s = .error e) : e = .oob := by
  unfold yrSub at h
  simp only at h
  split at h
  · exact (Except.error.inj h).symm
  · cases h

theorem csrr_ok {n : BitVec 8} {s t : State} (h : csrr n s = .ok t) :
    ∃ c, csrOfNumber n = some c ∧ t = { s with dout := readCsr s c } := by
  unfold csrr at h
  split at h
  · cases h
  · rename_i c hc
    exact ⟨c, hc, (Except.ok.inj h).symm⟩

theorem csrw_ok {n : BitVec 8} {s t : State} (h : csrw n s = .ok t) :
    ∃ c, csrOfNumber n = some c ∧ writeCsr s c s.din = .ok t := by
  unfold csrw at h
  split at h
  · cases h
  · rename_i c hc
    exact ⟨c, hc, h⟩

/-! ### Which errors there are -/

/-- An effect that raises names an error of R300: never code 0. -/
theorem effect_error_ne_noError {i : Instr} {s : State} {e : ErrCode} (h : effect i s = .error e) : e ≠ .noError := by
  rintro rfl
  cases i with
  | csrr n => cases csrr_error h
  | csrw n => cases csrw_error h
  | bwPut w => simpa using bwPut_error h
  | brGet w => simpa using brGet_error h
  | brBit => simpa using bitFetch_error ((toDout_error_iff _ _).mp h)
  | ywPut w => simpa using ywPut_error h
  | ywCpy => simpa using ywCpy_error h
  | yrGet w => simpa using yrGet_error h
  | yrSub => cases yrSub_error h
  | sePush => simpa using sePushValue_error h
  | seFlush => simpa using byteAppend_error h
  | sdNext => simpa using sdNextValue_error ((toDout_error_iff _ _).mp h)
  | dePush => simpa using sePushValue_error (dePush_error h)
  | ddNext => simpa using sdNextValue_error (ddNext_error h)
  | gePut => simpa using gePut_error h
  | gdNext => simpa using gdNext_error h
  | nop | clrerr | sreset | bwClr | bwBlen | brEnd | ywClr | zzEnc | zzDec | seClr | sdClr | deClr | ddClr | geClr
  | gdClr => cases h

/-! ### Footprints -/

/-- `s` with the register that a `CSRW` of `c` writes (R26) taken from `t`. -/
def csrFootprint (c : Csr) (s t : State) : State :=
  match c with
  | .config => { s with tailPad := t.tailPad }
  | .bwBase => { s with bwBase := t.bwBase }
  | .bwCap => { s with bwCap := t.bwCap }
  | .brBase => { s with brBase := t.brBase }
  | .brLen => { s with brLen := t.brLen }
  | .brPos => { s with brPos := t.brPos }
  | .ywBase => { s with ywBase := t.ywBase }
  | .ywCap => { s with ywCap := t.ywCap }
  | .yrBase => { s with yrBase := t.yrBase }
  | .yrLen => { s with yrLen := t.yrLen }
  | .yrPos => { s with yrPos := t.yrPos }
  | .status | .memsz | .bwBits | .ywLen | .seCnt | .sdWord | .sdCtrl | .dePrev | .dePdelta | .dePhase
  | .ddLast | .ddDelta | .ddPhase | .geLast | .geCtrl | .gdLast | .gdCtrl => s

/-- `s` with the registers that the command's rule names as written by it taken from `t`; SRESET's is all of `t`. -/
def footprint (i : Instr) (s t : State) : State :=
  match i with
  | .nop => s
  | .csrr _ | .bwBlen | .brEnd | .zzEnc | .zzDec => { s with dout := t.dout }
  | .csrw n => (csrOfNumber n).elim s fun c => csrFootprint c s t
  | .clrerr => { s with status := t.status }
  | .sreset => t
  | .bwClr => { s with bwBits := t.bwBits }
  | .bwPut _ => { s with mem := t.mem, bwBits := t.bwBits }
  | .brGet _ | .brBit => { s with brPos := t.brPos, dout := t.dout }
  | .ywClr => { s with ywLen := t.ywLen }
  | .ywPut _ | .ywCpy => { s with mem := t.mem, ywLen := t.ywLen }
  | .yrGet _ | .yrSub => { s with yrPos := t.yrPos, dout := t.dout }
  | .seClr => { s with seQ := t.seQ }
  | .sePush | .seFlush => { s with mem := t.mem, ywLen := t.ywLen, seQ := t.seQ }
  | .sdClr => { s with sdWord := t.sdWord, sdCtrl := t.sdCtrl }
  | .sdNext => { s with yrPos := t.yrPos, sdWord := t.sdWord, sdCtrl := t.sdCtrl, dout := t.dout }
  | .deClr => { s with dePrev := t.dePrev, dePdelta := t.dePdelta, dePhase := t.dePhase }
  | .dePush => { s with
      mem := t.mem, ywLen := t.ywLen, seQ := t.seQ
      dePrev := t.dePrev, dePdelta := t.dePdelta, dePhase := t.dePhase, dout := t.dout }
  | .ddClr => { s with ddLast := t.ddLast, ddDelta := t.ddDelta, ddPhase := t.ddPhase }
  | .ddNext => { s with
      yrPos := t.yrPos, sdWord := t.sdWord, sdCtrl := t.sdCtrl
      ddLast := t.ddLast, ddDelta := t.ddDelta, ddPhase := t.ddPhase, dout := t.dout }
  | .geClr => { s with geLast := t.geLast, geCtrl := t.geCtrl }
  | .gePut => { s with mem := t.mem, bwBits := t.bwBits, geLast := t.geLast, geCtrl := t.geCtrl }
  | .gdClr => { s with gdLast := t.gdLast, gdCtrl := t.gdCtrl }
  | .gdNext => { s with brPos := t.brPos, gdLast := t.gdLast, gdCtrl := t.gdCtrl, dout := t.dout }

/-- A `CSRW` writes the register it names and nothing else (R122). -/
theorem writeCsr_footprint {s t : State} {c : Csr} {v : Word} (h : writeCsr s c v = .ok t) : t = csrFootprint c s t := by
  cases c <;> cases h <;> rfl

/-- A fetch from the bit cursor into `DOUT` changes the position and `DOUT` only (R74, R150). -/
theorem toDout_bitFetch_frame {n : Nat} {s t : State} (h : toDout (bitFetch n s) = .ok t) :
    t = { s with brPos := t.brPos, dout := t.dout } := by
  obtain ⟨v, u, hu, rfl⟩ := toDout_ok h
  rw [bitFetch_frame hu]

/-- A fetch from the byte cursor into `DOUT` changes the position and `DOUT` only (R78, R180). -/
theorem toDout_byteFetch_frame {n : Nat} {s t : State} (h : toDout (byteFetch n s) = .ok t) :
    t = { s with yrPos := t.yrPos, dout := t.dout } := by
  obtain ⟨v, u, hu, rfl⟩ := toDout_ok h
  rw [byteFetch_frame hu]

/-- A completed command changes the registers its rule names and nothing else. -/
theorem effect_footprint {i : Instr} {s t : State} (h : effect i s = .ok t) : t = footprint i s t := by
  cases i with
  | csrr n =>
    obtain ⟨c, _, rfl⟩ := csrr_ok h
    rfl
  | csrw n =>
    obtain ⟨c, hc, hw⟩ := csrw_ok h
    rw [footprint, hc]
    exact writeCsr_footprint hw
  | bwPut w => exact bitAppend_frame (bwPut_ok h)
  | brGet w => exact toDout_bitFetch_frame (brGet_ok h)
  | brBit => exact toDout_bitFetch_frame h
  | ywPut w => exact byteAppend_frame (ywPut_ok h)
  | ywCpy =>
    obtain rfl | hb := ywCpy_cases h
    · rfl
    · exact byteAppend_frame hb
  | yrGet w => exact toDout_byteFetch_frame (yrGet_ok h)
  | yrSub => exact yrSub_frame h
  | sePush => exact sePushValue_frame h
  | seFlush =>
    rw [seFlush_frame h]
    rfl
  | sdNext =>
    obtain ⟨v, u, hu, rfl⟩ := toDout_ok h
    rw [sdNextValue_frame hu]
    rfl
  | dePush =>
    obtain ⟨u, hu, rfl⟩ := dePush_cases h
    rw [sePushValue_frame hu]
    rfl
  | ddNext =>
    obtain ⟨e, u, hu, rfl⟩ := ddNext_cases h
    rw [sdNextValue_frame hu]
    rfl
  | gePut =>
    obtain ⟨u, hu, rfl⟩ := gePut_cases h
    rw [bitAppend_frame hu]
    rfl
  | gdNext =>
    obtain ⟨u, hu, rfl⟩ := gdNext_ok h
    rw [gdRecord_frame hu]
    rfl
  | nop | clrerr | sreset | bwClr | bwBlen | brEnd | ywClr | zzEnc | zzDec | seClr | sdClr | deClr | ddClr | geClr
  | gdClr => cases h; rfl

/-- Only an error and `CLRERR` write `STATUS` (R31); SRESET apart. -/
theorem effect_status {i : Instr} {s t : State} (h : effect i s = .ok t) (hr : i ≠ .sreset) (hc : i ≠ .clrerr) :
    t.status = s.status := by
  have ht : t.status = (footprint i s t).status := congrArg State.status (effect_footprint h)
  rw [ht]
  cases i with
  | csrw n =>
    obtain ⟨c, hn, _⟩ := csrw_ok h
    rw [footprint, hn]
    cases c <;> rfl
  | sreset => exact absurd rfl hr
  | clrerr => exact absurd rfl hc
  | _ => rfl

/-- A footprint takes nothing from a state that differs in `STATUS` alone. -/
theorem footprint_status (i : Instr) (s : State) (x : Status) :
    { footprint i s { s with status := x } with status := x } = { s with status := x } := by
  cases i with
  | csrw n =>
    rw [footprint]
    cases csrOfNumber n with
    | none => rfl
    | some c => cases c <;> rfl
  | _ => rfl

/-- Whatever becomes of a command, it changes the registers its rule names, `STATUS`, and nothing else. -/
theorem exec_footprint {i : Instr} {s t : State} (h : exec i s = .next t) :
    t = { footprint i s t with status := t.status } := by
  obtain rfl | hok | ⟨e, _, rfl⟩ := exec_cases h
  · exact (footprint_status i t t.status).symm
  · exact congrArg (fun u : State => { u with status := t.status }) (effect_footprint hok)
  · exact (footprint_status i s _).symm

end Sys2Proof.Proofs

/-! The invariant of the state between commands (`State.Inv`): what reset establishes, every command and every action of
the host keep. -/

namespace Sys2Proof.Proofs

open Sys2Proof Sys2Proof.Machine Sys2Proof.Laws

/-! ### Reset -/

/-- Every register at its reset value, over a memory of a size and contents R10 and R342 allow, held in reset or not. -/
theorem inv_powerOn {n : Nat} {m : Memory} (hmin : Config.minMemBytes ≤ n) (hmax : n ≤ Config.maxMemBytes)
    (hwf : Memory.wf m = true) (hbelow : Memory.below n m = true) (held : Bool) (rest : List HostAction) :
    State.Inv { State.powerOn n m with inReset := held, pending := rest } where
  memSize := ⟨hmin, hmax⟩
  memCanonical := hwf
  memInside := hbelow
  statusAgrees := by simp [State.powerOn]
  bitsWritten := by simp [State.powerOn]
  bytesWritten := by simp [State.powerOn]
  fifoShort := by simp [State.powerOn]
  wordHeld := by simp [State.powerOn]
  wordClear := by simp [State.powerOn]
  encoderWindow := by simp [State.powerOn]
  decoderWindow := by simp [State.powerOn]
  encoderPhase := by simp [State.powerOn]
  decoderPhase := by simp [State.powerOn]
  heldInReset := by
    rintro rfl
    rfl

/-- Clearing every register keeps the invariant, whether the block is held in reset or not (R124, R340). -/
theorem inv_cleared {s : State} (hs : s.Inv) (held : Bool) :
    State.Inv { s.resetRegisters with inReset := held } :=
  inv_powerOn hs.memSize.1 hs.memSize.2 hs.memCanonical hs.memInside held s.pending

/-! ### A block that accepts commands -/

/-- The invariant of a block that is not held in reset, so that it accepts commands (R341). -/
structure Accepting (s : State) : Prop extends State.Inv s where
  released : s.inReset = false

/-- R341 asks nothing of a block that is not held in reset, whatever else has changed in it. -/
theorem Accepting.notHeld {s t : State} (hs : Accepting s) (ht : t.inReset = s.inReset) :
    t.inReset = true → t.enterReset = t := by
  simp [ht, hs.released]

theorem accepting_resetRegisters {s : State} (hs : Accepting s) : Accepting s.resetRegisters :=
  { inv_cleared hs.toInv s.inReset with released := hs.released }

theorem accepting_dout {s : State} (hs : Accepting s) (v : Word) : Accepting { s with dout := v } :=
  { hs with heldInReset := hs.notHeld rfl }

/-- `STATUS` after an error names it and has `FAULT` set (R302). -/
theorem accepting_raised {s : State} (hs : Accepting s) {e : ErrCode} (he : e ≠ .noError) :
    Accepting { s with status := { err := e, fault := true } } :=
  { hs with statusAgrees := by simp [he], heldInReset := hs.notHeld rfl }

theorem accepting_clearError {s : State} (hs : Accepting s) : Accepting s.clearError :=
  { hs with statusAgrees := by simp [State.clearError], heldInReset := hs.notHeld rfl }

theorem accepting_latch {s : State} (hs : Accepting s) (d : Word) : Accepting (s.latch d) :=
  { hs with heldInReset := hs.notHeld rfl }

/-- The registers a `CSRW` can write are not in the invariant (R29). -/
theorem accepting_writeCsr {s t : State} {c : Csr} {v : Word} (hs : Accepting s) (h : writeCsr s c v = .ok t) :
    Accepting t := by
  cases c <;> cases h <;> exact { hs with heldInReset := hs.notHeld rfl }

/-! ### The buffers -/

theorem accepting_bitFetch {n : Nat} {s t : State} {v : Word} (hs : Accepting s) (h : bitFetch n s = .ok (v, t)) :
    Accepting t := by
  rw [bitFetch_frame h]
  exact { hs with heldInReset := hs.notHeld rfl }

theorem accepting_byteFetch {n : Nat} {s t : State} {v : Word} (hs : Accepting s) (h : byteFetch n s = .ok (v, t)) :
    Accepting t := by
  rw [byteFetch_frame h]
  exact { hs with heldInReset := hs.notHeld rfl }

/-- The capacity check of R70 bounds `BW_BITS` by 64 bits for each word of the largest capacity (R36). -/
theorem bwBits_le_of_bitAppend {v : BitVec 77} {n : Nat} {s t : State} (h : bitAppend v n s = .ok t) (hn : n ≠ 0) :
    t.bwBits.toNat ≤ 64 * (2 ^ 32 - 1) := by
  obtain ⟨hcap, _, rfl⟩ := bitAppend_ok h hn
  have hlt := s.bwCap.isLt
  rw [bwBits_after s n hcap]
  unfold wordsFor at hcap
  omega

theorem accepting_bitAppend {v : BitVec 77} {n : Nat} {s t : State} (hs : Accepting s) (h : bitAppend v n s = .ok t) :
    Accepting t := by
  by_cases hn : n = 0
  · subst hn
    rw [bitAppend_zero] at h
    exact Except.ok.inj h ▸ hs
  · have hbits := bwBits_le_of_bitAppend h hn
    obtain ⟨hwf, hbelow, _⟩ := bitAppend_mem h hs.memCanonical
    rw [bitAppend_frame h]
    exact { hs with
      memCanonical := hwf
      memInside := hbelow hs.memInside
      bitsWritten := hbits
      heldInReset := hs.notHeld rfl }

/-- The capacity check of R77 bounds `YW_LEN` by the largest capacity (R41, R42). -/
theorem ywLen_le_of_byteAppend {b : List Byte} {s t : State} (h : byteAppend b s = .ok t) (hb : b.length ≠ 0) :
    t.ywLen.toNat ≤ 2 ^ 32 - 1 := by
  obtain ⟨hcap, _, rfl⟩ := byteAppend_ok h hb
  have hlt := s.ywCap.isLt
  rw [ywLen_after s b.length hcap]
  omega

theorem accepting_byteAppend {b : List Byte} {s t : State} (hs : Accepting s) (h : byteAppend b s = .ok t) :
    Accepting t := by
  by_cases hb : b.length = 0
  · rw [List.length_eq_zero_iff.mp hb, byteAppend_nil] at h
    exact Except.ok.inj h ▸ hs
  · have hlen := ywLen_le_of_byteAppend h hb
    obtain ⟨hwf, hbelow, _⟩ := byteAppend_mem h hs.memCanonical
    rw [byteAppend_frame h]
    exact { hs with
      memCanonical := hwf
      memInside := hbelow hs.memInside
      bytesWritten := hlen
      heldInReset := hs.notHeld rfl }

theorem accepting_ywCpy {s t : State} (hs : Accepting s) (h : ywCpy s = .ok t) : Accepting t := by
  obtain rfl | hb := ywCpy_cases h
  · exact hs
  · exact accepting_byteAppend hs hb

theorem accepting_yrSub {s t : State} (hs : Accepting s) (h : yrSub s = .ok t) : Accepting t := by
  rw [yrSub_frame h]
  exact { hs with heldInReset := hs.notHeld rfl }

/-! ### Simple8B -/

theorem accepting_seQ {s : State} (hs : Accepting s) {q : List Packable} (hq : q.length ≤ 59) :
    Accepting { s with seQ := q } :=
  { hs with fifoShort := hq, heldInReset := hs.notHeld rfl }

/-- The 60th value makes the encoder emit a word, which takes at least one (R204, R211, R212). -/
theorem accepting_sePushValue {v : Word} {s t : State} (hs : Accepting s) (h : sePushValue v s = .ok t) :
    Accepting t := by
  have hshort := hs.fifoShort
  obtain ⟨_, ⟨hlen, rfl⟩ | ⟨hlen, hb⟩⟩ := sePushValue_cases h
  · refine accepting_seQ hs ?_
    simp only [List.length_append, List.length_singleton] at hlen ⊢
    omega
  · refine accepting_byteAppend (accepting_seQ hs ?_) hb
    have hused := (select_used s.tailPad (s.seQ ++ [v.setWidth 60]) (by simp)).1
    rw [List.length_drop]
    omega

theorem accepting_seFlush {s t : State} (hs : Accepting s) (h : seFlush s = .ok t) : Accepting t :=
  accepting_byteAppend (accepting_seQ hs (q := []) (Nat.zero_le 59)) h

/-- `SDNext` is the fetch, then the field, then the index's increment (R221). -/
theorem sdNextValue_ok {s t : State} {v : Word} (h : sdNextValue s = .ok (v, t)) :
    ∃ u, sdFetch s = .ok u ∧ t = { u with sdCtrl := { u.sdCtrl with idx := u.sdCtrl.idx + 1 } } := by
  unfold sdNextValue at h
  split at h
  · cases h
  · rename_i u hu
    exact ⟨u, hu, (Prod.mk.inj (Except.ok.inj h)).2.symm⟩

/-- The fetch of `SDNext` keeps the invariant and leaves a held word with a field to read (R221). -/
theorem accepting_sdFetch {s u : State} (hs : Accepting s) (h : sdFetch s = .ok u) :
    Accepting u ∧ u.sdCtrl.valid = true ∧ u.sdCtrl.idx.toNat < selCount u.sdCtrl.sel := by
  obtain ⟨hx, rfl⟩ | ⟨_, _, _, rfl⟩ := sdFetch_cases h
  · have hleft : ¬ (u.sdCtrl.valid = false ∨ u.sdCtrl.idx.toNat = selCount u.sdCtrl.sel) := by
      rw [← sdExhausted_iff, hx]
      exact Bool.false_ne_true
    obtain ⟨hnot, hne⟩ := not_or.mp hleft
    have hvalid : u.sdCtrl.valid = true := Bool.eq_true_of_not_eq_false hnot
    exact ⟨hs, hvalid, Nat.lt_of_le_of_ne (hs.wordHeld hvalid).2 hne⟩
  · refine ⟨{ hs with
      wordHeld := fun _ => ⟨rfl, Nat.zero_le _⟩
      wordClear := fun hv => Bool.noConfusion hv
      heldInReset := hs.notHeld rfl }, rfl, selCount_pos _⟩

/-- No count wraps the index (R101). -/
theorem toNat_idx_succ {c : SdCtrl} (h : c.idx.toNat < selCount c.sel) : (c.idx + 1).toNat = c.idx.toNat + 1 := by
  have hcount := selCount_lt c.sel
  rw [BitVec.toNat_add, show (1 : BitVec 8).toNat = 1 from rfl]
  exact Nat.mod_eq_of_lt (by omega)

theorem accepting_sdNextValue {s t : State} {v : Word} (hs : Accepting s) (h : sdNextValue s = .ok (v, t)) :
    Accepting t := by
  obtain ⟨u, hu, rfl⟩ := sdNextValue_ok h
  obtain ⟨ha, hvalid, hidx⟩ := accepting_sdFetch hs hu
  exact { ha with
    wordHeld := fun _ => ⟨(ha.wordHeld hvalid).1, (toNat_idx_succ hidx).trans_le hidx⟩
    wordClear := fun hv => absurd hv (by simp [hvalid])
    heldInReset := ha.notHeld rfl }

/-! ### Delta-of-delta -/

theorem nextPhase_ne_zero (p : Phase) : nextPhase p ≠ .zero := by
  cases p <;> decide

/-- Only the first value leaves a phase other than 2 (R52, R55). -/
theorem eq_zero_of_nextPhase_ne_two {p : Phase} (h : nextPhase p ≠ .two) : p = .zero := by
  cases p with
  | zero => rfl
  | one => exact absurd rfl h
  | two => exact absurd rfl h

theorem accepting_dePush {s t : State} (hs : Accepting s) (h : dePush s = .ok t) : Accepting t := by
  obtain ⟨u, hu, rfl⟩ := dePush_cases h
  have ha := accepting_sePushValue hs hu
  refine { ha with
    encoderPhase := ⟨fun h0 => absurd h0 (nextPhase_ne_zero _), fun h2 => ?_⟩
    heldInReset := ha.notHeld rfl }
  have h0 : s.dePhase = .zero := eq_zero_of_nextPhase_ne_two h2
  simp [deDelta, h0]

theorem accepting_ddNext {s t : State} (hs : Accepting s) (h : ddNext s = .ok t) : Accepting t := by
  obtain ⟨e, u, hu, rfl⟩ := ddNext_cases h
  have ha := accepting_sdNextValue hs hu
  refine { ha with
    decoderPhase := ⟨fun h0 => absurd h0 (nextPhase_ne_zero _), fun h2 => ?_⟩
    heldInReset := ha.notHeld rfl }
  have h0 : s.ddPhase = .zero := eq_zero_of_nextPhase_ne_two h2
  simp [ddDeltaAfter, h0]

/-! ### Gorilla -/

/-- R57, R59: an active window belongs to a started stream and leaves at least one data bit. -/
def WindowInside (c : GorillaCtrl) : Prop := c.wvalid = true → c.started = true ∧ c.lzb.toNat + c.tzb.toNat ≤ 63

/-- The window of a non-zero XOR: clamping the leading count only shrinks it (R263, R264). -/
theorem windowInside_newWindow {x : Word} (hx : x ≠ 0) : WindowInside (newWindow x) := by
  intro _
  have hsum := clz64_add_ctz64_le x hx
  refine ⟨rfl, ?_⟩
  simp only [newWindow, BitVec.toNat_ofNat]
  omega

theorem windowInside_encodeRecord {last v : Word} {c : GorillaCtrl} (hc : WindowInside c) :
    WindowInside (encodeRecord last c v).ctrl := by
  unfold encodeRecord
  simp only
  split
  · rename_i hstart
    exact fun hv => absurd (hc hv).1 (by simp [hstart])
  · split
    · exact hc
    · rename_i hx
      split
      · exact hc
      · exact windowInside_newWindow hx

theorem accepting_gePut {s t : State} (hs : Accepting s) (h : gePut s = .ok t) : Accepting t := by
  obtain ⟨u, hu, rfl⟩ := gePut_cases h
  have ha := accepting_bitAppend hs hu
  exact { ha with
    encoderWindow := windowInside_encodeRecord hs.encoderWindow
    heldInReset := ha.notHeld rfl }

/-- A DB code names at least one data bit (R108). -/
theorem one_le_dbOfCode (c : Word) : 1 ≤ if c = 0 then 64 else c.toNat := by
  split
  · omega
  · rename_i hc
    exact Nat.pos_of_ne_zero fun h => hc (BitVec.eq_of_toNat_eq h)

/-- The check of R110 keeps a new window inside the 64 bits. -/
theorem accepting_gdNewWindow {s t : State} (hs : Accepting s) (hstart : s.gdCtrl.started = true)
    (h : gdNewWindow s = .ok t) : Accepting t := by
  obtain ⟨lz, c, s1, s2, h1, h2, hsum, rfl⟩ := gdNewWindow_ok h
  have ha := accepting_bitFetch (accepting_bitFetch hs h1) h2
  have hctrl : s2.gdCtrl = s.gdCtrl := by rw [bitFetch_frame h2, bitFetch_frame h1]
  have hdb := one_le_dbOfCode c
  refine { ha with
    decoderWindow := fun _ => ⟨hctrl ▸ hstart, ?_⟩
    heldInReset := ha.notHeld rfl }
  simp only [BitVec.toNat_setWidth, BitVec.toNat_ofNat]
  omega

theorem accepting_gdWindow {s t : State} (hs : Accepting s) (hstart : s.gdCtrl.started = true)
    (h : gdWindow s = .ok t) : Accepting t := by
  unfold gdWindow at h
  split at h
  · cases h
  · rename_i c s1 h1
    have ha := accepting_bitFetch hs h1
    have hctrl : s1.gdCtrl = s.gdCtrl := by rw [bitFetch_frame h1]
    split at h
    · exact accepting_gdNewWindow ha (hctrl ▸ hstart) h
    · split at h
      · cases h
      · exact Except.ok.inj h ▸ ha

theorem accepting_gdData {s t : State} (hs : Accepting s) (h : gdData s = .ok t) : Accepting t := by
  unfold gdData at h
  split at h
  · cases h
  · rename_i m s1 h1
    have ha := accepting_bitFetch hs h1
    cases h
    exact { ha with heldInReset := ha.notHeld rfl }

theorem accepting_gdRecord {s t : State} (hs : Accepting s) (h : gdRecord s = .ok t) : Accepting t := by
  unfold gdRecord at h
  split at h
  · split at h
    · cases h
    · rename_i v s1 h1
      have ha := accepting_bitFetch hs h1
      cases h
      exact { ha with
        decoderWindow := fun hv => ⟨rfl, (ha.decoderWindow hv).2⟩
        heldInReset := ha.notHeld rfl }
  · rename_i hstart
    split at h
    · cases h
    · rename_i c s1 h1
      have ha := accepting_bitFetch hs h1
      have hctrl : s1.gdCtrl = s.gdCtrl := by rw [bitFetch_frame h1]
      split at h
      · split at h
        · cases h
        · rename_i s2 h2
          have hstarted : s1.gdCtrl.started = true := hctrl ▸ Bool.eq_true_of_not_eq_false hstart
          exact accepting_gdData (accepting_gdWindow ha hstarted h2) h
      · exact Except.ok.inj h ▸ ha

/-! ### Commands and steps -/

/-- A read into `DOUT` keeps the invariant where the read does. -/
theorem accepting_toDout {r : Except ErrCode (Word × State)} {t : State} (h : toDout r = .ok t)
    (hr : ∀ v u, r = .ok (v, u) → Accepting u) : Accepting t := by
  obtain ⟨v, u, hu, rfl⟩ := toDout_ok h
  exact accepting_dout (hr v u hu) v

/-- Every effect of a command keeps the invariant. -/
theorem accepting_effect {i : Instr} {s t : State} (hs : Accepting s) (h : effect i s = .ok t) : Accepting t := by
  cases i with
  | nop => exact Except.ok.inj h ▸ hs
  | csrr n =>
    obtain ⟨c, _, rfl⟩ := csrr_ok h
    exact accepting_dout hs _
  | csrw n =>
    obtain ⟨c, _, hw⟩ := csrw_ok h
    exact accepting_writeCsr hs hw
  | clrerr => exact Except.ok.inj h ▸ accepting_clearError hs
  | sreset => exact Except.ok.inj h ▸ accepting_resetRegisters hs
  | bwPut w => exact accepting_bitAppend hs (bwPut_ok h)
  | brGet w => exact accepting_toDout (brGet_ok h) fun _ _ => accepting_bitFetch hs
  | brBit => exact accepting_toDout h fun _ _ => accepting_bitFetch hs
  | ywPut w => exact accepting_byteAppend hs (ywPut_ok h)
  | ywCpy => exact accepting_ywCpy hs h
  | yrGet w => exact accepting_toDout (yrGet_ok h) fun _ _ => accepting_byteFetch hs
  | yrSub => exact accepting_yrSub hs h
  | bwBlen | brEnd | zzEnc | zzDec => exact Except.ok.inj h ▸ accepting_dout hs _
  | sePush => exact accepting_sePushValue hs h
  | seFlush => exact accepting_seFlush hs h
  | sdNext => exact accepting_toDout h fun _ _ => accepting_sdNextValue hs
  | dePush => exact accepting_dePush hs h
  | ddNext => exact accepting_ddNext hs h
  | gePut => exact accepting_gePut hs h
  | gdNext =>
    obtain ⟨u, hu, rfl⟩ := gdNext_ok h
    exact accepting_dout (accepting_gdRecord hs hu) _
  | bwClr =>
    cases h
    exact { hs with bitsWritten := Nat.zero_le _, heldInReset := hs.notHeld rfl }
  | ywClr =>
    cases h
    exact { hs with bytesWritten := Nat.zero_le _, heldInReset := hs.notHeld rfl }
  | seClr => exact Except.ok.inj h ▸ accepting_seQ hs (Nat.zero_le 59)
  | sdClr =>
    cases h
    exact { hs with
      wordHeld := fun hv => Bool.noConfusion hv
      wordClear := fun _ => ⟨rfl, rfl, rfl⟩
      heldInReset := hs.notHeld rfl }
  | deClr =>
    cases h
    exact { hs with
      encoderPhase := ⟨fun _ => rfl, fun _ => rfl⟩
      heldInReset := hs.notHeld rfl }
  | ddClr =>
    cases h
    exact { hs with
      decoderPhase := ⟨fun _ => rfl, fun _ => rfl⟩
      heldInReset := hs.notHeld rfl }
  | geClr =>
    cases h
    exact { hs with
      encoderWindow := fun hv => Bool.noConfusion hv
      heldInReset := hs.notHeld rfl }
  | gdClr =>
    cases h
    exact { hs with
      decoderWindow := fun hv => Bool.noConfusion hv
      heldInReset := hs.notHeld rfl }

/-- Every command keeps the invariant: it does nothing, completes, or raises. -/
theorem accepting_exec {i : Instr} {s t : State} (hs : Accepting s) (h : exec i s = .next t) : Accepting t := by
  obtain rfl | hok | ⟨e, he, rfl⟩ := exec_cases h
  · exact hs
  · exact accepting_effect hs hok
  · exact accepting_raised hs (effect_error_ne_noError he)

/-- Presenting a command word keeps the invariant, in reset or not, whatever the word (R96, R301, R341). -/
theorem inv_acceptCommand {s t : State} {c : CommandWord} {d : Word} (hs : s.Inv)
    (h : acceptCommand s c d = .next t) : t.Inv := by
  unfold acceptCommand at h
  split at h
  · exact Host.Outcome.next.inj h ▸ hs
  · rename_i hr
    have hlatched : Accepting (s.latch d) := accepting_latch { hs with released := Bool.eq_false_of_not_eq_true hr } d
    split at h
    · exact (accepting_exec hlatched h).toInv
    · obtain rfl | hcase | ⟨e, he, rfl⟩ := complete_cases (r := .error .illegal) h
      · exact hlatched.toInv
      · cases hcase
      · exact (accepting_raised hlatched (Except.error.inj he ▸ by decide)).toInv

/-- The host's list is no register: taking an action from it keeps the invariant. -/
theorem inv_pending {s : State} (hs : s.Inv) (rest : List HostAction) : State.Inv { s with pending := rest } :=
  { hs with heldInReset := fun h => congrArg (fun u : State => { u with pending := rest }) (hs.heldInReset h) }

/-- A host write stays below MEM_BYTES (R360) and, in reset, leaves the registers alone (R60). -/
theorem inv_hostWrite {s t : State} {a : Addr} {b : Byte} (hs : s.Inv) (h : hostWrite s a b = .next t) : t.Inv := by
  unfold hostWrite at h
  split at h
  · rename_i ha
    cases h
    exact { hs with
      memCanonical := wf_write _ _ _ hs.memCanonical
      memInside := below_write _ _ _ _ hs.memInside ha
      heldInReset := fun hr =>
        congrArg (fun u : State => { u with mem := Memory.write s.mem a.toNat b }) (hs.heldInReset hr) }
  · cases h

theorem inv_hostRead {s t : State} {a : Addr} (hs : s.Inv) (h : hostRead s a = .next t) : t.Inv := by
  unfold hostRead at h
  split at h
  · exact Host.Outcome.next.inj h ▸ hs
  · cases h

theorem inv_leaveReset {s : State} (hs : s.Inv) : s.leaveReset.Inv :=
  { hs with heldInReset := fun h => Bool.noConfusion h }

/-- Every action of the host keeps the invariant. -/
theorem inv_takeAction {a : HostAction} {s t : State} (hs : s.Inv) (h : takeAction a s = .next t) : t.Inv := by
  cases a with
  | command c d => exact inv_acceptCommand hs h
  | memWrite addr byte => exact inv_hostWrite hs h
  | memRead addr => exact inv_hostRead hs h
  | assertReset => exact Host.Outcome.next.inj h ▸ inv_cleared hs true
  | releaseReset => exact Host.Outcome.next.inj h ▸ inv_leaveReset hs

/-- Settles O9: a step is nothing or one action of the host, and every action keeps the invariant. -/
theorem stepKeepsInvariant : Obligations.StepKeepsInvariant := by
  intro s t hs h
  unfold step at h
  split at h
  · exact Host.Outcome.next.inj h ▸ hs
  · exact inv_takeAction (inv_pending hs _) h

end Sys2Proof.Proofs

/-! What changes what: engine state, positions and host registers against the commands that write them (R25 to R59). Each
clause is read off the commands' footprints. -/

namespace Sys2Proof.Proofs

open Sys2Proof Sys2Proof.Machine Sys2Proof.Laws

/-- The number of a CSR in the map of R26. -/
def csrNumber : Csr → BitVec 8
  | .status => 0x00
  | .config => 0x01
  | .memsz => 0x02
  | .bwBase => 0x10
  | .bwCap => 0x11
  | .bwBits => 0x12
  | .brBase => 0x20
  | .brLen => 0x21
  | .brPos => 0x22
  | .ywBase => 0x30
  | .ywCap => 0x31
  | .ywLen => 0x32
  | .yrBase => 0x40
  | .yrLen => 0x41
  | .yrPos => 0x42
  | .seCnt => 0x60
  | .sdWord => 0x70
  | .sdCtrl => 0x71
  | .dePrev => 0x80
  | .dePdelta => 0x81
  | .dePhase => 0x82
  | .ddLast => 0x90
  | .ddDelta => 0x91
  | .ddPhase => 0x92
  | .geLast => 0xA0
  | .geCtrl => 0xA1
  | .gdLast => 0xB0
  | .gdCtrl => 0xB1

/-- No two numbers name one CSR (R26). -/
theorem eq_csrNumber_of_csrOfNumber {n : BitVec 8} {c : Csr} (h : csrOfNumber n = some c) : n = csrNumber c := by
  unfold csrOfNumber at h
  split at h <;> cases h <;> rfl

/-- A `CSRW` changes `STATUS` alone, or it is the `CSRW` of one register's number and writes that register (R122). -/
theorem exec_csrw_cases {n : BitVec 8} {s t : State} (h : exec (.csrw n) s = .next t) :
    t = { s with status := t.status } ∨
      ∃ c, n = csrNumber c ∧ t = { csrFootprint c s t with status := t.status } := by
  have ht := exec_footprint h
  rw [footprint] at ht
  cases hn : csrOfNumber n with
  | none =>
    rw [hn] at ht
    exact .inl ht
  | some c =>
    rw [hn] at ht
    exact .inr ⟨c, eq_csrNumber_of_csrOfNumber hn, ht⟩

/-- Settles O14: the footprint of each command holds only the engine state its family's rules name, and a `CSRW` writes
engine state only at the numbers of `BR_POS` and `YR_POS`. -/
theorem engineStateWrittenOnlyByItsFamily : Obligations.EngineStateWrittenOnlyByItsFamily := by
  intro i s t h hi
  cases i with
  | sreset => exact absurd rfl hi
  | csrw n =>
    obtain ht | ⟨c, rfl, ht⟩ := exec_csrw_cases h
    · rw [ht]
      simp
    · rw [ht]
      cases c <;> simp [csrFootprint, csrNumber]
  | _ =>
    rw [exec_footprint h]
    simp [footprint]

/-- An unhalted next state of a command other than `CLRERR` and `SRESET` has the `STATUS` it had (R31). -/
theorem exec_status {i : Instr} {s t : State} (h : exec i s = .next t) (hr : i ≠ .sreset) (hc : i ≠ .clrerr)
    (ht : t.halted = false) : t.status = s.status := by
  obtain rfl | hok | ⟨e, _, rfl⟩ := exec_cases h
  · rfl
  · exact effect_status hok hr hc
  · exact Bool.noConfusion ht

/-- Every clause of O15 but the one on `STATUS`: the registers the host alone writes, each against its own `CSRW`, `DOUT`
against the commands of R95, and what no command writes. -/
theorem hostRegisters_of_exec {i : Instr} {s t : State} (h : exec i s = .next t) (hi : i ≠ .sreset) :
    ((t.tailPad ≠ s.tailPad → i = .csrw 0x01) ∧
      (t.bwBase ≠ s.bwBase → i = .csrw 0x10) ∧ (t.bwCap ≠ s.bwCap → i = .csrw 0x11) ∧
      (t.brBase ≠ s.brBase → i = .csrw 0x20) ∧ (t.brLen ≠ s.brLen → i = .csrw 0x21) ∧
      (t.ywBase ≠ s.ywBase → i = .csrw 0x30) ∧ (t.ywCap ≠ s.ywCap → i = .csrw 0x31) ∧
      (t.yrBase ≠ s.yrBase → i = .csrw 0x40) ∧ (t.yrLen ≠ s.yrLen → i = .csrw 0x41)) ∧
    (t.dout ≠ s.dout → (∃ n, i = .csrr n ∨ i = .brGet n ∨ i = .yrGet n) ∨
      i ∈ [Instr.bwBlen, .brBit, .brEnd, .yrSub, .zzEnc, .zzDec, .sdNext, .dePush, .ddNext, .gdNext]) ∧
    t.din = s.din ∧ t.memBytes = s.memBytes ∧ t.inReset = s.inReset ∧ t.pending = s.pending := by
  cases i with
  | sreset => exact absurd rfl hi
  | csrw n =>
    obtain ht | ⟨c, rfl, ht⟩ := exec_csrw_cases h
    · rw [ht]
      simp
    · rw [ht]
      cases c <;> simp [csrFootprint, csrNumber]
  | _ =>
    rw [exec_footprint h]
    simp [footprint]

/-- Settles O15: the footprints give every clause but that of `STATUS`, which a completed command other than `CLRERR`
leaves alone. -/
theorem hostRegistersWrittenOnlyByCsrw : Obligations.HostRegistersWrittenOnlyByCsrw := by
  intro i s t h hi
  obtain ⟨⟨hpad, hbwb, hbwc, hbrb, hbrl, hywb, hywc, hyrb, hyrl⟩, hdout, hkept⟩ := hostRegisters_of_exec h hi
  refine ⟨hpad, hbwb, hbwc, hbrb, hbrl, hywb, hywc, hyrb, hyrl, hdout, fun hne => ?_, hkept⟩
  by_contra hcon
  obtain ⟨hrun, hclrerr⟩ := not_or.mp hcon
  exact hne (exec_status h hi hclrerr (Bool.eq_false_of_not_eq_true hrun))

end Sys2Proof.Proofs

/-! Command words: which are illegal (R97), and what a step does with the word presented (R20, R21, R96). -/

namespace Sys2Proof.Proofs

open Sys2Proof Sys2Proof.Machine Sys2Proof.Laws

/-! ### The step that presents a command word -/

/-- A word that decodes is executed on the state that holds its operand (R20, R21). -/
theorem step_of_decode_ok {s : State} {c : CommandWord} {d : Word} {rest : List HostAction} {i : Instr}
    (hr : s.inReset = false) (hp : s.pending = .command c d :: rest) (hd : decode c = .ok i) :
    step s = exec i { s with pending := rest, din := d } := by
  simp only [step, hp, takeAction, acceptCommand, hr, hd, Bool.false_eq_true, if_false]
  rfl

/-- A word that does not decode raises ERR_ILLEGAL on the state that holds its operand (R96, R301). -/
theorem step_of_decode_error {s : State} {c : CommandWord} {d : Word} {rest : List HostAction} {e : IllegalWord}
    (hr : s.inReset = false) (hp : s.pending = .command c d :: rest) (hd : decode c = .error e) :
    step s = illegalWord { s with pending := rest, din := d } := by
  simp only [step, hp, takeAction, acceptCommand, hr, hd, Bool.false_eq_true, if_false]
  rfl

/-- Settles O5, by the rule for a step whose word decodes. -/
theorem stepRunsThePresentedCommand : Obligations.StepRunsThePresentedCommand :=
  fun _ _ _ _ _ hr hp hd => step_of_decode_ok hr hp hd

/-! ### The format checks, format by format (R91, R96) -/

/-- A check passes where its condition fails, and then the rest decides. -/
theorem exists_ok_ite_error {p : Prop} [Decidable p] {e : IllegalWord} {r : Except IllegalWord Instr} :
    (∃ j, (if p then .error e else r) = .ok j) ↔ ¬ p ∧ ∃ j, r = .ok j := by
  split <;> simp [*]

theorem decodeFields_formatN_iff (i : Instr) (w r : BitVec 8) :
    (∃ j, decodeFields (.formatN i) w r = .ok j) ↔ w.toNat = 0 ∧ r.toNat = 0 :=
  exists_ok_ite_error.trans (by simp [BitVec.toNat_eq])

theorem decodeFields_formatW_iff (legal : BitVec 8 → Bool) (mk : BitVec 8 → Instr) (w r : BitVec 8) :
    (∃ j, decodeFields (.formatW legal mk) w r = .ok j) ↔ r.toNat = 0 ∧ legal w = true := by
  refine exists_ok_ite_error.trans ?_
  cases legal w <;> simp [BitVec.toNat_eq]

theorem decodeFields_formatR_iff (mk : BitVec 8 → Instr) (w r : BitVec 8) :
    (∃ j, decodeFields (.formatR mk) w r = .ok j) ↔ w.toNat = 0 :=
  exists_ok_ite_error.trans (by simp [BitVec.toNat_eq])

/-- A word decodes when `Z` is 0, its opcode is in the map, and its fields pass their format (R96). -/
theorem decode_ok_iff (c : CommandWord) :
    (∃ i, decode c = .ok i) ↔
      (fieldZ c).toNat = 0 ∧ ∃ e, opcodeEntry (fieldOp c) = some e ∧ ∃ i, decodeFields e (fieldW c) (fieldR c) = .ok i := by
  unfold decode
  by_cases hz : fieldZ c = 0#8
  · cases opcodeEntry (fieldOp c) <;> simp [hz]
  · have hz' : (fieldZ c).toNat ≠ 0 := fun h => hz (BitVec.eq_of_toNat_eq h)
    simp [hz, hz']

/-! ### The opcode map as numbers (R95) -/

/-- The reserved opcodes (R95). -/
def ReservedOpcode (op : Nat) : Prop :=
  op = 0x00 ∨ (0x06 ≤ op ∧ op ≤ 0x0F) ∨ (0x13 ≤ op ∧ op ≤ 0x1F) ∨ (0x23 ≤ op ∧ op ≤ 0x2F) ∨
    (0x33 ≤ op ∧ op ≤ 0x3F) ∨ (0x42 ≤ op ∧ op ≤ 0x4F) ∨ (0x52 ≤ op ∧ op ≤ 0x5F) ∨ (0x63 ≤ op ∧ op ≤ 0x6F) ∨
    (0x72 ≤ op ∧ op ≤ 0x7F) ∨ (0x82 ≤ op ∧ op ≤ 0x8F) ∨ (0x92 ≤ op ∧ op ≤ 0x9F) ∨ (0xA2 ≤ op ∧ op ≤ 0xAF) ∨
    (0xB2 ≤ op ∧ op ≤ 0xFF)

/-- The map has no entry exactly at the reserved opcodes (R95): every one of the 256 is looked at. -/
theorem opcodeEntry_isNone_iff (op : BitVec 8) : (opcodeEntry op).isNone = true ↔ ReservedOpcode op.toNat := by
  unfold ReservedOpcode
  revert op
  decide

/-- The format of each opcode in the map (R91, R95). -/
theorem opcodeEntry_format {op : BitVec 8} {e : OpcodeEntry} (h : opcodeEntry op = some e) :
    ((op.toNat = 0x02 ∨ op.toNat = 0x03) ∧ ∃ mk, e = .formatR mk) ∨
    ((op.toNat = 0x11 ∨ op.toNat = 0x20) ∧ ∃ mk, e = .formatW legalBitCount mk) ∨
    ((op.toNat = 0x31 ∨ op.toNat = 0x40) ∧ ∃ mk, e = .formatW legalByteCount mk) ∨
    ((op.toNat ≠ 0x02 ∧ op.toNat ≠ 0x03 ∧ op.toNat ≠ 0x11 ∧ op.toNat ≠ 0x20 ∧ op.toNat ≠ 0x31 ∧ op.toNat ≠ 0x40) ∧
      ∃ i, e = .formatN i) := by
  unfold opcodeEntry at h
  split at h <;> cases h <;> simp

/-! ### The illegal words (R97) -/

/-- R97's condition on the four fields of a word. -/
def IllegalFields (op w r z : Nat) : Prop :=
  z ≠ 0 ∨ ReservedOpcode op ∨ (r ≠ 0 ∧ op ≠ 0x02 ∧ op ≠ 0x03) ∨
    (w ≠ 0 ∧ op ≠ 0x11 ∧ op ≠ 0x20 ∧ op ≠ 0x31 ∧ op ≠ 0x40) ∨
    ((op = 0x11 ∨ op = 0x20) ∧ 64 < w) ∨
    ((op = 0x31 ∨ op = 0x40) ∧ w ≠ 1 ∧ w ≠ 2 ∧ w ≠ 4 ∧ w ≠ 8)

/-- The format checks of a word whose opcode is in the map are R97's conditions on `W` and `R`. -/
theorem decodeFields_ok_iff {op w r : BitVec 8} {e : OpcodeEntry} (h : opcodeEntry op = some e) :
    (∃ i, decodeFields e w r = .ok i) ↔ ¬ IllegalFields op.toNat w.toNat r.toNat 0 := by
  have hres : ¬ ReservedOpcode op.toNat := by simp [← opcodeEntry_isNone_iff, h]
  simp only [IllegalFields, hres, ne_eq, not_true_eq_false, false_or]
  obtain ⟨hop, mk, rfl⟩ | ⟨hop, mk, rfl⟩ | ⟨hop, mk, rfl⟩ | ⟨hop, i, rfl⟩ := opcodeEntry_format h
  · rw [decodeFields_formatR_iff]
    omega
  · rw [decodeFields_formatW_iff, legalBitCount_iff]
    omega
  · rw [decodeFields_formatW_iff, legalByteCount_iff]
    omega
  · rw [decodeFields_formatN_iff]
    omega

/-- A word decodes exactly when R97 does not call it illegal. -/
theorem decode_ok_iff_legal (c : CommandWord) :
    (∃ i, decode c = .ok i) ↔
      ¬ IllegalFields (c.toNat % 256) (c.toNat / 2 ^ 8 % 256) (c.toNat / 2 ^ 16 % 256) (c.toNat / 2 ^ 24) := by
  rw [← toNat_fieldOp, ← toNat_fieldW, ← toNat_fieldR, ← toNat_fieldZ, decode_ok_iff]
  by_cases hz : (fieldZ c).toNat = 0
  · rw [hz]
    cases he : opcodeEntry (fieldOp c) with
    | none =>
      have hres : ReservedOpcode (fieldOp c).toNat := (opcodeEntry_isNone_iff _).mp (by simp [he])
      simp [IllegalFields, hres]
    | some e => simpa using decodeFields_ok_iff he
  · simp [IllegalFields, hz]

/-- Settles O3: the decoder accepts exactly the words R97 leaves legal, and a word it does not accept raises. -/
theorem illegalWordsAreExactlyThoseOfR97 : Obligations.IllegalWordsAreExactlyThoseOfR97 := by
  intro c
  refine ⟨(decode_ok_iff_legal c).mpr, fun hill s d rest hr hrun hp => ?_⟩
  cases hd : decode c with
  | ok i => exact absurd hill ((decode_ok_iff_legal c).mp ⟨i, hd⟩)
  | error e =>
    rw [step_of_decode_error hr hp hd]
    exact congrArg Host.Outcome.next (raise_of_running { s with pending := rest, din := d } .illegal hrun)

end Sys2Proof.Proofs

/-! Where the fields of the status and control words lie (R31 to R59). -/

namespace Sys2Proof.Proofs

open Sys2Proof Sys2Proof.Machine Sys2Proof.Laws

/-- A field placed above the bits in use adds its value times its place. -/
theorem toNat_or_shiftLeft {x y : Word} {k : Nat} (hx : x.toNat < 2 ^ k) (hy : 2 ^ k * y.toNat < 2 ^ 64) :
    (x ||| y <<< k).toNat = x.toNat + 2 ^ k * y.toNat := by
  rw [BitVec.toNat_or, BitVec.toNat_shiftLeft, Nat.shiftLeft_eq, Nat.mul_comm, Nat.mod_eq_of_lt hy, Nat.or_comm,
    ← Nat.two_pow_add_eq_or_of_lt hx, Nat.add_comm]

/-- A field is not cut when it is widened to a CSR. -/
theorem toNat_widened {n : Nat} (hn : n ≤ 64) (x : BitVec n) : (x.setWidth 64).toNat = x.toNat :=
  BitVec.toNat_setWidth_of_le hn

/-- `FAULT` above the four bits of `ERR` (R31). -/
theorem toNat_statusWord (x : Status) : (statusWord x).toNat = (errNumber x.err).toNat + 16 * x.fault.toNat := by
  rw [statusWord, toNat_widened (by decide), statusBits, BitVec.toNat_append,
    ← Nat.shiftLeft_add_eq_or_of_lt (errNumber x.err).isLt, Nat.shiftLeft_eq, BitVec.toNat_ofBool]
  omega

theorem toNat_configWord (p : Bool) : (configWord p).toNat = p.toNat := by
  rw [configWord, toNat_widened (by decide), BitVec.toNat_ofBool]

/-- Six bits hold every occupancy the FIFO has (R46, R212). -/
theorem toNat_seCntWord {q : List Packable} (hq : q.length ≤ 60) : (seCntWord q).toNat = q.length := by
  rw [seCntWord, toNat_widened (by decide), BitVec.toNat_ofNat, Nat.mod_eq_of_lt (by omega)]

/-- `SEL`, `IDX` and `VALID` at bits 0, 8 and 16 (R49). -/
theorem toNat_sdCtrlWord (x : SdCtrl) :
    (sdCtrlWord x).toNat = x.sel.toNat + 2 ^ 8 * x.idx.toNat + 2 ^ 16 * x.valid.toNat := by
  have hsel := x.sel.isLt
  have hidx := x.idx.isLt
  have hvalid := x.valid.toNat_le
  have e0 : (x.sel.setWidth 64).toNat = x.sel.toNat := toNat_widened (by decide) _
  have e1 : (x.idx.setWidth 64).toNat = x.idx.toNat := toNat_widened (by decide) _
  have e2 : ((BitVec.ofBool x.valid).setWidth 64).toNat = x.valid.toNat := toNat_configWord _
  have h1 := toNat_or_shiftLeft (x := x.sel.setWidth 64) (y := x.idx.setWidth 64) (k := 8) (by omega) (by omega)
  rw [sdCtrlWord, toNat_or_shiftLeft (by omega) (by omega), h1, e0, e1, e2]

/-- `STARTED`, `WVALID`, `LZB` and `TZB` at bits 0, 1, 8 and 16 (R57, R59). -/
theorem toNat_gorillaCtrlWord (x : GorillaCtrl) :
    (gorillaCtrlWord x).toNat =
      x.started.toNat + 2 * x.wvalid.toNat + 2 ^ 8 * x.lzb.toNat + 2 ^ 16 * x.tzb.toNat := by
  have hstart := x.started.toNat_le
  have hwvalid := x.wvalid.toNat_le
  have hlzb := x.lzb.isLt
  have htzb := x.tzb.isLt
  have e0 : ((BitVec.ofBool x.started).setWidth 64).toNat = x.started.toNat := toNat_configWord _
  have e1 : ((BitVec.ofBool x.wvalid).setWidth 64).toNat = x.wvalid.toNat := toNat_configWord _
  have e2 : (x.lzb.setWidth 64).toNat = x.lzb.toNat := toNat_widened (by decide) _
  have e3 : (x.tzb.setWidth 64).toNat = x.tzb.toNat := toNat_widened (by decide) _
  rw [gorillaCtrlWord]
  have h1 := toNat_or_shiftLeft (x := (BitVec.ofBool x.started).setWidth 64)
    (y := (BitVec.ofBool x.wvalid).setWidth 64) (k := 1) (by omega) (by omega)
  have h2 := toNat_or_shiftLeft (x := (BitVec.ofBool x.started).setWidth 64 ||| (BitVec.ofBool x.wvalid).setWidth 64 <<< 1)
    (y := x.lzb.setWidth 64) (k := 8) (by omega) (by omega)
  rw [toNat_or_shiftLeft (by omega) (by omega), h2, h1, e0, e1, e2, e3]
  omega

/-- Settles O18, word by word: each packed word is the sum of its fields times their places. -/
theorem csrFieldLayout : Obligations.CsrFieldLayout :=
  ⟨toNat_statusWord, rfl, toNat_configWord, fun _ => toNat_seCntWord, toNat_sdCtrlWord, rfl, toNat_gorillaCtrlWord⟩

end Sys2Proof.Proofs

/-! The bit and byte buffers (R70 to R79): what each of their commands leaves behind, when it raises, and where in MEM a
command can write. -/

namespace Sys2Proof.Proofs

open Sys2Proof Sys2Proof.Machine Sys2Proof.Laws

/-! ### A running block and the outcome of an effect -/

/-- A running block takes the state of a completed effect (R303). -/
theorem exec_of_effect_ok {i : Instr} {s t : State} (hs : s.halted = false) (h : effect i s = .ok t) :
    exec i s = .next t := by
  rw [exec_eq, dataCommand_of_running s _ hs, ite_self, h, complete_ok]

/-- A running block records the error of an effect and changes nothing else (R302, R303). -/
theorem exec_of_effect_error {i : Instr} {s : State} {e : ErrCode} (hs : s.halted = false) (h : effect i s = .error e) :
    exec i s = .next { s with status := { err := e, fault := true } } := by
  rw [exec_eq, dataCommand_of_running s _ hs, ite_self, h, complete_error, raise_of_running s e hs]

/-- A running block ends halted with an error's code only where the effect raises that error; `CLRERR` and SRESET, which
write `STATUS` themselves, apart. -/
theorem exec_raises_iff {i : Instr} {s : State} {e : ErrCode} (hs : s.halted = false) (hr : i ≠ .sreset)
    (hc : i ≠ .clrerr) :
    exec i s = .next { s with status := { err := e, fault := true } } ↔ effect i s = .error e := by
  refine ⟨fun h => ?_, exec_of_effect_error hs⟩
  cases hi : effect i s with
  | ok t =>
    rw [exec_of_effect_ok hs hi] at h
    have hstatus : t.status = s.status := effect_status hi hr hc
    have hfault : t.status.fault = true := by rw [Host.Outcome.next.inj h]
    rw [hstatus] at hfault
    exact absurd (hs.symm.trans hfault) Bool.false_ne_true
  | error e' =>
    rw [exec_of_effect_error hs hi] at h
    have hcode : e' = e := congrArg (fun t : State => t.status.err) (Host.Outcome.next.inj h)
    rw [hcode]

/-- A running block that a command leaves running has its effect. -/
theorem effect_ok_of_exec {i : Instr} {s t : State} (hs : s.halted = false) (h : exec i s = .next t)
    (ht : t.halted = false) : effect i s = .ok t := by
  cases hi : effect i s with
  | ok u =>
    rw [exec_of_effect_ok hs hi] at h
    rw [Host.Outcome.next.inj h]
  | error e =>
    rw [exec_of_effect_error hs hi] at h
    rw [← Host.Outcome.next.inj h] at ht
    exact Bool.noConfusion ht

/-! ### Legal and illegal widths (R92, log entry 6) -/

theorem bwPut_of_legal {w : BitVec 8} (s : State) (hw : w.toNat ≤ 64) :
    bwPut w s = bitAppend ((s.din &&& mask w.toNat).setWidth 77) w.toNat s :=
  if_pos ((legalBitCount_iff w).mpr hw)

theorem bwPut_of_illegal {w : BitVec 8} (s : State) (hw : ¬ w.toNat ≤ 64) : bwPut w s = .error .illegal :=
  if_neg (mt (legalBitCount_iff w).mp hw)

theorem brGet_of_legal {w : BitVec 8} (s : State) (hw : w.toNat ≤ 64) : brGet w s = toDout (bitFetch w.toNat s) :=
  if_pos ((legalBitCount_iff w).mpr hw)

theorem brGet_of_illegal {w : BitVec 8} (s : State) (hw : ¬ w.toNat ≤ 64) : brGet w s = .error .illegal :=
  if_neg (mt (legalBitCount_iff w).mp hw)

/-- The legal widths of the byte commands (R92). -/
def ByteWidth (w : BitVec 8) : Prop := w.toNat = 1 ∨ w.toNat = 2 ∨ w.toNat = 4 ∨ w.toNat = 8

theorem byteWidth_bounds {w : BitVec 8} (hw : ByteWidth w) : 1 ≤ w.toNat ∧ w.toNat ≤ 8 := by
  obtain h | h | h | h := hw <;> omega

theorem ywPut_of_legal {w : BitVec 8} (s : State) (hw : ByteWidth w) :
    ywPut w s = byteAppend (bytesLE s.din w.toNat) s :=
  if_pos ((legalByteCount_iff w).mpr hw)

theorem ywPut_of_illegal {w : BitVec 8} (s : State) (hw : ¬ ByteWidth w) : ywPut w s = .error .illegal :=
  if_neg (mt (legalByteCount_iff w).mp hw)

theorem yrGet_of_legal {w : BitVec 8} (s : State) (hw : ByteWidth w) : yrGet w s = toDout (byteFetch w.toNat s) :=
  if_pos ((legalByteCount_iff w).mpr hw)

theorem yrGet_of_illegal {w : BitVec 8} (s : State) (hw : ¬ ByteWidth w) : yrGet w s = .error .illegal :=
  if_neg (mt (legalByteCount_iff w).mp hw)

/-! ### The bit writer (R70 to R72, R141) -/

/-- The low `w` bits of a value are kept by masking and widening it. -/
theorem getLsbD_masked {x : Word} {w j : Nat} (hw : w ≤ 64) (hj : j < w) :
    ((x &&& mask w).setWidth 77).getLsbD j = x.getLsbD j := by
  rw [BitVec.getLsbD_setWidth, BitVec.getLsbD_and, getLsbD_mask]
  simp [hj, show j < 64 by omega, show j < 77 by omega]

/-- No bits appended is the memory as it stood: the padding of the last word stays too. -/
theorem bitsAppended_none (s : State) (f : Nat → Bool) : BitsAppended s s.mem 0 f := by
  refine ⟨fun j hj => absurd hj (Nat.not_lt_zero j), fun _ _ => rfl, fun p hlo hhi => ?_, fun _ _ => rfl⟩
  have hpartial : ¬ s.bwBits.toNat ≤ 64 * (p / 64) := by
    unfold wordsFor at hhi
    omega
  rw [if_neg hpartial]

/-- `BitAppend` with room, or of no bits, completes and leaves the stream of R70 to R72. -/
theorem bitAppend_appends {v : BitVec 77} {n : Nat} {s : State} {f : Nat → Bool} (hm : Memory.wf s.mem = true)
    (hroom : n = 0 ∨ BitRoom s n) (hf : ∀ j < n, v.getLsbD j = f j) :
    ∃ t, bitAppend v n s = .ok t ∧ t = { s with mem := t.mem, bwBits := t.bwBits } ∧
      t.bwBits.toNat = s.bwBits.toNat + n ∧ BitsAppended s t.mem n f := by
  by_cases hn : n = 0
  · subst hn
    exact ⟨s, bitAppend_zero v s, rfl, rfl, bitsAppended_none s f⟩
  · have hr : BitRoom s n := hroom.resolve_left hn
    exact ⟨_, bitAppend_of_room v n s hn hr, rfl, bwBits_after s n hr.1, bitsAppended_appendedMem v n s f hm hf⟩

/-- Settles O22: the masked and widened operand has the low bits of `DIN`, and a `BitAppend` with room appends them. -/
theorem bitPutAppendsLowBits : Obligations.BitPutAppendsLowBits := by
  intro s w hs hm hw hroom
  obtain ⟨t, hput, hrest⟩ := bitAppend_appends hm hroom fun j hj => getLsbD_masked (x := s.din) hw hj
  exact ⟨t, exec_of_effect_ok hs ((bwPut_of_legal s hw).trans hput), hrest⟩

/-- Settles O23: a legal width raises what its `BitAppend` raises. -/
theorem bitPutErrors : Obligations.BitPutErrors := by
  intro s w hs
  refine ⟨fun ⟨hpos, hw⟩ hcap => ?_, fun ⟨hpos, hw⟩ hcap hbus => ?_, fun hw => ?_⟩
  · have hraise := (bitAppend_raises ((s.din &&& mask w.toNat).setWidth 77) w.toNat s (by omega)).1 hcap
    exact exec_of_effect_error hs ((bwPut_of_legal s hw).trans hraise)
  · have hraise := (bitAppend_raises ((s.din &&& mask w.toNat).setWidth 77) w.toNat s (by omega)).2 hcap hbus
    exact exec_of_effect_error hs ((bwPut_of_legal s hw).trans hraise)
  · exact exec_of_effect_error hs (bwPut_of_illegal s (by omega))

/-! ### The bit cursor (R74, R76, R150, R151) -/

/-- A fetch of readable bits into `DOUT` returns the view's bits and advances `BR_POS` past them (R74). -/
theorem toDout_bitFetch_of_readable {n : Nat} {s : State} (h : BitsReadable s n) :
    ∃ t, toDout (bitFetch n s) = .ok t ∧ t = { s with dout := t.dout, brPos := t.brPos } ∧
      t.brPos.toNat = s.brPos.toNat + n ∧ t.dout = wordOfBits (viewBit s) n := by
  obtain ⟨hview, hmem⟩ := h
  rw [bitFetch_of_readable n s hview hmem]
  exact ⟨_, rfl, rfl, brPos_after s n hview, rfl⟩

/-- A word built from one bit is that bit. -/
theorem toNat_wordOfBits_one (f : Nat → Bool) : (wordOfBits f 1).toNat = (f 0).toNat := by
  cases h : f 0 <;> simp [wordOfBits, h]

/-- Settles O25: both commands fetch into `DOUT`, `BR.BIT` a field of one bit. -/
theorem bitGetReadsTheView : Obligations.BitGetReadsTheView := by
  intro s w hs hw
  refine ⟨fun hread => ?_, fun hread => ?_⟩
  · obtain ⟨t, hget, hframe, hpos, hdout⟩ := toDout_bitFetch_of_readable hread
    refine ⟨t, exec_of_effect_ok hs ((brGet_of_legal s hw).trans hget), hframe, hpos, fun j hj => ?_⟩
    rw [hdout, getLsbD_wordOfBits]
    simp [hj]
  · obtain ⟨t, hbit, hframe, hpos, hdout⟩ := toDout_bitFetch_of_readable hread
    refine ⟨t, exec_of_effect_ok hs hbit, hframe, hpos, ?_⟩
    rw [hdout, toNat_wordOfBits_one]

/-- A fetch has one of three outcomes, told apart by where its bits lie (R74, R304). -/
theorem bitFetch_error_iff (n : Nat) (s : State) :
    (bitFetch n s = .error .oob ↔ s.readableBits < s.brPos.toNat + n) ∧
    (bitFetch n s = .error .bus ↔
      s.brPos.toNat + n ≤ s.readableBits ∧ 0 < n ∧ s.memBytes < s.brBase.toNat + (s.brPos.toNat + n + 7) / 8) := by
  obtain ⟨hoob, hbus⟩ := bitFetch_raises n s
  by_cases hview : s.readableBits < s.brPos.toNat + n
  · rw [hoob hview]
    simp [hview]
  · by_cases hmem : 0 < n ∧ s.memBytes < s.brBase.toNat + (s.brPos.toNat + n + 7) / 8
    · rw [hbus (by omega) hmem.1 hmem.2]
      simp [hview, hmem, Nat.le_of_not_lt hview]
    · rw [bitFetch_of_readable n s (by omega) (by omega)]
      simp [hview, hmem]

/-- Settles O26: a running block ends halted exactly where the fetch raises. -/
theorem bitGetFailsExactlyPastTheEnd : Obligations.BitGetFailsExactlyPastTheEnd := by
  intro s w hs
  have hgetIff (e : ErrCode) (hw : w.toNat ≤ 64) :
      exec (.brGet w) s = .next { s with status := { err := e, fault := true } } ↔ bitFetch w.toNat s = .error e := by
    rw [exec_raises_iff hs (by simp) (by simp), effect, brGet_of_legal s hw, toDout_error_iff]
  have hbitIff (e : ErrCode) :
      exec .brBit s = .next { s with status := { err := e, fault := true } } ↔ bitFetch 1 s = .error e := by
    rw [exec_raises_iff hs (by simp) (by simp), effect, toDout_error_iff]
  refine ⟨fun hw => ⟨?_, ?_⟩, fun hw => ?_, ?_, ?_⟩
  · exact (hgetIff .oob hw).trans (bitFetch_error_iff _ s).1
  · exact (hgetIff .bus hw).trans (bitFetch_error_iff _ s).2
  · exact exec_of_effect_error hs (brGet_of_illegal s (by omega))
  · exact (hbitIff .oob).trans (bitFetch_error_iff 1 s).1
  · rw [hbitIff, (bitFetch_error_iff 1 s).2]
    simp only [State.readableBits, Nat.one_pos, true_and, Nat.add_assoc, Nat.reduceAdd]

/-! ### The byte writer (R77, R171, R172) -/

/-- A completed `ByteAppend` leaves its bytes in memory; of no bytes it leaves memory as it was (R77). -/
theorem bytesAppended_of_byteAppend {b : List Byte} {s t : State} (hm : Memory.wf s.mem = true)
    (h : byteAppend b s = .ok t) : BytesAppended s t.mem b := by
  cases b with
  | nil =>
    cases h
    exact bytesAppended_writeBytes s [] hm
  | cons x xs =>
    obtain ⟨_, _, rfl⟩ := byteAppend_ok h (Nat.succ_ne_zero _)
    exact bytesAppended_writeBytes s _ hm

/-- `ByteAppend` with room completes and leaves the bytes of R77; of no bytes it leaves everything as it was. -/
theorem byteAppend_appends {b : List Byte} {s : State} (hm : Memory.wf s.mem = true) (hroom : ByteRoom s b.length) :
    ∃ t, byteAppend b s = .ok t ∧ t = { s with mem := t.mem, ywLen := t.ywLen } ∧
      t.ywLen.toNat = s.ywLen.toNat + b.length ∧ BytesAppended s t.mem b := by
  obtain ⟨hcap, hbus⟩ := hroom
  cases b with
  | nil => exact ⟨s, byteAppend_nil s, rfl, rfl, bytesAppended_of_byteAppend hm (byteAppend_nil s)⟩
  | cons x xs =>
    have happend := byteAppend_of_room (x :: xs) s hcap hbus (Nat.succ_ne_zero _)
    exact ⟨_, happend, rfl, ywLen_after s _ hcap, bytesAppended_of_byteAppend hm happend⟩

/-- Settles O28: `YW.PUT` appends the operand's bytes in R65's order. -/
theorem bytePutAppendsLowBytes : Obligations.BytePutAppendsLowBytes := by
  intro s w hs hm hw hroom
  rw [← length_bytesLE s.din w.toNat] at hroom
  obtain ⟨t, hput, hframe, hlen, hmem⟩ := byteAppend_appends hm hroom
  rw [length_bytesLE] at hlen
  exact ⟨t, exec_of_effect_ok hs ((ywPut_of_legal s hw).trans hput), hframe, hlen, hmem⟩

/-- `YW.CPY` of no bytes does nothing (R172). -/
theorem ywCpy_of_count_zero {s : State} (h : cpyCount s.din = 0) : ywCpy s = .ok s :=
  if_pos h

/-- `YW.CPY` past its checks appends the source bytes read from the memory as it stood (R172). -/
theorem ywCpy_of_room {s : State} (hcap : s.ywLen.toNat + cpyCount s.din ≤ s.ywCap.toNat)
    (hsrc : cpySource s.din + cpyCount s.din ≤ s.memBytes) :
    ywCpy s = byteAppend (Memory.readBytes s.mem (cpySource s.din) (cpyCount s.din)) s := by
  by_cases hn : cpyCount s.din = 0
  · rw [ywCpy_of_count_zero hn, hn]
    exact (byteAppend_nil s).symm
  · unfold ywCpy
    simp only
    rw [if_neg hn, if_neg (by omega), if_neg (by omega)]

/-- When `YW.CPY` raises: capacity, then the source or the destination (R172, R304). -/
theorem ywCpy_raises {s : State} (hn : cpyCount s.din ≠ 0) :
    (s.ywCap.toNat < s.ywLen.toNat + cpyCount s.din → ywCpy s = .error .cap) ∧
    (s.ywLen.toNat + cpyCount s.din ≤ s.ywCap.toNat →
      (s.memBytes < cpySource s.din + cpyCount s.din ∨
        s.memBytes < s.ywBase.toNat + s.ywLen.toNat + cpyCount s.din) → ywCpy s = .error .bus) := by
  refine ⟨fun hcap => ?_, fun hcap hbus => ?_⟩
  · unfold ywCpy
    simp only
    rw [if_neg hn, if_pos hcap]
  · by_cases hsrc : cpySource s.din + cpyCount s.din ≤ s.memBytes
    · rw [ywCpy_of_room hcap hsrc]
      apply (byteAppend_raises _ s _).2 <;> rw [length_readBytes]
      · exact hcap
      · omega
      · exact hn
    · unfold ywCpy
      simp only
      rw [if_neg hn, if_neg (by omega), if_pos (by omega)]

/-- Settles O29: the bytes appended are read from the memory before the append. -/
theorem byteCopyMovesTheSource : Obligations.ByteCopyMovesTheSource := by
  intro s hs hm
  refine ⟨fun hn => exec_of_effect_ok hs (ywCpy_of_count_zero hn), fun hroom hsrc => ?_⟩
  have hcpy : ywCpy s = byteAppend (Memory.readBytes s.mem (cpySource s.din) (cpyCount s.din)) s :=
    ywCpy_of_room hroom.1 hsrc
  change ByteRoom s (cpyCount s.din) at hroom
  rw [← length_readBytes s.mem (cpySource s.din) (cpyCount s.din)] at hroom
  obtain ⟨t, happend, hframe, hlen, hmem⟩ := byteAppend_appends hm hroom
  rw [length_readBytes] at hlen
  exact ⟨t, exec_of_effect_ok hs (hcpy.trans happend), hframe, hlen, hmem⟩

/-! ### The byte cursor (R62, R78, R180) -/

/-- A fetch of readable bytes into `DOUT` returns their little-endian value and advances `YR_POS` past them (R78). -/
theorem toDout_byteFetch_of_readable {n : Nat} {s : State} (h : BytesReadable s n) :
    ∃ t, toDout (byteFetch n s) = .ok t ∧ t = { s with dout := t.dout, yrPos := t.yrPos } ∧
      t.yrPos.toNat = s.yrPos.toNat + n ∧ t.dout = Memory.readLE s.mem (s.yrBase.toNat + s.yrPos.toNat) n := by
  obtain ⟨hview, hmem⟩ := h
  rw [byteFetch_of_inside n s hview hmem]
  exact ⟨_, rfl, rfl, yrPos_after s n hview, rfl⟩

/-- An `n`-byte value has no bit at or above `8 * n`. -/
theorem toNat_readLE_lt (m : Memory) (a n : Nat) : (Memory.readLE m a n).toNat < 2 ^ (8 * n) := by
  apply Nat.lt_pow_two_of_testBit
  intro i hi
  rw [← BitVec.getLsbD, getLsbD_readLE]
  simp [Nat.not_lt.mpr hi]

/-- R62 written out: the little-endian value is the sum of its bytes times their places. -/
theorem toNat_readLE (m : Memory) (a : Nat) : ∀ n : Nat, n ≤ 8 →
    (Memory.readLE m a n).toNat = ((List.range n).map fun j => (Memory.read m (a + j)).toNat * 2 ^ (8 * j)).sum
  | 0, _ => rfl
  | n + 1, hn => by
    have hbyte : ((Memory.read m (a + n)).setWidth 64).toNat = (Memory.read m (a + n)).toNat :=
      toNat_widened (by decide) _
    have hfits : 2 ^ (8 * n) * ((Memory.read m (a + n)).setWidth 64).toNat < 2 ^ 64 := by
      calc 2 ^ (8 * n) * ((Memory.read m (a + n)).setWidth 64).toNat
          < 2 ^ (8 * n) * 2 ^ 8 := by
            rw [hbyte]
            exact Nat.mul_lt_mul_of_pos_left (Memory.read m (a + n)).isLt (Nat.two_pow_pos _)
        _ = 2 ^ (8 * n + 8) := (Nat.pow_add 2 (8 * n) 8).symm
        _ ≤ 2 ^ 64 := Nat.pow_le_pow_right (by decide) (by omega)
    rw [Memory.readLE, toNat_or_shiftLeft (toNat_readLE_lt m a n) hfits, toNat_readLE m a n (by omega), hbyte,
      List.range_succ]
    simp [Nat.mul_comm]

/-- Settles O31: the fetched value is the sum of R62. -/
theorem byteGetReadsLittleEndian : Obligations.ByteGetReadsLittleEndian := by
  intro s w hs hw hread
  obtain ⟨t, hget, hframe, hpos, hdout⟩ := toDout_byteFetch_of_readable hread
  refine ⟨t, exec_of_effect_ok hs ((yrGet_of_legal s hw).trans hget), hframe, hpos, ?_⟩
  rw [hdout]
  exact toNat_readLE _ _ _ (byteWidth_bounds hw).2

/-! ### The byte commands together: errors (R304) and reading back (R67) -/

/-- Settles O30: each command raises what its append, copy or fetch raises. -/
theorem byteBufferErrors : Obligations.ByteBufferErrors := by
  intro s w hs legal src n
  have hput (hw : legal) := byteAppend_raises (bytesLE s.din w.toNat) s
    (by rw [length_bytesLE]; have := byteWidth_bounds hw; omega)
  have hget := byteFetch_raises w.toNat s
  rw [length_bytesLE] at hput
  refine ⟨fun hw => ⟨?_, ?_⟩, fun hw hcap => ?_, fun hw hcap hbus => ?_, fun hn hcap => ?_, fun hn hcap hbus => ?_,
    fun hw hoob => ?_, fun hw hoob hbus => ?_⟩
  · exact exec_of_effect_error hs (ywPut_of_illegal s hw)
  · exact exec_of_effect_error hs (yrGet_of_illegal s hw)
  · exact exec_of_effect_error hs ((ywPut_of_legal s hw).trans ((hput hw).1 hcap))
  · exact exec_of_effect_error hs ((ywPut_of_legal s hw).trans ((hput hw).2 hcap hbus))
  · exact exec_of_effect_error hs ((ywCpy_raises hn).1 hcap)
  · exact exec_of_effect_error hs ((ywCpy_raises hn).2 hcap hbus)
  · exact exec_of_effect_error hs ((yrGet_of_legal s hw).trans ((toDout_error_iff _ _).mpr (hget.1 hoob)))
  · exact exec_of_effect_error hs ((yrGet_of_legal s hw).trans ((toDout_error_iff _ _).mpr (hget.2 hoob hbus)))

/-- Settles O33: the cursor reads the bytes of `DIN` where the writer left them. -/
theorem scalarReadsBackAsWritten : Obligations.ScalarReadsBackAsWritten := by
  intro s t u w hs hm hw hput ht hu hmem hread hplace
  have happend : byteAppend (bytesLE s.din w.toNat) s = .ok t := ywPut_ok (effect_ok_of_exec hs hput ht)
  obtain ⟨hwritten, -⟩ := bytesAppended_of_byteAppend hm happend
  obtain ⟨v, hget, -, -, hdout⟩ := toDout_byteFetch_of_readable hread
  refine ⟨v, exec_of_effect_ok hu ((yrGet_of_legal u hw).trans hget), ?_⟩
  rw [hdout, hplace, hmem]
  apply readLE_of_bytes
  intro j hj
  have hj' : j < (bytesLE s.din w.toNat).length := by rwa [length_bytesLE]
  rw [hwritten j hj', getElem_bytesLE]

/-! ### Where a command writes (R79) -/

/-- Settles O16: a command that changes MEM completed, and its effect's memory is that of a `BitAppend` or a
`ByteAppend`, or its footprint leaves MEM out. -/
theorem writersStayInTheirRegions : Obligations.WritersStayInTheirRegions := by
  intro i s t hm h a ha
  obtain rfl | hok | ⟨e, _, rfl⟩ := exec_cases h
  · exact absurd rfl ha
  · cases i with
    | bwPut w => exact .inl ⟨.inl ⟨w, rfl⟩, (bitAppend_mem (bwPut_ok hok) hm).2.2 a ha⟩
    | gePut =>
      obtain ⟨u, hu, rfl⟩ := gePut_cases hok
      exact .inl ⟨.inr rfl, (bitAppend_mem hu hm).2.2 a ha⟩
    | ywPut w => exact .inr ⟨.inl ⟨w, rfl⟩, (byteAppend_mem (ywPut_ok hok) hm).2.2 a ha⟩
    | ywCpy =>
      obtain rfl | hu := ywCpy_cases hok
      · exact absurd rfl ha
      · exact .inr ⟨.inr (by simp), (byteAppend_mem hu hm).2.2 a ha⟩
    | sePush => exact .inr ⟨.inr (by simp), (sePushValue_mem hok hm).2.2 a ha⟩
    | seFlush => exact .inr ⟨.inr (by simp), (byteAppend_mem hok hm).2.2 a ha⟩
    | dePush =>
      obtain ⟨u, hu, rfl⟩ := dePush_cases hok
      exact .inr ⟨.inr (by simp), (sePushValue_mem hu hm).2.2 a ha⟩
    | csrw n =>
      obtain ⟨c, _, hw⟩ := csrw_ok hok
      obtain ⟨hmem, -⟩ := writeCsr_frame hw
      exact absurd (congrArg (Memory.read · a) hmem) ha
    | sreset =>
      cases hok
      exact absurd rfl ha
    | _ => exact absurd (congrArg (fun u : State => Memory.read u.mem a) (effect_footprint hok)) ha
  · exact absurd rfl ha

end Sys2Proof.Proofs

/-! Decoding and encoding are inverse (R90 to R96): a word decodes to an instruction exactly when the instruction is
well-formed and the word is its encoding. -/

namespace Sys2Proof.Proofs

open Sys2Proof Sys2Proof.Machine Sys2Proof.Laws

/-! ### What a decoded word's fields are -/

/-- A word decodes to the instruction that its opcode's entry reads from its fields, if `Z` is 0 (R96). -/
theorem decode_eq_ok_iff_fields {c : CommandWord} {i : Instr} :
    decode c = .ok i ↔
      fieldZ c = 0 ∧ ∃ e, opcodeEntry (fieldOp c) = some e ∧ decodeFields e (fieldW c) (fieldR c) = .ok i := by
  unfold decode
  by_cases hz : fieldZ c = 0#8
  · cases opcodeEntry (fieldOp c) <;> simp [hz]
  · simp [hz]

/-- Format N carries no operand: `W` and `R` are 0 (R91). -/
theorem decodeFields_formatN_eq_ok {i j : Instr} {w r : BitVec 8} :
    decodeFields (.formatN i) w r = .ok j ↔ w = 0 ∧ r = 0 ∧ i = j := by
  by_cases hw : w = 0#8 <;> by_cases hr : r = 0#8 <;> simp [decodeFields, hw, hr]

/-- Format W carries a legal `W` as its operand, and `R` is 0 (R91, R92). -/
theorem decodeFields_formatW_eq_ok {legal : BitVec 8 → Bool} {mk : BitVec 8 → Instr} {j : Instr} {w r : BitVec 8} :
    decodeFields (.formatW legal mk) w r = .ok j ↔ r = 0 ∧ legal w = true ∧ mk w = j := by
  by_cases hr : r = 0#8 <;> cases hw : legal w <;> simp [decodeFields, hr, hw]

/-- Format R carries any `R` as its operand, and `W` is 0 (R91, R93). -/
theorem decodeFields_formatR_eq_ok {mk : BitVec 8 → Instr} {j : Instr} {w r : BitVec 8} :
    decodeFields (.formatR mk) w r = .ok j ↔ w = 0 ∧ mk r = j := by
  by_cases hw : w = 0#8 <;> simp [decodeFields, hw]

/-! ### The opcode map against the encoder (R95) -/

/-- The instructions of an opcode's entry are well-formed at its legal operands, and their words carry that opcode and
the operand in the field of the entry's format. -/
def EntryEncodes (op : BitVec 8) : OpcodeEntry → Prop
  | .formatN i => WellFormed i ∧ encode i = commandWord op 0 0
  | .formatW legal mk => ∀ w, legal w = true → WellFormed (mk w) ∧ encode (mk w) = commandWord op w 0
  | .formatR mk => ∀ r, WellFormed (mk r) ∧ encode (mk r) = commandWord op 0 r

/-- Each row of the opcode map agrees with the encoder's row. -/
theorem opcodeEntry_encodes {op : BitVec 8} {e : OpcodeEntry} (h : opcodeEntry op = some e) : EntryEncodes op e := by
  unfold opcodeEntry at h
  split at h <;> cases h <;> simp [EntryEncodes, WellFormed, Instr.wf, encode]

/-- Fields that pass the checks of an opcode's entry are those of the word of the instruction read from them. -/
theorem encode_of_decodeFields {op w r : BitVec 8} {e : OpcodeEntry} {i : Instr} (he : opcodeEntry op = some e)
    (h : decodeFields e w r = .ok i) : WellFormed i ∧ encode i = commandWord op w r := by
  have henc : EntryEncodes op e := opcodeEntry_encodes he
  cases e with
  | formatN j =>
    obtain ⟨rfl, rfl, rfl⟩ := decodeFields_formatN_eq_ok.mp h
    exact henc
  | formatW legal mk =>
    obtain ⟨rfl, hw, rfl⟩ := decodeFields_formatW_eq_ok.mp h
    exact henc w hw
  | formatR mk =>
    obtain ⟨rfl, rfl⟩ := decodeFields_formatR_eq_ok.mp h
    exact henc r

/-- The word of a well-formed instruction carries an opcode of the map whose entry reads the instruction back from the
word's operand fields. -/
theorem decodeFields_of_encode {i : Instr} (h : WellFormed i) :
    ∃ op w r e, encode i = commandWord op w r ∧ opcodeEntry op = some e ∧ decodeFields e w r = .ok i := by
  cases i with
  | bwPut w | brGet w | ywPut w | yrGet w =>
    exact ⟨_, _, _, _, rfl, rfl, decodeFields_formatW_eq_ok.mpr ⟨rfl, h, rfl⟩⟩
  | csrr n | csrw n => exact ⟨_, _, _, _, rfl, rfl, decodeFields_formatR_eq_ok.mpr ⟨rfl, rfl⟩⟩
  | _ => exact ⟨_, _, _, _, rfl, rfl, decodeFields_formatN_eq_ok.mpr ⟨rfl, rfl, rfl⟩⟩

/-! ### The obligations -/

/-- Settles O1: the fields of the encoded word are those its opcode's entry reads the instruction back from. -/
theorem decodeOfEncode : Obligations.DecodeOfEncode := by
  intro i hwf
  obtain ⟨op, w, r, e, henc, hentry, hfields⟩ := decodeFields_of_encode hwf
  rw [henc, decode_eq_ok_iff_fields]
  simp [hentry, hfields]

/-- Settles O2: an accepted word has `Z` 0, so it is the word of its fields, which are those of the encoding. -/
theorem decodedWordIsTheEncoding : Obligations.DecodedWordIsTheEncoding := by
  intro c i h
  obtain ⟨hz, e, hentry, hfields⟩ := decode_eq_ok_iff_fields.mp h
  obtain ⟨hwf, henc⟩ := encode_of_decodeFields hentry hfields
  exact ⟨hwf, henc.trans (commandWord_fields c hz)⟩

/-- The decoder and the encoder are inverse between the legal words and the well-formed instructions. -/
theorem decode_eq_ok_iff_encode {c : CommandWord} {i : Instr} : decode c = .ok i ↔ WellFormed i ∧ encode i = c :=
  ⟨decodedWordIsTheEncoding c i, fun ⟨hwf, henc⟩ => henc ▸ decodeOfEncode i hwf⟩

/-- Settles O4: each of the words is the encoding of its command. -/
theorem sampleWordsDecode : Obligations.SampleWordsDecode := by
  unfold Obligations.SampleWordsDecode
  simp only [decode_eq_ok_iff_encode]
  decide

end Sys2Proof.Proofs

/-! The control commands and the CSR map (spec/40_control.md; R25 to R33, R340): what `NOP`, `CSRR`, `CSRW`, `CLRERR`,
SRESET and the reset input leave behind. -/

namespace Sys2Proof.Proofs

open Sys2Proof Sys2Proof.Machine Sys2Proof.Laws

/-! ### Executing while halted (R305) -/

/-- A command that executes while halted and raises nothing completes in every state (R305). -/
theorem exec_of_executesHalted {i : Instr} {s t : State} (hi : executesHalted i = true) (h : effect i s = .ok t) :
    exec i s = .next t := by
  rw [exec_eq, if_pos hi, h, complete_ok]

/-! ### The words of the control commands (R91, R120 to R124) -/

/-- A format R word is its operand in bits 23:16 over its opcode (R91). -/
theorem commandWord_formatR (op r : BitVec 8) :
    commandWord op 0 r = (r.setWidth 32 <<< 16) ||| op.setWidth 32 := by
  have hop : op.toNat < 2 ^ 16 := by omega
  apply BitVec.eq_of_toNat_eq
  rw [toNat_commandWord, BitVec.toNat_or, BitVec.toNat_shiftLeft, BitVec.toNat_setWidth_of_le (by decide),
    BitVec.toNat_setWidth_of_le (by decide), Nat.shiftLeft_eq, Nat.mod_eq_of_lt (by omega), ← Nat.shiftLeft_eq,
    ← Nat.shiftLeft_add_eq_or_of_lt hop, Nat.shiftLeft_eq]
  simp

theorem decode_csrr (n : BitVec 8) : decode ((n.setWidth 32 <<< 16) ||| 0x00000002#32) = .ok (.csrr n) :=
  decode_eq_ok_iff_encode.mpr ⟨rfl, commandWord_formatR 0x02 n⟩

theorem decode_csrw (n : BitVec 8) : decode ((n.setWidth 32 <<< 16) ||| 0x00000003#32) = .ok (.csrw n) :=
  decode_eq_ok_iff_encode.mpr ⟨rfl, commandWord_formatR 0x03 n⟩

/-- The opcode of `NOP` allows no other field to be non-zero (R96, R120). -/
theorem decode_error_of_malformed_nop {c : CommandWord} (hop : c.toNat % 256 = 0x01) (hne : c ≠ 0x00000001#32) :
    ∃ e, decode c = .error e := by
  cases hd : decode c with
  | error e => exact ⟨e, rfl⟩
  | ok i =>
    have hlegal := (decode_ok_iff_legal c).mp ⟨i, hd⟩
    simp only [IllegalFields, not_or] at hlegal
    obtain ⟨hz, -, hr, hw, -⟩ := hlegal
    have hc : c.toNat = 1 := by omega
    exact absurd (BitVec.eq_of_toNat_eq hc) hne

/-! ### The CSR map (R26) -/

/-- The registers of the map, in its order. -/
def csrList : List Csr :=
  [.status, .config, .memsz, .bwBase, .bwCap, .bwBits, .brBase, .brLen, .brPos, .ywBase, .ywCap, .ywLen,
    .yrBase, .yrLen, .yrPos, .seCnt, .sdWord, .sdCtrl, .dePrev, .dePdelta, .dePhase, .ddLast, .ddDelta, .ddPhase,
    .geLast, .geCtrl, .gdLast, .gdCtrl]

theorem mem_csrList (c : Csr) : c ∈ csrList := by
  cases c <;> decide

theorem csrOfNumber_csrNumber (c : Csr) : csrOfNumber (csrNumber c) = some c := by
  cases c <;> rfl

/-- A number that no register of the map has is unassigned (R25). -/
theorem csrOfNumber_eq_none {n : BitVec 8} (h : n ∉ csrList.map csrNumber) : csrOfNumber n = none := by
  cases hn : csrOfNumber n with
  | none => rfl
  | some c => exact absurd (eq_csrNumber_of_csrOfNumber hn ▸ List.mem_map_of_mem (mem_csrList c)) h

/-! ### `CSRR` (R121) -/

/-- Halted or not, `CSRR` of a register gives its value (R121, R305). -/
theorem exec_csrr_csrNumber (c : Csr) (s : State) :
    exec (.csrr (csrNumber c)) s = .next { s with dout := readCsr s c } :=
  exec_of_executesHalted rfl (by simp [effect, csrr, csrOfNumber_csrNumber])

theorem effect_csrr_of_unassigned {n : BitVec 8} (s : State) (h : csrOfNumber n = none) :
    effect (.csrr n) s = .error .illegal := by
  simp [effect, csrr, h]

/-- Halted, an error of `CSRR` is ignored (R305). -/
theorem exec_csrr_of_unassigned_of_halted {n : BitVec 8} {s : State} (h : csrOfNumber n = none)
    (hs : s.halted = true) : exec (.csrr n) s = .next s := by
  rw [exec_eq, effect_csrr_of_unassigned s h, complete_error, raise_of_halted s _ hs, executesHalted, if_pos rfl]

/-- Settles O17: the list of the statement is the map's registers with the values `readCsr` gives them, and a number
outside it is unassigned. -/
theorem csrReadReturnsTheRegister : Obligations.CsrReadReturnsTheRegister := by
  refine ⟨decode_csrr, fun s => ?_⟩
  intro map
  have hmap : map = csrList.map fun c => (csrNumber c, readCsr s c) := rfl
  refine ⟨fun r hr => ?_, fun n hn => ?_⟩
  · rw [hmap] at hr
    obtain ⟨c, -, rfl⟩ := List.mem_map.mp hr
    exact exec_csrr_csrNumber c s
  · rw [hmap, List.map_map] at hn
    have hnone : csrOfNumber n = none := csrOfNumber_eq_none hn
    exact ⟨fun hs => exec_of_effect_error hs (effect_csrr_of_unassigned s hnone),
      exec_csrr_of_unassigned_of_halted hnone⟩

/-! ### `CSRW` (R122) -/

/-- `CSRW` of a register in a running block is that register's write of `DIN` (R122). -/
theorem exec_csrw_of_writeCsr {s t : State} (c : Csr) (hs : s.halted = false) (h : writeCsr s c s.din = .ok t) :
    exec (.csrw (csrNumber c)) s = .next t :=
  exec_of_effect_ok hs (by simpa [effect, csrw, csrOfNumber_csrNumber] using h)

/-- A number that names no writable register raises: it is unassigned or its register is read-only (R25, R122). -/
theorem effect_csrw_of_not_writable {n : BitVec 8} (s : State) (h : ∀ c, csrAccess c ≠ .ro → n ≠ csrNumber c) :
    effect (.csrw n) s = .error .illegal := by
  cases hn : csrOfNumber n with
  | none => simp [effect, csrw, hn]
  | some c =>
    have hro : csrAccess c = .ro := by
      by_contra hrw
      exact h c hrw (eq_csrNumber_of_csrOfNumber hn)
    simpa [effect, csrw, hn] using (writeCsr_error_iff s c s.din .illegal).mpr ⟨hro, rfl⟩

/-- The numbers of the writable registers (R25, R26). -/
theorem csrNumber_mem_of_writable {c : Csr} (h : csrAccess c ≠ .ro) :
    csrNumber c ∈ ([0x01, 0x10, 0x11, 0x20, 0x21, 0x22, 0x30, 0x31, 0x40, 0x41, 0x42] : List (BitVec 8)) := by
  cases c <;> simp [csrAccess] at h <;> simp [csrNumber]

/-- Settles O19: a halted block ignores a data command, each writable register is written as its access type says, and
every other number raises. -/
theorem csrWriteEffects : Obligations.CsrWriteEffects := by
  refine ⟨decode_csrw, fun s => ⟨fun hs n => dataCommand_of_halted s _ hs, fun hs => ?_⟩⟩
  have hlow : s.din.extractLsb' 0 32 = s.din.setWidth 32 := (BitVec.setWidth_eq_extractLsb' (by decide)).symm
  rw [hlow]
  exact ⟨exec_csrw_of_writeCsr .config hs rfl, exec_csrw_of_writeCsr .bwBase hs rfl,
    exec_csrw_of_writeCsr .bwCap hs rfl, exec_csrw_of_writeCsr .brBase hs rfl, exec_csrw_of_writeCsr .brLen hs rfl,
    exec_csrw_of_writeCsr .brPos hs rfl, exec_csrw_of_writeCsr .ywBase hs rfl, exec_csrw_of_writeCsr .ywCap hs rfl,
    exec_csrw_of_writeCsr .yrBase hs rfl, exec_csrw_of_writeCsr .yrLen hs rfl, exec_csrw_of_writeCsr .yrPos hs rfl,
    fun n hn => exec_of_effect_error hs <| effect_csrw_of_not_writable s fun c hc hnc =>
      hn (hnc ▸ csrNumber_mem_of_writable hc)⟩

/-! ### `NOP` and `CLRERR` (R120, R123) -/

/-- Settles O20: both commands execute in every state, and a word with `NOP`'s opcode is `NOP`'s or illegal. -/
theorem nopAndClrerrEffects : Obligations.NopAndClrerrEffects :=
  ⟨decodeOfEncode .nop rfl, decodeOfEncode .clrerr rfl, fun _ => decode_error_of_malformed_nop,
    fun _ => ⟨exec_of_executesHalted rfl rfl, exec_of_executesHalted rfl rfl⟩⟩

/-! ### Reset (R124, R340, R341) -/

/-- The packed words read as 0 when their fields are at the reset values of R340. -/
theorem statusWord_cleared : statusWord { err := .noError, fault := false } = 0 := by
  decide

theorem seCntWord_nil : seCntWord [] = 0 := by
  decide

theorem sdCtrlWord_cleared : sdCtrlWord { sel := 0#4, idx := 0#8, valid := false } = 0 := by
  decide

theorem gorillaCtrlWord_cleared :
    gorillaCtrlWord { started := false, wvalid := false, lzb := 0#5, tzb := 0#6 } = 0 := by
  decide

/-- Asserting the reset input is a power-on that keeps `MEM` (R340, R341). -/
theorem step_of_assertReset {s : State} {rest : List HostAction} (h : s.pending = .assertReset :: rest) :
    step s = .next { State.powerOn s.memBytes s.mem with inReset := true, pending := rest } := by
  simp only [step, h, takeAction]
  rfl

/-- Settles O8: SRESET, the reset input and power-on all leave a power-on state of some memory, whatever the inputs of
the block; its fields are the literals that R340 lists, and its packed words read as 0. -/
theorem resetValuesOfR340 : Obligations.ResetValuesOfR340 := by
  refine ⟨decodeOfEncode .sreset rfl, fun s rest n m => ?_⟩
  intro cleared
  have hcleared : ∀ (n : Nat) (m : Memory) (held : Bool) (rest : List HostAction),
      cleared { State.powerOn n m with inReset := held, pending := rest } := fun _ _ _ _ => by
    simp [cleared, State.powerOn, readCsr, statusWord_cleared, seCntWord_nil, sdCtrlWord_cleared,
      gorillaCtrlWord_cleared]
  exact ⟨⟨s.resetRegisters, exec_of_executesHalted rfl rfl, hcleared _ _ _ _, rfl, rfl, rfl, rfl⟩,
    fun hp => ⟨_, step_of_assertReset hp, hcleared _ _ _ _, rfl, rfl⟩,
    hcleared n m false [], rfl, rfl, hcleared _ _ false []⟩

end Sys2Proof.Proofs

/-! The bit stream as a whole (spec/41_bit_buffers.md; R73, R140 to R153): what a sequence of commands that all succeed
leaves behind, what a completed append keeps of the stream before it, and a bit cursor over a stream the bit writer
holds; and the CLR commands and the queries of the buffers. -/

namespace Sys2Proof.Proofs

open Sys2Proof Sys2Proof.Machine Sys2Proof.Laws

/-! ### Sequences of commands (R82, R125) -/

/-- A sequence is its first command and then the rest, from the state the first leaves. -/
theorem issueAll_cons {c : Transaction} {cs : List Transaction} {s t : State} (h : issueAll (c :: cs) s = .next t) :
    ∃ u, issue c s = .next u ∧ issueAll cs u = .next t := by
  rw [issueAll] at h
  split at h
  · exact ⟨_, by assumption, h⟩
  · cases h
  · cases h

/-- A halted block ignores a command that does not execute while halted, and stays halted (R305). -/
theorem exec_of_halted {i : Instr} {s : State} (hi : executesHalted i = false) (hs : s.halted = true) :
    exec i s = .next s := by
  rw [exec_eq, hi]
  exact dataCommand_of_halted s _ hs

/-- A block that halts stays halted under data commands (R305). -/
theorem halted_of_issueAll {t : State} : ∀ {cs : List Transaction} {s : State},
    (∀ c ∈ cs, executesHalted c.1 = false) → s.halted = true → issueAll cs s = .next t → t.halted = true
  | [], _, _, hs, h => Host.Outcome.next.inj h ▸ hs
  | c :: cs, s, hcs, hs, h => by
    obtain ⟨hc, hrest⟩ := List.forall_mem_cons.mp hcs
    obtain ⟨u, hu, htail⟩ := issueAll_cons h
    have hignored : issue c s = .next (s.latch c.2) := exec_of_halted hc hs
    rw [hignored] at hu
    exact halted_of_issueAll hrest (Host.Outcome.next.inj hu ▸ hs) htail

/-- In a sequence of data commands that ends running, the first has its effect and leaves the block running. -/
theorem effect_of_issueAll_cons {c : Transaction} {cs : List Transaction} {s t : State}
    (hcs : ∀ d ∈ c :: cs, executesHalted d.1 = false) (hs : s.halted = false) (h : issueAll (c :: cs) s = .next t)
    (ht : t.halted = false) :
    ∃ u, effect c.1 (s.latch c.2) = .ok u ∧ u.halted = false ∧ issueAll cs u = .next t := by
  obtain ⟨u, hu, htail⟩ := issueAll_cons h
  have hrun : u.halted = false := by
    by_contra hhalt
    have hstuck := halted_of_issueAll (List.forall_mem_cons.mp hcs).2 (Bool.eq_true_of_not_eq_false hhalt) htail
    exact Bool.false_ne_true (ht.symm.trans hstuck)
  exact ⟨u, effect_ok_of_exec hs hu hrun, hrun, htail⟩

/-- A command that completes in a running block puts its `DOUT` in front of what the rest of the sequence returns. -/
theorem collectAll_cons {c : Transaction} {cs : List Transaction} {s u v : State} {ds : List Word}
    (hs : s.halted = false) (hc : effect c.1 (s.latch c.2) = .ok u) (hu : u.halted = false)
    (hcs : collectAll cs u = some (ds, v)) : collectAll (c :: cs) s = some (u.dout :: ds, v) := by
  have hissue : issue c s = .next u := exec_of_effect_ok (s := s.latch c.2) hs hc
  rw [collectAll, hissue]
  simp [hu, hcs]

/-! ### What appending keeps of the stream -/

/-- The bit stream of `t` is that of `s` with no or more bits behind it, in the same place, and inside MEM where it grew. -/
structure StreamExtends (s t : State) : Prop where
  base : t.bwBase = s.bwBase
  memBytes : t.memBytes = s.memBytes
  canonical : Memory.wf t.mem = true
  longer : s.bwBits.toNat ≤ t.bwBits.toNat
  fits : s.bwBits.toNat < t.bwBits.toNat → t.bwBase.toNat + bitStreamBytes t ≤ t.memBytes
  bits : ∀ p < s.bwBits.toNat, streamBit t.mem t.bwBase.toNat p = streamBit s.mem s.bwBase.toNat p

theorem StreamExtends.refl {s : State} (hm : Memory.wf s.mem = true) : StreamExtends s s where
  base := rfl
  memBytes := rfl
  canonical := hm
  longer := le_rfl
  fits h := absurd h (lt_irrefl _)
  bits _ _ := rfl

theorem StreamExtends.trans {s t u : State} (hst : StreamExtends s t) (htu : StreamExtends t u) : StreamExtends s u where
  base := htu.base.trans hst.base
  memBytes := htu.memBytes.trans hst.memBytes
  canonical := htu.canonical
  longer := hst.longer.trans htu.longer
  fits h := by
    by_cases hgrew : t.bwBits.toNat < u.bwBits.toNat
    · exact htu.fits hgrew
    · have hsame : u.bwBits.toNat = t.bwBits.toNat := le_antisymm (by omega) htu.longer
      rw [htu.base, htu.memBytes, bitStreamBytes, hsame]
      exact hst.fits (hsame ▸ h)
  bits p hp := (htu.bits p (lt_of_lt_of_le hp hst.longer)).trans (hst.bits p hp)

/-- A `BitAppend` completes only with room, or of no bits (R70). -/
theorem bitRoom_of_bitAppend {v : BitVec 77} {n : Nat} {s t : State} (h : bitAppend v n s = .ok t) :
    n = 0 ∨ BitRoom s n := by
  refine (Nat.eq_zero_or_pos n).imp_right fun hn => ?_
  obtain ⟨hcap, hbus, -⟩ := bitAppend_ok h (Nat.ne_of_gt hn)
  exact ⟨hcap, hbus⟩

/-- A completed `BitAppend` extends the stream by the low `n` bits of its value (R70 to R72). -/
theorem streamExtends_of_bitAppend {v : BitVec 77} {n : Nat} {s t : State} (hm : Memory.wf s.mem = true)
    (h : bitAppend v n s = .ok t) :
    StreamExtends s t ∧ t.bwBits.toNat = s.bwBits.toNat + n ∧
      ∀ j < n, streamBit t.mem t.bwBase.toNat (s.bwBits.toNat + j) = v.getLsbD j := by
  have hroom := bitRoom_of_bitAppend h
  obtain ⟨t', ht', hframe, hlen, hnew, hold, -, -⟩ := bitAppend_appends hm hroom fun _ _ => rfl
  obtain rfl : t' = t := Except.ok.inj (ht'.symm.trans h)
  have hbase : t'.bwBase = s.bwBase := by rw [hframe]
  have hbytes : t'.memBytes = s.memBytes := by rw [hframe]
  refine ⟨⟨hbase, hbytes, (bitAppend_mem h hm).1, by omega, fun hgrew => ?_, ?_⟩, hlen, ?_⟩
  · obtain ⟨-, hinside⟩ := hroom.resolve_left (by omega)
    rwa [hbase, hbytes, bitStreamBytes, hlen]
  · rwa [hbase]
  · rwa [hbase]

/-- A completed `BW.PUT` of a legal width extends the stream by the low bits of its operand (R141). -/
theorem streamExtends_of_bwPut {w : BitVec 8} {d : Word} {s t : State} (hm : Memory.wf s.mem = true)
    (hw : w.toNat ≤ 64) (h : effect (.bwPut w) (s.latch d) = .ok t) :
    StreamExtends s t ∧ t.bwBits.toNat = s.bwBits.toNat + w.toNat ∧
      ∀ j < w.toNat, streamBit t.mem t.bwBase.toNat (s.bwBits.toNat + j) = d.getLsbD j := by
  obtain ⟨hext, hlen, hnew⟩ := streamExtends_of_bitAppend (s := s.latch d) hm (bwPut_ok h)
  -- the operand latch leaves the stream as it is
  have hlatch : StreamExtends s t :=
    { base := hext.base, memBytes := hext.memBytes, canonical := hext.canonical, longer := hext.longer,
      fits := hext.fits, bits := hext.bits }
  exact ⟨hlatch, hlen, fun j hj => (hnew j hj).trans (getLsbD_masked hw hj)⟩

/-- No `BW.PUT` executes while halted (R305). -/
theorem executesHalted_of_puts {puts : List (BitVec 8 × Word)} :
    ∀ c ∈ puts.map fun p => ((.bwPut p.1, p.2) : Transaction), executesHalted c.1 = false := by
  intro c hc
  obtain ⟨p, -, rfl⟩ := List.mem_map.mp hc
  rfl

/-- A sequence of `BW.PUT`s that all succeed extends the stream. -/
theorem streamExtends_of_puts {t : State} (ht : t.halted = false) : ∀ {puts : List (BitVec 8 × Word)} {s : State},
    (∀ p ∈ puts, p.1.toNat ≤ 64) → s.halted = false → Memory.wf s.mem = true →
    issueAll (puts.map fun p => (.bwPut p.1, p.2)) s = .next t → StreamExtends s t
  | [], _, _, _, hm, h => Host.Outcome.next.inj h ▸ StreamExtends.refl hm
  | p :: puts, s, hlegal, hs, hm, h => by
    obtain ⟨hw, hlegal'⟩ := List.forall_mem_cons.mp hlegal
    obtain ⟨u, hput, hu, htail⟩ := effect_of_issueAll_cons (executesHalted_of_puts (puts := p :: puts)) hs h ht
    obtain ⟨hfirst, -, -⟩ := streamExtends_of_bwPut hm hw hput
    exact hfirst.trans (streamExtends_of_puts ht hlegal' hu hfirst.canonical htail)

/-! ### A cursor over a written stream (R73, R153) -/

/-- The bit cursor of `u` stands at bit `p` of the stream that the bit writer of `t` holds. -/
structure CursorAt (u t : State) (p : Nat) : Prop where
  running : u.halted = false
  memBytes : u.memBytes = t.memBytes
  base : u.brBase = t.bwBase
  len : u.brLen.toNat = bitStreamBytes t
  pos : u.brPos.toNat = p
  bits : ∀ q < t.bwBits.toNat, streamBit u.mem u.brBase.toNat q = streamBit t.mem t.bwBase.toNat q

/-- A view of a stream's bytes is a cursor at its first bit. -/
theorem cursorAt_of_views {u t : State} (h : ViewsBitStream u t) : CursorAt u t 0 := by
  obtain ⟨hu, hbytes, hbase, hlen, hpos, hread⟩ := h
  refine ⟨hu, hbytes, hbase, hlen, by simp [hpos], fun q hq => ?_⟩
  have hin : q / 8 < bitStreamBytes t := by
    unfold bitStreamBytes wordsFor
    omega
  rw [streamBit, streamBit, hbase, hread _ (by omega) (by omega)]

/-- The bits between a cursor and the end of a stream inside MEM are readable (R73, R74). -/
theorem CursorAt.bitsReadable {u t : State} {p n : Nat} (h : CursorAt u t p) (hend : p + n ≤ t.bwBits.toNat)
    (hfits : p < t.bwBits.toNat → t.bwBase.toNat + bitStreamBytes t ≤ t.memBytes) : BitsReadable u n := by
  unfold bitStreamBytes wordsFor at hfits
  refine ⟨?_, fun hn => ?_⟩
  · rw [h.pos, State.readableBits, h.len, bitStreamBytes, wordsFor]
    omega
  · rw [h.pos, h.base, h.memBytes]
    omega

/-- `BR.GET` at bit `p` of a stream that holds the low bits of `x` from there on returns them and moves the cursor past
them (R150). -/
theorem brGet_of_cursorAt {u t : State} {p : Nat} {w : BitVec 8} {x : Word} (d : Word) (h : CursorAt u t p)
    (hw : w.toNat ≤ 64) (hend : p + w.toNat ≤ t.bwBits.toNat)
    (hfits : p < t.bwBits.toNat → t.bwBase.toNat + bitStreamBytes t ≤ t.memBytes)
    (hx : ∀ j < w.toNat, streamBit t.mem t.bwBase.toNat (p + j) = x.getLsbD j) :
    ∃ u', effect (.brGet w) (u.latch d) = .ok u' ∧ CursorAt u' t (p + w.toNat) ∧ u'.dout = x &&& mask w.toNat := by
  have hread : BitsReadable (u.latch d) w.toNat := h.bitsReadable hend hfits
  obtain ⟨u', hget, hframe, hpos, hdout⟩ := toDout_bitFetch_of_readable hread
  have hcursor : CursorAt u' t (p + w.toNat) := by
    have hp : u'.brPos.toNat = p + w.toNat := by rw [hpos, State.latch_brPos, h.pos]
    rw [hframe]
    exact { running := h.running, memBytes := h.memBytes, base := h.base, len := h.len, pos := hp, bits := h.bits }
  refine ⟨u', (brGet_of_legal _ hw).trans hget, hcursor, ?_⟩
  apply BitVec.eq_of_getLsbD_eq
  intro j hj
  rw [hdout, getLsbD_wordOfBits, BitVec.getLsbD_and, getLsbD_mask]
  by_cases hjw : j < w.toNat
  · have hbit := (h.bits (p + j) (by omega)).trans (hx j hjw)
    simp [hj, hjw, viewBit, h.pos, hbit]
  · simp [hjw]

/-! ### Reading back what was put (R153) -/

/-- A cursor where a sequence of `BW.PUT`s began, over the stream they left, reads their operands back and ends where
the writer ended. -/
theorem collectAll_gets_of_puts {t : State} (ht : t.halted = false) :
    ∀ {puts : List (BitVec 8 × Word)} {s u : State}, (∀ p ∈ puts, p.1.toNat ≤ 64) → s.halted = false →
    Memory.wf s.mem = true → issueAll (puts.map fun p => (.bwPut p.1, p.2)) s = .next t →
    CursorAt u t s.bwBits.toNat →
    ∃ v, collectAll (puts.map fun p => (.brGet p.1, 0)) u = some (puts.map fun p => p.2 &&& mask p.1.toNat, v) ∧
      v.brPos = t.bwBits
  | [], s, u, _, _, _, h, hcur => by
    obtain rfl : s = t := Host.Outcome.next.inj h
    exact ⟨u, rfl, BitVec.eq_of_toNat_eq hcur.pos⟩
  | (w, d) :: puts, s, u, hlegal, hs, hm, h, hcur => by
    obtain ⟨hw, hlegal'⟩ := List.forall_mem_cons.mp hlegal
    obtain ⟨s', hput, hs', htail⟩ :=
      effect_of_issueAll_cons (executesHalted_of_puts (puts := (w, d) :: puts)) hs h ht
    obtain ⟨hfirst, hlen, hnew⟩ := streamExtends_of_bwPut (w := w) (d := d) hm hw hput
    have hrest : StreamExtends s' t := streamExtends_of_puts ht hlegal' hs' hfirst.canonical htail
    have hend : s.bwBits.toNat + w.toNat ≤ t.bwBits.toNat := hlen ▸ hrest.longer
    have hkept (j : Nat) (hj : j < w.toNat) :
        streamBit t.mem t.bwBase.toNat (s.bwBits.toNat + j) = d.getLsbD j :=
      (hrest.bits _ (by omega)).trans (hnew j hj)
    obtain ⟨u', hget, hcur', hvalue⟩ := brGet_of_cursorAt 0 hcur hw hend (hfirst.trans hrest).fits hkept
    obtain ⟨v, hcollect, hv⟩ := collectAll_gets_of_puts ht hlegal' hs' hfirst.canonical htail (hlen ▸ hcur')
    refine ⟨v, ?_, hv⟩
    rw [List.map_cons, List.map_cons, ← hvalue]
    exact collectAll_cons hcur.running hget hcur'.running hcollect

/-- Settles O27: a view of the written bytes is a cursor at bit 0, where the puts began. -/
theorem bitStreamRoundTrip : Obligations.BitStreamRoundTrip := by
  intro puts s t u hlegal hs hm hempty hputs ht hview
  have hstart : s.bwBits.toNat = 0 := by simp [hempty]
  exact collectAll_gets_of_puts ht hlegal hs hm hputs (hstart ▸ cursorAt_of_views hview)

/-! ### The CLR commands and the queries -/

/-- Settles O21: the effect of each CLR is the statement's state. -/
theorem clearCommandsResetTheirFamily : Obligations.ClearCommandsResetTheirFamily :=
  ⟨decodeOfEncode .bwClr rfl, decodeOfEncode .ywClr rfl, decodeOfEncode .seClr rfl, decodeOfEncode .sdClr rfl,
    decodeOfEncode .deClr rfl, decodeOfEncode .ddClr rfl, decodeOfEncode .geClr rfl, decodeOfEncode .gdClr rfl,
    fun _ hs => ⟨exec_of_effect_ok hs rfl, exec_of_effect_ok hs rfl, exec_of_effect_ok hs rfl,
      exec_of_effect_ok hs rfl, exec_of_effect_ok hs rfl, exec_of_effect_ok hs rfl, exec_of_effect_ok hs rfl,
      exec_of_effect_ok hs rfl⟩⟩

/-- The byte length of the stream fits `DOUT`: it is about an eighth of a 64-bit number (R73). -/
theorem toNat_bitStreamBytes (s : State) :
    (BitVec.ofNat 64 (bitStreamBytes s)).toNat = 8 * ((s.bwBits.toNat + 63) / 64) := by
  have hlt := s.bwBits.isLt
  rw [BitVec.toNat_ofNat, bitStreamBytes, wordsFor, Nat.mod_eq_of_lt (by omega)]

theorem bitCursorAtEnd_iff (s : State) : bitCursorAtEnd s = true ↔ 64 * (s.brLen.toNat / 8) ≤ s.brPos.toNat :=
  decide_eq_true_iff

/-- Settles O24: both queries write `DOUT` alone, and their values fit it. -/
theorem lengthAndEndQueries : Obligations.LengthAndEndQueries := by
  refine ⟨decodeOfEncode .bwBlen rfl, decodeOfEncode .brEnd rfl, fun s hs => ⟨?_, ?_⟩⟩
  · exact ⟨_, exec_of_effect_ok hs rfl, rfl, toNat_bitStreamBytes s⟩
  · refine ⟨_, exec_of_effect_ok hs rfl, rfl, ?_⟩
    by_cases hend : 64 * (s.brLen.toNat / 8) ≤ s.brPos.toNat <;> simp [bitCursorAtEnd_iff, hend]

end Sys2Proof.Proofs

/-! `YR.SUB` (spec/42_byte_buffers.md; R94, R181): the address of a sub-range, and the byte cursor past it. -/

namespace Sys2Proof.Proofs

open Sys2Proof Sys2Proof.Machine Sys2Proof.Laws

/-- When `YR.SUB` completes: the view is its only check, so no memory is read (R181). -/
theorem yrSub_of_inside {s : State} (h : s.yrPos.toNat + subCount s.din ≤ s.yrLen.toNat) :
    yrSub s = .ok { s with
      dout := BitVec.ofNat 64 (s.yrBase.toNat + s.yrPos.toNat)
      yrPos := BitVec.ofNat 64 (s.yrPos.toNat + subCount s.din) } := by
  rw [yrSub, if_neg (Nat.not_lt.mpr h)]

/-- When `YR.SUB` raises: the sub-range crosses the end of the view (R181). -/
theorem yrSub_of_outside {s : State} (h : s.yrLen.toNat < s.yrPos.toNat + subCount s.din) :
    yrSub s = .error .oob := by
  rw [yrSub, if_pos h]

/-- The address of a byte at or before the end of the view fits `DOUT`: `YR_BASE` and `YR_LEN` are 32-bit numbers
(R43, R44). -/
theorem toNat_viewAddress {s : State} (h : s.yrPos.toNat ≤ s.yrLen.toNat) :
    (BitVec.ofNat 64 (s.yrBase.toNat + s.yrPos.toNat)).toNat = s.yrBase.toNat + s.yrPos.toNat := by
  have hbase := s.yrBase.isLt
  have hlen := s.yrLen.isLt
  rw [BitVec.toNat_ofNat, Nat.mod_eq_of_lt (by omega)]

/-- Settles O32: inside the view neither the address nor the new position wraps; outside it the effect raises. -/
theorem subRangeSkipsTheParent : Obligations.SubRangeSkipsTheParent := by
  refine ⟨decodeOfEncode .yrSub rfl, fun s hs => ⟨fun hview => ?_, fun hoob => ?_⟩⟩
  · have hstart : s.yrPos.toNat ≤ s.yrLen.toNat := (Nat.le_add_right _ _).trans hview
    exact ⟨_, exec_of_effect_ok hs (yrSub_of_inside hview), rfl, toNat_viewAddress hstart, yrPos_after s _ hview⟩
  · exact exec_of_effect_error hs (yrSub_of_outside hoob)

end Sys2Proof.Proofs

/-! The zig-zag transform (spec/43_zigzag.md; R190 to R192): each direction is a shift, complemented for a negative
number, so each has a value in arithmetic; the two values undo each other. -/

namespace Sys2Proof.Proofs

open Sys2Proof Sys2Proof.Machine

/-! ### The transform as a shift or its complement -/

/-- Without a sign there is nothing to complement (R190). -/
theorem zigzag_of_nonneg {x : Word} (h : 0 ≤ x.toInt) : zigzag x = x <<< 1 := by
  have hmsb : x.msb = false := by simpa [BitVec.msb_eq_toInt] using h
  have hlt : x.toNat < 2 ^ 63 := by simpa [BitVec.msb_eq_decide] using hmsb
  have hfill : x.sshiftRight 63 = 0#64 := by
    rw [BitVec.sshiftRight_eq_of_msb_false hmsb]
    bv_omega
  rw [zigzag, hfill, BitVec.xor_zero]

/-- The sign, in all bits, complements the shift (R190). -/
theorem zigzag_of_neg {x : Word} (h : x.toInt < 0) : zigzag x = ~~~(x <<< 1) := by
  have hmsb : x.msb = true := by simpa [BitVec.msb_eq_toInt] using h
  have hge : 2 ^ 63 ≤ x.toNat := by simpa [BitVec.msb_eq_decide] using hmsb
  have hfill : x.sshiftRight 63 = BitVec.allOnes 64 := by
    have hzero : ~~~x >>> 63 = 0#64 := by bv_omega
    rw [BitVec.sshiftRight_eq_of_msb_true hmsb, hzero, BitVec.not_zero]
  rw [zigzag, hfill, BitVec.xor_allOnes]

/-- A low bit of 0 leaves the shift as it is (R191). -/
theorem unzigzag_of_even {y : Word} (h : y.toNat % 2 = 0) : unzigzag y = y >>> 1 := by
  have hmask : 0 - (y &&& 1) = 0#64 := by
    have hlow : y &&& 1 = 0 := BitVec.eq_of_toNat_eq (by simp [h])
    rw [hlow]; rfl
  rw [unzigzag, hmask, BitVec.xor_zero]

/-- A low bit of 1, negated, complements the shift (R191). -/
theorem unzigzag_of_odd {y : Word} (h : y.toNat % 2 = 1) : unzigzag y = ~~~(y >>> 1) := by
  have hmask : 0 - (y &&& 1) = BitVec.allOnes 64 := by
    have hlow : y &&& 1 = 1 := BitVec.eq_of_toNat_eq (by simp [h])
    rw [hlow]; rfl
  rw [unzigzag, hmask, BitVec.xor_allOnes]

/-! ### The values -/

/-- The shift drops the sign bit only, so no value is lost (R190). -/
theorem toNat_zigzag (x : Word) :
    ((zigzag x).toNat : Int) = if 0 ≤ x.toInt then 2 * x.toInt else -2 * x.toInt - 1 := by
  have hx := BitVec.toInt_eq_toNat_cond x
  split
  case isTrue h =>
    rw [zigzag_of_nonneg h]
    bv_omega
  case isFalse h =>
    rw [zigzag_of_neg (Int.not_le.mp h)]
    bv_omega

/-- The 60-bit range that the packer takes, on the side of the number (R190). -/
theorem toNat_zigzag_packable_iff (x : Word) :
    (zigzag x).toNat ≤ 2 ^ 60 - 1 ↔ -2 ^ 59 ≤ x.toInt ∧ x.toInt ≤ 2 ^ 59 - 1 := by
  have hnat := toNat_zigzag x
  split at hnat <;> omega

/-- Half of a 64-bit number has no sign bit, and its complement has one (R191). -/
theorem toInt_unzigzag (y : Word) :
    (unzigzag y).toInt = if y.toNat % 2 = 0 then (y.toNat / 2 : Int) else -((y.toNat + 1) / 2 : Int) := by
  have hcond := BitVec.toInt_eq_toNat_cond (unzigzag y)
  split
  case isTrue h =>
    rw [unzigzag_of_even h] at hcond ⊢
    bv_omega
  case isFalse h =>
    rw [unzigzag_of_odd (Nat.mod_two_ne_zero.mp h)] at hcond ⊢
    bv_omega

/-! ### The two are inverse -/

/-- Even results come from nonnegative numbers and odd ones from negative numbers (R192). -/
theorem unzigzag_zigzag (x : Word) : unzigzag (zigzag x) = x := by
  apply BitVec.eq_of_toInt_eq
  have hnat := toNat_zigzag x
  rw [toInt_unzigzag]
  split at hnat <;> split <;> omega

/-- Nonnegative results come from even numbers and negative ones from odd numbers (R192). -/
theorem zigzag_unzigzag (y : Word) : zigzag (unzigzag y) = y := by
  have hint := toInt_unzigzag y
  have hnat := toNat_zigzag (unzigzag y)
  apply BitVec.eq_of_toNat_eq
  split at hint <;> split at hnat <;> omega

/-! ### The commands -/

/-- Settles O34: `ZZ.ENC` writes the transform to `DOUT`, and the packable range is that of its value. -/
theorem zigZagEncodesSigned : Obligations.ZigZagEncodesSigned :=
  ⟨decodeOfEncode .zzEnc rfl, fun s hs => ⟨_, exec_of_effect_ok hs rfl, rfl, rfl, toNat_zigzag s.din,
    toNat_zigzag_packable_iff s.din⟩⟩

/-- Settles O35: `ZZ.DEC` writes the inverse transform to `DOUT`. -/
theorem zigZagDecodesUnsigned : Obligations.ZigZagDecodesUnsigned :=
  ⟨decodeOfEncode .zzDec rfl, fun s hs => ⟨_, exec_of_effect_ok hs rfl, rfl, rfl, toInt_unzigzag s.din⟩⟩

/-- Settles O36: neither command halts the block, so the second one transforms what the first one returned. -/
theorem zigZagIsBijection : Obligations.ZigZagIsBijection := fun s hs =>
  ⟨⟨_, _, exec_of_effect_ok hs rfl, exec_of_effect_ok hs rfl, unzigzag_zigzag s.din⟩,
    ⟨_, _, exec_of_effect_ok hs rfl, exec_of_effect_ok hs rfl, zigzag_unzigzag s.din⟩⟩

end Sys2Proof.Proofs

/-! Simple8B words (R101, R102, R201 to R205): which selector `Select` takes, where the fields of a packed word lie, and
what the words of a flush hold. -/

namespace Sys2Proof.Proofs

open Sys2Proof Sys2Proof.Machine Sys2Proof.Laws

/-! ### The choice of a selector (R203 to R205) -/

/-- Selectors 0 and 1 are the ones of zero width (R101). -/
theorem two_le_of_selWidth_ne_zero (s : BitVec 4) (h : selWidth s ≠ 0) : 2 ≤ s.toNat := by
  revert s; decide

/-- The chosen selector is of non-zero width, its values exist, and they fit (R203). -/
theorem chooseSelector_admissible {q : List Packable} (tailPad : Bool) (hq : q ≠ []) :
    selWidth (chooseSelector tailPad q) ≠ 0 ∧ (selCount (chooseSelector tailPad q) ≤ q.length ∨ tailPad = true) ∧
      ∀ v ∈ taken (chooseSelector tailPad q) q, v.toNat ≤ 2 ^ selWidth (chooseSelector tailPad q) - 1 :=
  (admissible_iff _ _ _).mp (admissible_choose tailPad q hq)

/-- Admissible selectors take at most 60 values, so with 60 there they see neither the values behind them nor the tail
policy (R205). -/
theorem admissible_of_sixty (tailPad : Bool) {q : List Packable} (hq : 60 ≤ q.length) (s : BitVec 4) :
    admissible tailPad q s = admissible false (q.take 60) s := by
  by_cases hw : selWidth s = 0
  · simp [admissible, hw]
  · have hcount := selCount_le_of_width s hw
    have htaken : taken s (q.take 60) = taken s q := by
      rw [taken, taken, List.take_take, Nat.min_eq_left hcount]
    have hthere : selCount s ≤ q.length := hcount.trans hq
    simp [admissible, htaken, hthere, hcount]

theorem chooseSelector_of_sixty (tailPad : Bool) {q : List Packable} (hq : 60 ≤ q.length) :
    chooseSelector tailPad q = chooseSelector false (q.take 60) := by
  rw [chooseSelector, chooseSelector, funext (admissible_of_sixty tailPad hq)]

/-- With 60 values there, `Select` reads the first 60 and no tail policy (R205). -/
theorem select_of_sixty (tailPad : Bool) {q : List Packable} (hq : 60 ≤ q.length) :
    select tailPad q = select false (q.take 60) := by
  have hne : q.take 60 ≠ [] := List.ne_nil_of_length_pos (by rw [List.length_take]; omega)
  obtain ⟨hw, -, -⟩ := chooseSelector_admissible false hne
  have htaken : taken (chooseSelector false (q.take 60)) (q.take 60) = taken (chooseSelector false (q.take 60)) q := by
    rw [taken, taken, List.take_take, Nat.min_eq_left (selCount_le_of_width _ hw)]
  simp only [select, chooseSelector_of_sixty tailPad hq, htaken]

/-- Settles O37: the first admissible selector is admissible, and none before it is. -/
theorem selectIsTheDensestAdmissible : Obligations.SelectIsTheDensestAdmissible := by
  intro tailPad q hq ok r
  have hok : ok r.sel := chooseSelector_admissible tailPad hq
  refine ⟨hok, fun s' hlt hs' => ?_, two_le_of_selWidth_ne_zero _ hok.1, taken_length _ _,
    (select_used tailPad q hq).1, rfl, select_of_sixty tailPad⟩
  have hnot := not_admissible_below tailPad q hq s' hlt
  exact Bool.false_ne_true (hnot.symm.trans ((admissible_iff _ _ _).mpr hs'))

/-! ### The fields of a packed word (R102, R202) -/

/-- Above its fields a packed word has nothing but its selector; a zero width leaves no fields at all (R202). -/
theorem getLsbD_packFields_above {w : Nat} : ∀ {vs : List Packable} {i b : Nat}, (∀ v ∈ vs, v.toNat ≤ 2 ^ w - 1) →
    (i + vs.length) * w ≤ b → (packFields w i vs).getLsbD b = false
  | [], _, _, _, _ => by simp [packFields]
  | v :: vs, i, b, hfits, hb => by
    obtain ⟨hv, hvs⟩ := List.forall_mem_cons.mp hfits
    rw [List.length_cons] at hb
    have hrest : (packFields w (i + 1) vs).getLsbD b = false :=
      getLsbD_packFields_above hvs (by rwa [Nat.add_assoc, Nat.add_comm 1])
    have hfield : (i + 1) * w ≤ b := (Nat.mul_le_mul_right w (by omega)).trans hb
    rw [Nat.succ_mul] at hfield
    rw [packFields, BitVec.getLsbD_or, BitVec.getLsbD_shiftLeft, BitVec.getLsbD_setWidth,
      getLsbD_of_fits hv _ (by omega), hrest]
    simp

/-- A packed word's selector is on top, whatever its width (R102). -/
theorem pack_selector_of_fits {s : BitVec 4} {f : List Packable} (hl : f.length ≤ selCount s)
    (hf : ∀ v ∈ f, v.toNat ≤ 2 ^ selWidth s - 1) : (pack s f).extractLsb' 60 4 = s := by
  have hspan : f.length * selWidth s ≤ 60 := (Nat.mul_le_mul_right _ hl).trans (selector_product_le s)
  apply BitVec.eq_of_getLsbD_eq
  intro b hb
  rw [BitVec.getLsbD_extractLsb', pack, BitVec.getLsbD_or, getLsbD_packFields_above hf (by rw [Nat.zero_add]; omega)]
  simp [hb, show 60 + b < 64 by omega]

/-- The bits of field `i` of a packed word are the `i`-th value's (R102). -/
theorem extractLsb'_pack {s : BitVec 4} {f : List Packable} (hl : f.length ≤ selCount s)
    (hf : ∀ v ∈ f, v.toNat ≤ 2 ^ selWidth s - 1) {i : Nat} (hi : i < f.length) :
    (pack s f).extractLsb' (i * selWidth s) (selWidth s) = (f[i]).setWidth (selWidth s) := by
  have hfield := pack_field s f i hf (by omega)
  rw [dif_pos hi] at hfield
  apply BitVec.eq_of_getLsbD_eq
  intro b hb
  have hb60 := selWidth_le s
  have hbit : ((pack s f >>> (i * selWidth s)) &&& mask (selWidth s)).getLsbD b = ((f[i]).setWidth 64).getLsbD b := by
    rw [hfield]
  rw [BitVec.getLsbD_and, getLsbD_mask, BitVec.getLsbD_ushiftRight] at hbit
  simpa [hb, show b < 64 by omega] using hbit

/-- The bits of a packed word between its fields and its selector are 0 (R202). -/
theorem getLsbD_pack_unused {s : BitVec 4} {f : List Packable} (hf : ∀ v ∈ f, v.toNat ≤ 2 ^ selWidth s - 1) {b : Nat}
    (hlo : f.length * selWidth s ≤ b) (hhi : b < 60) : (pack s f).getLsbD b = false := by
  rw [pack, BitVec.getLsbD_or, getLsbD_packFields_above hf (by rwa [Nat.zero_add])]
  simp [hhi]

/-- Settles O38: the table is R101's, and the packed word is its selector, its fields, and zeros between. -/
theorem packedWordLayout : Obligations.PackedWordLayout :=
  ⟨by decide, fun _ _ hl hf =>
    ⟨pack_selector_of_fits hl hf, fun _ hi => extractLsb'_pack hl hf hi, fun _ => getLsbD_pack_unused hf⟩⟩

/-! ### The words of a flush (R205, R213, R222) -/

/-- The fields of a packed word are its values, then 0 for each field left over (R102, R202). -/
theorem wordValues_pack {s : BitVec 4} {f : List Packable} (hl : f.length ≤ selCount s)
    (hf : ∀ v ∈ f, v.toNat ≤ 2 ^ selWidth s - 1) :
    wordValues (pack s f) = f.map (fun v => v.setWidth 64) ++ List.replicate (selCount s - f.length) 0 := by
  simp only [wordValues, pack_selector_of_fits hl hf]
  apply List.ext_getElem
  · simp only [List.length_map, List.length_range, List.length_append, List.length_replicate]
    omega
  · intro i hi _
    have hcount : i < selCount s := by simpa using hi
    rw [List.getElem_map, List.getElem_range, pack_field s f i hf hcount, List.getElem_append]
    simp

/-- The word `Select` packs holds the values it consumes, then 0 in its spare fields (R203, R222). -/
theorem wordValues_select (tailPad : Bool) {q : List Packable} (hq : q ≠ []) :
    wordValues (select tailPad q).word =
      (q.take (select tailPad q).used).map (fun v => v.setWidth 64) ++
        List.replicate (selCount (select tailPad q).sel - (select tailPad q).used) 0 := by
  obtain ⟨-, -, hf⟩ := chooseSelector_admissible tailPad hq
  have htaken : q.take (select tailPad q).used = taken (chooseSelector tailPad q) q := by
    rw [select, taken_length, taken, List.take_eq_take_min (i := selCount _)]
  rw [htaken]
  exact wordValues_pack (by rw [taken_length]; omega) hf

/-- A word with a spare field ends the queue, and only PAD makes one (R203, R205). -/
theorem select_spare {tailPad : Bool} {q : List Packable} (hq : q ≠ [])
    (hspare : (select tailPad q).used < selCount (select tailPad q).sel) :
    q.drop (select tailPad q).used = [] ∧ tailPad = true := by
  obtain ⟨-, hthere, -⟩ := chooseSelector_admissible tailPad hq
  have hused : (select tailPad q).used = min (selCount (select tailPad q).sel) q.length := taken_length _ _
  have hshort : q.length < selCount (select tailPad q).sel := by omega
  exact ⟨List.drop_eq_nil_of_le (by omega), hthere.resolve_left (Nat.not_le.mpr hshort)⟩

/-- The words of a queue hold its values in order, and behind them no field but spare ones, of which STRICT leaves none
(R205, R213). -/
theorem flushWords_values (tailPad : Bool) : ∀ (fuel : Nat) (q : List Packable), q.length ≤ fuel →
    ∃ k, (flushWords tailPad fuel q).flatMap wordValues = q.map (fun v => v.setWidth 64) ++ List.replicate k 0 ∧
      (tailPad = false → k = 0)
  | 0, q, hfuel => by
    obtain rfl : q = [] := List.length_eq_zero_iff.mp (by omega)
    exact ⟨0, rfl, fun _ => rfl⟩
  | fuel + 1, q, hfuel => by
    by_cases hq : q = []
    · subst hq
      exact ⟨0, rfl, fun _ => rfl⟩
    · obtain ⟨hpos, -, -⟩ := select_used tailPad q hq
      obtain ⟨k, hvalues, hk⟩ :=
        flushWords_values tailPad fuel (q.drop (select tailPad q).used) (by rw [List.length_drop]; omega)
      rw [flushWords_cons tailPad fuel q hq, List.flatMap_cons, wordValues_select tailPad hq, hvalues]
      by_cases hspare : (select tailPad q).used < selCount (select tailPad q).sel
      · obtain ⟨hlast, rfl⟩ := select_spare hq hspare
        have hall : q.take (select true q).used = q := by
          simpa [hlast] using List.take_append_drop (select true q).used q
        refine ⟨selCount (select true q).sel - (select true q).used + k, ?_, fun h => Bool.noConfusion h⟩
        rw [hlast, hall, List.map_nil, List.nil_append, List.append_assoc, List.replicate_append_replicate]
      · refine ⟨k, ?_, hk⟩
        rw [Nat.sub_eq_zero_of_le (Nat.not_lt.mp hspare), List.replicate_zero, List.append_nil, ← List.append_assoc,
          ← List.map_append, List.take_append_drop]

/-- `SE.FLUSH` emits what `Select` packs at the head of the queue, then the words of the rest (R213). -/
theorem flushWords_greedy (tailPad : Bool) {q : List Packable} (hq : q ≠ []) :
    flushWords tailPad q.length q = (select tailPad q).word ::
      flushWords tailPad (q.drop (select tailPad q).used).length (q.drop (select tailPad q).used) := by
  obtain ⟨hpos, hle, -⟩ := select_used tailPad q hq
  rw [flushWords_fuel tailPad q.length (q.length - 1 + 1) q le_rfl (by omega), flushWords_cons tailPad _ q hq]
  rw [flushWords_fuel tailPad (q.length - 1) _ _ (by rw [List.length_drop]; omega) le_rfl]

/-- Settles O42: the words' fields are the queue's values and the spare fields behind them. -/
theorem flushedWordsHoldTheQueue : Obligations.FlushedWordsHoldTheQueue := by
  intro tailPad q ws
  obtain ⟨k, hvalues, hk⟩ := flushWords_values tailPad q.length q le_rfl
  change ws.flatMap wordValues = _ at hvalues
  refine ⟨fun hq => ⟨_, flushWords_greedy tailPad hq, rfl⟩, ?_, fun hstrict => ?_⟩
  · rw [hvalues, List.take_left' (List.length_map _)]
  · rw [hvalues, hk hstrict, List.replicate_zero, List.append_nil, List.length_map]

end Sys2Proof.Proofs

/-! The Simple8B commands (R200, R211, R213, R221): what `SE.PUSH`, `SE.FLUSH` and `SD.NEXT` leave behind and when they
raise. -/

namespace Sys2Proof.Proofs

open Sys2Proof Sys2Proof.Machine Sys2Proof.Laws

/-! ### `SE.PUSH` (R200, R211) -/

/-- A value of `2^60` or more is refused before anything else (R200, R211). -/
theorem sePushValue_of_large {v : Word} (s : State) (hv : 2 ^ 60 ≤ v.toNat) : sePushValue v s = .error .range := by
  rw [sePushValue_eq, if_pos (by omega)]

/-- A push that does not complete 60 values queues its value (R211). -/
theorem sePushValue_of_queue {v : Word} {s : State} (hv : v.toNat < 2 ^ 60) (hq : s.seQ.length ≠ 59) :
    sePushValue v s = .ok { s with seQ := s.seQ ++ [v.setWidth 60] } := by
  rw [sePushValue_eq, if_neg (by omega), if_neg hq]

/-- What `Select` makes of the queue once a push has added its value (R211). -/
def pushSelection (v : Word) (s : State) : Selection := select s.tailPad (s.seQ ++ [v.setWidth 60])

/-- The 60th push's state before its word is appended: the values the word holds have left the queue (R211). -/
def afterSixtieth (v : Word) (s : State) : State :=
  { s with seQ := (s.seQ ++ [v.setWidth 60]).drop (pushSelection v s).used }

/-- The 60th push appends one word's bytes (R211). -/
theorem sePushValue_of_sixtieth {v : Word} {s : State} (hv : v.toNat < 2 ^ 60) (hq : s.seQ.length = 59) :
    sePushValue v s = byteAppend (bytesLE (pushSelection v s).word 8) (afterSixtieth v s) := by
  rw [sePushValue_eq, if_neg (by omega), if_pos hq]
  rfl

/-- When the 60th push raises: what the append of its word raises (R77, R211, R304). -/
theorem sePushValue_sixtieth_raises {v : Word} {s : State} (hv : v.toNat < 2 ^ 60) (hq : s.seQ.length = 59) :
    (s.ywCap.toNat < s.ywLen.toNat + 8 → sePushValue v s = .error .cap) ∧
    (s.ywLen.toNat + 8 ≤ s.ywCap.toNat → s.memBytes < s.ywBase.toNat + s.ywLen.toNat + 8 →
      sePushValue v s = .error .bus) := by
  rw [sePushValue_of_sixtieth hv hq]
  exact byteAppend_raises (bytesLE (pushSelection v s).word 8) (afterSixtieth v s) (by rw [length_bytesLE]; decide)

/-- Settles O39: a push that queues changes the FIFO alone; the 60th is an append of 8 bytes. -/
theorem pushQueuesOrEmitsOneWord : Obligations.PushQueuesOrEmitsOneWord := by
  intro s hs hv
  refine ⟨fun hq => exec_of_effect_ok hs (sePushValue_of_queue hv hq), fun hq hm hroom => ?_⟩
  rw [← length_bytesLE (pushSelection s.din s).word 8] at hroom
  obtain ⟨t, happend, hframe, hlen, hmem⟩ := byteAppend_appends (s := afterSixtieth s.din s) hm hroom
  have hq' : t.seQ = (afterSixtieth s.din s).seQ := by rw [hframe]
  rw [length_bytesLE] at hlen
  rw [← hq'] at hframe
  exact ⟨t, exec_of_effect_ok hs ((sePushValue_of_sixtieth hv hq).trans happend), hframe, hlen, hq', hmem⟩

/-! ### `SE.FLUSH` (R213) -/

/-- `SE.FLUSH` of an empty FIFO does nothing (R213). -/
theorem seFlush_of_empty {s : State} (hq : s.seQ = []) : seFlush s = .ok s := by
  rw [seFlush, hq]
  exact congrArg (fun q => Except.ok { s with seQ := q }) hq.symm

/-- A queue that is not empty has bytes to append (R204, R213). -/
theorem length_flushBytes_ne_zero {tailPad : Bool} {q : List Packable} (hq : q ≠ []) :
    ((flushWords tailPad q.length q).flatMap fun w => bytesLE w 8).length ≠ 0 := by
  rw [length_flatMap_bytes, flushWords_greedy tailPad hq, List.length_cons]
  omega

/-- When `SE.FLUSH` raises: what the append of its words raises (R77, R213, R304). -/
theorem seFlush_raises {s : State} (hq : s.seQ ≠ []) :
    (s.ywCap.toNat < s.ywLen.toNat + 8 * (flushWords s.tailPad s.seQ.length s.seQ).length → seFlush s = .error .cap) ∧
    (s.ywLen.toNat + 8 * (flushWords s.tailPad s.seQ.length s.seQ).length ≤ s.ywCap.toNat →
      s.memBytes < s.ywBase.toNat + s.ywLen.toNat + 8 * (flushWords s.tailPad s.seQ.length s.seQ).length →
      seFlush s = .error .bus) := by
  have h := byteAppend_raises _ { s with seQ := [] } (length_flushBytes_ne_zero (tailPad := s.tailPad) hq)
  rwa [length_flatMap_bytes] at h

/-- Settles O40: the range check comes before the append, and each append raises its two errors in order. -/
theorem encoderErrors : Obligations.EncoderErrors := by
  intro s hs
  exact ⟨fun hv => exec_of_effect_error hs (sePushValue_of_large s hv),
    fun hv hq hcap => exec_of_effect_error hs ((sePushValue_sixtieth_raises hv hq).1 hcap),
    fun hv hq hcap hbus => exec_of_effect_error hs ((sePushValue_sixtieth_raises hv hq).2 hcap hbus),
    fun hq hcap => exec_of_effect_error hs ((seFlush_raises hq).1 hcap),
    fun hq hcap hbus => exec_of_effect_error hs ((seFlush_raises hq).2 hcap hbus)⟩

/-- Settles O41: a flush is one append of its words' bytes from a state with an empty FIFO. -/
theorem flushEmitsTheQueue : Obligations.FlushEmitsTheQueue := by
  intro s hs
  refine ⟨fun hq => exec_of_effect_ok hs (seFlush_of_empty hq), ?_⟩
  intro _ hm ws hroom
  rw [← length_flatMap_bytes] at hroom
  obtain ⟨t, hflush, hframe, hlen, hmem⟩ := byteAppend_appends (s := { s with seQ := [] }) hm hroom
  rw [length_flatMap_bytes] at hlen
  exact ⟨t, exec_of_effect_ok hs hflush, hframe, hlen, hmem⟩

/-! ### `SD.NEXT` (R221) -/

/-- Masking keeps the low `w` bits. -/
theorem toNat_and_mask (x : Word) {w : Nat} (hw : w ≤ 64) : (x &&& mask w).toNat = x.toNat % 2 ^ w := by
  rw [BitVec.toNat_and, toNat_mask_of_le hw, Nat.and_two_pow_sub_one_eq_mod]

/-- Settles O43: the field that `IDX` points to, of the word held or of the word fetched. -/
theorem decoderReturnsTheNextField : Obligations.DecoderReturnsTheNextField := by
  intro s hs
  refine ⟨fun hvalid hidx => ?_, ?_⟩
  · have hwidth : selWidth s.sdCtrl.sel ≤ 64 := (selWidth_le _).trans (by decide)
    refine ⟨_, exec_of_effect_ok hs (congrArg toDout (sdNextValue_held s hvalid hidx)), rfl, rfl, hvalid,
      toNat_idx_succ hidx, ?_⟩
    change (sdExtract s).toNat = _
    rw [sdExtract, toNat_and_mask _ hwidth, BitVec.toNat_ushiftRight, Nat.shiftRight_eq_div_pow]
  · intro hneed hread word
    have hwidth : selWidth (word.extractLsb' 60 4) ≤ 64 := (selWidth_le _).trans (by decide)
    exact ⟨_, exec_of_effect_ok hs (congrArg toDout (sdNextValue_fetch s hneed hread)), rfl, yrPos_after s 8 hread.1,
      toNat_and_mask word hwidth⟩

/-- `DD.NEXT` raises what its `SDNext` raises (R251). -/
theorem ddNext_of_error {s : State} {e : ErrCode} (h : sdNextValue s = .error e) : ddNext s = .error e := by
  rw [ddNext, h]

/-- Settles O44: both commands raise what `SDNext` raises. -/
theorem decoderErrors : Obligations.DecoderErrors := by
  intro s hs hneed i hi
  have heffect {e : ErrCode} (h : sdNextValue s = .error e) : effect i s = .error e := by
    obtain rfl | rfl := List.mem_pair.mp hi
    · exact congrArg toDout h
    · exact ddNext_of_error h
  obtain ⟨hoob, hbus⟩ := sdNextValue_raises s hneed
  exact ⟨fun h => exec_of_effect_error hs (heffect (hoob h)),
    fun h h' => exec_of_effect_error hs (heffect (hbus h h'))⟩

end Sys2Proof.Proofs

/-! The Simple8B stream as a whole (R223): the words an encoder has written and the values they and its FIFO hold; a
decoder over written words, and the fields it has still to return; and the two put together. -/

namespace Sys2Proof.Proofs

open Sys2Proof Sys2Proof.Machine Sys2Proof.Laws

/-! ### Words in memory (R65, R77) -/

/-- The 64-bit words `ws` stand in memory from address `a` on, 8 bytes each (R62). -/
def WordsAt (m : Memory) (a : Nat) (ws : List Word) : Prop :=
  ∀ k, (h : k < ws.length) → Memory.readLE m (a + 8 * k) 8 = ws[k]

/-- The first of the words, and the words behind it. -/
theorem wordsAt_cons_iff {m : Memory} {a : Nat} {w : Word} {ws : List Word} :
    WordsAt m a (w :: ws) ↔ Memory.readLE m a 8 = w ∧ WordsAt m (a + 8) ws := by
  constructor
  · intro h
    refine ⟨h 0 (Nat.zero_lt_succ _), fun k hk => ?_⟩
    rw [Nat.add_assoc, Nat.add_comm 8, ← Nat.mul_succ]
    exact h (k + 1) (Nat.succ_lt_succ hk)
  · rintro ⟨hw, hws⟩ k hk
    cases k with
    | zero => exact hw
    | succ k =>
      rw [Nat.mul_succ, Nat.add_comm (8 * k), ← Nat.add_assoc]
      exact hws k (Nat.lt_of_succ_lt_succ hk)

/-- Words are where their first part is and, behind it, the rest. -/
theorem wordsAt_append {m : Memory} : ∀ {ws new : List Word} {a : Nat}, WordsAt m a ws →
    WordsAt m (a + 8 * ws.length) new → WordsAt m a (ws ++ new)
  | [], _, _, _, hnew => hnew
  | w :: ws, new, a, h, hnew => by
    obtain ⟨hw, hws⟩ := wordsAt_cons_iff.mp h
    refine wordsAt_cons_iff.mpr ⟨hw, wordsAt_append hws ?_⟩
    rw [List.length_cons, Nat.mul_succ, Nat.add_comm (8 * ws.length), ← Nat.add_assoc] at hnew
    exact hnew

/-- Words are the bytes they cover, and nothing else (R62). -/
theorem wordsAt_of_read_eq {m m' : Memory} {a : Nat} {ws : List Word} (h : WordsAt m a ws)
    (hread : ∀ b, a ≤ b → b < a + 8 * ws.length → Memory.read m' b = Memory.read m b) : WordsAt m' a ws := by
  intro k hk
  rw [← h k hk]
  exact readLE_congr _ _ _ 8 fun j hj => hread _ (by omega) (by omega)

/-- A word whose bytes stand in memory in R65's order stands there (R67). -/
theorem readLE_eight_of_bytes {m : Memory} {a : Nat} {w : Word}
    (h : ∀ j < 8, Memory.read m (a + j) = w.extractLsb' (8 * j) 8) : Memory.readLE m a 8 = w := by
  rw [readLE_of_bytes m a 8 w h, show mask (8 * 8) = BitVec.allOnes 64 from by decide, BitVec.and_allOnes]

/-- Words whose bytes stand in memory one after another stand there (R65, R77). -/
theorem wordsAt_of_bytes {m : Memory} : ∀ {ws : List Word} {a : Nat},
    (∀ j, (h : j < (ws.flatMap fun w => bytesLE w 8).length) →
      Memory.read m (a + j) = (ws.flatMap fun w => bytesLE w 8)[j]) → WordsAt m a ws
  | [], _, _ => fun _ hk => absurd hk (Nat.not_lt_zero _)
  | w :: ws, a, h => by
    simp only [List.flatMap_cons, List.length_append, length_bytesLE] at h
    refine wordsAt_cons_iff.mpr ⟨readLE_eight_of_bytes fun j hj => ?_, wordsAt_of_bytes fun j hj => ?_⟩
    · rw [h j (by omega), List.getElem_append_left (by rwa [length_bytesLE]), getElem_bytesLE]
    · rw [Nat.add_assoc, h (8 + j) (by omega), List.getElem_append_right (by rw [length_bytesLE]; omega)]
      simp [length_bytesLE]

/-! ### What an encoder has taken (R211, R213) -/

/-- A completed `ByteAppend` lengthens the written bytes by its own, and inside MEM where there are any (R77). -/
theorem byteAppend_length {b : List Byte} {s t : State} (h : byteAppend b s = .ok t) :
    t.ywLen.toNat = s.ywLen.toNat + b.length ∧
      (0 < b.length → s.ywBase.toNat + s.ywLen.toNat + b.length ≤ s.memBytes) := by
  cases b with
  | nil =>
    obtain rfl := Except.ok.inj h
    exact ⟨rfl, fun hb => absurd hb (Nat.lt_irrefl 0)⟩
  | cons x xs =>
    obtain ⟨hcap, hbus, rfl⟩ := byteAppend_ok h (Nat.succ_ne_zero _)
    exact ⟨ywLen_after s _ hcap, fun _ => hbus⟩

/-- The byte writer of `s` holds the words `ws` and nothing else (R77). -/
structure WriterHolds (s : State) (ws : List Word) : Prop where
  canonical : Memory.wf s.mem = true
  len : s.ywLen.toNat = 8 * ws.length
  fits : 0 < ws.length → s.ywBase.toNat + 8 * ws.length ≤ s.memBytes
  words : WordsAt s.mem s.ywBase.toNat ws

/-- An empty byte writer holds no words. -/
theorem writerHolds_nil {s : State} (hm : Memory.wf s.mem = true) (hlen : s.ywLen = 0) : WriterHolds s [] where
  canonical := hm
  len := by simp [hlen]
  fits h := absurd h (Nat.lt_irrefl 0)
  words _ hk := absurd hk (Nat.not_lt_zero _)

/-- A completed append of words' bytes puts them behind the words held (R77). -/
theorem writerHolds_byteAppend {s t : State} {ws new : List Word} (hs : WriterHolds s ws)
    (h : byteAppend (new.flatMap fun w => bytesLE w 8) s = .ok t) : WriterHolds t (ws ++ new) := by
  obtain ⟨hnew, hold⟩ := bytesAppended_of_byteAppend hs.canonical h
  obtain ⟨hlen, hbus⟩ := byteAppend_length h
  obtain ⟨hbase, hbytes⟩ : t.ywBase = s.ywBase ∧ t.memBytes = s.memBytes := by
    rw [byteAppend_frame h]
    exact ⟨rfl, rfl⟩
  rw [length_flatMap_bytes, hs.len] at hlen hbus
  have hfits := hs.fits
  have hkept : WordsAt t.mem s.ywBase.toNat ws :=
    wordsAt_of_read_eq hs.words fun b _ hb => hold b (.inl (by rwa [hs.len]))
  have hput : WordsAt t.mem (s.ywBase.toNat + 8 * ws.length) new := hs.len ▸ wordsAt_of_bytes hnew
  refine ⟨(byteAppend_mem h hs.canonical).1, ?_, fun hne => ?_, ?_⟩
  · rw [List.length_append]
    omega
  · rw [List.length_append] at hne ⊢
    rw [hbase, hbytes]
    omega
  · rw [hbase]
    exact wordsAt_append hkept hput

/-- The encoder of `s` has taken the values `vs`: the fields of the words written, and behind them the FIFO
(R205, R211). -/
def EncoderTook (s : State) (vs : List Word) : Prop :=
  ∃ ws, WriterHolds s ws ∧ ws.flatMap wordValues ++ s.seQ.map (fun v => v.setWidth 64) = vs

/-- A packable value survives the FIFO's 60 bits (R47, R200). -/
theorem setWidth_packable {v : Word} (hv : v.toNat < 2 ^ 60) : (v.setWidth 60).setWidth 64 = v := by
  apply BitVec.eq_of_toNat_eq
  rw [toNat_widened (by decide), BitVec.toNat_setWidth, Nat.mod_eq_of_lt hv]

/-- A word packed from 60 values has no spare field: selectors of non-zero width have at most 60 (R101, R205). -/
theorem wordValues_select_of_sixty (tailPad : Bool) {q : List Packable} (hq : 60 ≤ q.length) :
    wordValues (select tailPad q).word = (q.take (select tailPad q).used).map fun v => v.setWidth 64 := by
  have hne : q ≠ [] := List.ne_nil_of_length_pos (by omega)
  obtain ⟨hw, -, -⟩ := chooseSelector_admissible tailPad hne
  have hcount : selCount (select tailPad q).sel ≤ 60 := selCount_le_of_width _ hw
  have hused : (select tailPad q).used = min (selCount (select tailPad q).sel) q.length := taken_length _ _
  rw [wordValues_select tailPad hne, Nat.sub_eq_zero_of_le (by omega), List.replicate_zero, List.append_nil]

/-- A packable value queued behind the values of a FIFO, read back as 64-bit values (R47, R211). -/
theorem map_setWidth_queued (q : List Packable) {v : Word} (hv : v.toNat < 2 ^ 60) :
    (q ++ [v.setWidth 60]).map (fun x => x.setWidth 64) = q.map (fun x => x.setWidth 64) ++ [v] := by
  rw [List.map_append, List.map_singleton, setWidth_packable hv]

/-- The word of the 60th push and the values it leaves queued are the queue and the value pushed (R205, R211). -/
theorem wordValues_pushSelection {v : Word} {s : State} (hv : v.toNat < 2 ^ 60) (hq : s.seQ.length = 59) :
    wordValues (pushSelection v s).word ++ (afterSixtieth v s).seQ.map (fun x => x.setWidth 64) =
      s.seQ.map (fun x => x.setWidth 64) ++ [v] := by
  have hsixty : 60 ≤ (s.seQ ++ [v.setWidth 60]).length := by simp [hq]
  rw [pushSelection, wordValues_select_of_sixty _ hsixty, afterSixtieth, pushSelection, ← List.map_append,
    List.take_append_drop, map_setWidth_queued _ hv]

/-- A completed `SEPush` adds its value behind those taken, queued or written (R211). -/
theorem encoderTook_sePushValue {v : Word} {s t : State} {vs : List Word} (hs : EncoderTook s vs)
    (h : sePushValue v s = .ok t) : EncoderTook t (vs ++ [v]) := by
  obtain ⟨ws, hws, rfl⟩ := hs
  obtain ⟨hv, -⟩ := sePushValue_cases h
  rw [EncoderTook, List.append_assoc]
  by_cases hq : s.seQ.length = 59
  · rw [sePushValue_of_sixtieth hv hq, ← List.flatMap_singleton (fun w => bytesLE w 8)] at h
    have hrest : t.seQ = (afterSixtieth v s).seQ := by rw [byteAppend_frame h]
    refine ⟨_, writerHolds_byteAppend (s := afterSixtieth v s) { hws with } h, ?_⟩
    rw [List.flatMap_append, List.flatMap_singleton, hrest, List.append_assoc, wordValues_pushSelection hv hq]
  · rw [sePushValue_of_queue hv hq] at h
    obtain rfl := Except.ok.inj h
    exact ⟨ws, { hws with }, congrArg _ (map_setWidth_queued s.seQ hv)⟩

/-- A completed `SE.FLUSH` leaves the values taken in the words written, behind them only spare fields (R213). -/
theorem writerHolds_seFlush {s t : State} {vs : List Word} (hs : EncoderTook s vs) (h : seFlush s = .ok t) :
    ∃ ws k, WriterHolds t ws ∧ ws.flatMap wordValues = vs ++ List.replicate k 0 := by
  obtain ⟨ws, hws, hvs⟩ := hs
  obtain ⟨k, hvalues, -⟩ := flushWords_values s.tailPad s.seQ.length s.seQ le_rfl
  refine ⟨_, k, writerHolds_byteAppend (s := { s with seQ := [] }) { hws with } h, ?_⟩
  rw [List.flatMap_append, hvalues, ← hvs, List.append_assoc]

/-- No command of an encoding executes while halted (R305). -/
theorem executesHalted_of_pushes {vs : List Word} :
    ∀ c ∈ (vs.map fun v => ((.sePush, v) : Transaction)) ++ [(.seFlush, 0)], executesHalted c.1 = false := by
  intro c hc
  obtain hpush | hflush := List.mem_append.mp hc
  · obtain ⟨v, -, rfl⟩ := List.mem_map.mp hpush
    rfl
  · rw [List.mem_singleton.mp hflush]
    rfl

/-- Values pushed and flushed, all succeeding, are in the words written, behind the values taken before (R223). -/
theorem writerHolds_of_pushes {t : State} (ht : t.halted = false) : ∀ {vs before : List Word} {s : State},
    s.halted = false → EncoderTook s before →
    issueAll ((vs.map fun v => (.sePush, v)) ++ [(.seFlush, 0)]) s = .next t →
    ∃ ws k, WriterHolds t ws ∧ ws.flatMap wordValues = (before ++ vs) ++ List.replicate k 0
  | [], before, s, hs, hbefore, h => by
    obtain ⟨u, hflush, -, hend⟩ := effect_of_issueAll_cons (executesHalted_of_pushes (vs := [])) hs h ht
    obtain rfl : u = t := Host.Outcome.next.inj hend
    obtain ⟨ws, hws, hvs⟩ := hbefore
    rw [List.append_nil]
    exact writerHolds_seFlush (s := s.latch 0) ⟨ws, { hws with }, hvs⟩ hflush
  | v :: vs, before, s, hs, hbefore, h => by
    obtain ⟨u, hpush, hu, htail⟩ := effect_of_issueAll_cons (executesHalted_of_pushes (vs := v :: vs)) hs h ht
    obtain ⟨ws, hws, hvs⟩ := hbefore
    have hpushed : EncoderTook u (before ++ [v]) :=
      encoderTook_sePushValue (s := s.latch v) ⟨ws, { hws with }, hvs⟩ hpush
    rw [List.append_cons before v vs]
    exact writerHolds_of_pushes ht hu hpushed htail

/-! ### What a decoder has still to return (R221) -/

theorem length_wordValues (w : Word) : (wordValues w).length = selCount (w.extractLsb' 60 4) := by
  simp [wordValues]

theorem getElem_wordValues (w : Word) (i : Nat) (h : i < (wordValues w).length) :
    (wordValues w)[i] = (w >>> (i * selWidth (w.extractLsb' 60 4))) &&& mask (selWidth (w.extractLsb' 60 4)) := by
  simp [wordValues]

/-- The decoder of `s` stands before the words `ws`, which it can fetch, and a word it holds is consistent (R49). -/
structure DecoderFaces (s : State) (ws : List Word) : Prop where
  running : s.halted = false
  view : s.yrPos.toNat + 8 * ws.length ≤ s.yrLen.toNat
  fits : 0 < ws.length → s.yrBase.toNat + s.yrPos.toNat + 8 * ws.length ≤ s.memBytes
  words : WordsAt s.mem (s.yrBase.toNat + s.yrPos.toNat) ws
  held : s.sdCtrl.valid = true →
    s.sdCtrl.sel = s.sdWord.extractLsb' 60 4 ∧ s.sdCtrl.idx.toNat ≤ selCount s.sdCtrl.sel

/-- The fields of the word held that the decoder has not returned yet (R221). -/
def fieldsLeft (s : State) : List Word :=
  if s.sdCtrl.valid then (wordValues s.sdWord).drop s.sdCtrl.idx.toNat else []

/-- The decoder of `s` will return the values `vs`: the fields left, and then those of the words it faces (R222). -/
def DecoderYields (s : State) (vs : List Word) : Prop :=
  ∃ ws, DecoderFaces s ws ∧ fieldsLeft s ++ ws.flatMap wordValues = vs

/-- A decoder that needs a word has no field left (R221). -/
theorem fieldsLeft_of_exhausted {s : State} {ws : List Word} (hs : DecoderFaces s ws)
    (h : s.sdCtrl.valid = false ∨ s.sdCtrl.idx.toNat = selCount s.sdCtrl.sel) : fieldsLeft s = [] := by
  rw [fieldsLeft]
  split
  · rename_i hvalid
    obtain ⟨hsel, -⟩ := hs.held hvalid
    have hidx := h.resolve_left (by simp [hvalid])
    exact List.drop_eq_nil_of_le (by rw [length_wordValues, ← hsel, hidx])
  · rfl

/-- `SDNext` with a field left returns it (R221). -/
theorem sdNextValue_of_held {s : State} {ws : List Word} (hs : DecoderFaces s ws) (hvalid : s.sdCtrl.valid = true)
    (hidx : s.sdCtrl.idx.toNat < selCount s.sdCtrl.sel) :
    ∃ v t, sdNextValue s = .ok (v, t) ∧ DecoderFaces t ws ∧ fieldsLeft s = v :: fieldsLeft t := by
  obtain ⟨hsel, -⟩ := hs.held hvalid
  have hnext := toNat_idx_succ hidx
  refine ⟨_, _, sdNextValue_held s hvalid hidx,
    { hs with held := fun _ => ⟨hsel, hnext.trans_le hidx⟩ }, ?_⟩
  have hlen : s.sdCtrl.idx.toNat < (wordValues s.sdWord).length := by rwa [length_wordValues, ← hsel]
  simp only [fieldsLeft, hvalid, if_true, hnext]
  rw [List.drop_eq_getElem_cons hlen, getElem_wordValues, ← hsel, sdExtract]

/-- `SDNext` that needs a word fetches the next one and returns its first field (R221). -/
theorem sdNextValue_of_exhausted {s : State} {w : Word} {ws : List Word} (hs : DecoderFaces s (w :: ws))
    (h : s.sdCtrl.valid = false ∨ s.sdCtrl.idx.toNat = selCount s.sdCtrl.sel) :
    ∃ v t, sdNextValue s = .ok (v, t) ∧ DecoderFaces t ws ∧ wordValues w = v :: fieldsLeft t := by
  have hview := hs.view
  have hfits := hs.fits (Nat.zero_lt_succ _)
  rw [List.length_cons] at hview hfits
  obtain ⟨hw, hws⟩ := wordsAt_cons_iff.mp hs.words
  have hpos := yrPos_after s 8 (by omega)
  have hfetch := sdNextValue_fetch s h ⟨by omega, by omega⟩
  simp only [hw] at hfetch
  refine ⟨_, _, hfetch, ⟨hs.running, ?_, fun _ => ?_, ?_, fun _ => ⟨rfl, selCount_pos _⟩⟩, ?_⟩
  · simp only [hpos]
    omega
  · simp only [hpos]
    omega
  · simp only [hpos, ← Nat.add_assoc]
    exact hws
  · have hlen : 0 < (wordValues w).length := (length_wordValues w).symm ▸ selCount_pos _
    rw [← List.drop_zero (l := wordValues w), List.drop_eq_getElem_cons hlen, getElem_wordValues, Nat.zero_mul,
      BitVec.ushiftRight_zero]
    rfl

/-- `SDNext` returns the first of the values the decoder will return, and will return the rest (R221, R222). -/
theorem sdNextValue_of_yields {s : State} {v : Word} {vs : List Word} (h : DecoderYields s (v :: vs)) :
    ∃ t, sdNextValue s = .ok (v, t) ∧ DecoderYields t vs := by
  obtain ⟨ws, hs, hvalues⟩ := h
  by_cases hneed : s.sdCtrl.valid = false ∨ s.sdCtrl.idx.toNat = selCount s.sdCtrl.sel
  · rw [fieldsLeft_of_exhausted hs hneed, List.nil_append] at hvalues
    cases ws with
    | nil => cases hvalues
    | cons w ws =>
      obtain ⟨v', t, hnext, ht, hw⟩ := sdNextValue_of_exhausted hs hneed
      rw [List.flatMap_cons, hw, List.cons_append] at hvalues
      obtain ⟨rfl, hrest⟩ := List.cons.inj hvalues
      exact ⟨t, hnext, ws, ht, hrest⟩
  · obtain ⟨hnot, hne⟩ := not_or.mp hneed
    have hvalid : s.sdCtrl.valid = true := Bool.eq_true_of_not_eq_false hnot
    obtain ⟨v', t, hnext, ht, hleft⟩ :=
      sdNextValue_of_held hs hvalid (Nat.lt_of_le_of_ne (hs.held hvalid).2 hne)
    rw [hleft, List.cons_append] at hvalues
    obtain ⟨rfl, hrest⟩ := List.cons.inj hvalues
    exact ⟨t, hnext, ws, ht, hrest⟩

/-- A decoder returns, one `SD.NEXT` each, the values it will return (R223). -/
theorem collectAll_sdNext : ∀ {vs rest : List Word} {u : State}, DecoderYields u (vs ++ rest) →
    ∃ v, collectAll (List.replicate vs.length (.sdNext, 0)) u = some (vs, v)
  | [], _, u, _ => ⟨u, rfl⟩
  | x :: vs, rest, u, h => by
    obtain ⟨ws, hfaces, hvalues⟩ := h
    obtain ⟨t, hnext, ws', ht, hrest⟩ := sdNextValue_of_yields (s := u.latch 0) ⟨ws, { hfaces with }, hvalues⟩
    obtain ⟨v, hv⟩ := collectAll_sdNext (u := { t with dout := x }) ⟨ws', { ht with }, hrest⟩
    exact ⟨v, collectAll_cons (c := (.sdNext, 0)) hfaces.running (congrArg toDout hnext) ht.running hv⟩

/-! ### Round trip (R223) -/

/-- A view of written words, with the decoder clear, faces all of them (R220, R223). -/
theorem decoderFaces_of_views {u t : State} {ws : List Word} (hview : ViewsByteStream u t) (ht : WriterHolds t ws) :
    DecoderFaces u ws ∧ fieldsLeft u = [] := by
  obtain ⟨hu, hbytes, hbase, hlen, hpos, hclear, hread⟩ := hview
  have hstart : u.yrPos.toNat = 0 := by simp [hpos]
  have hwords : WordsAt u.mem t.ywBase.toNat ws :=
    wordsAt_of_read_eq ht.words fun b hlo hhi => hread b hlo (by rwa [ht.len])
  refine ⟨⟨hu, ?_, fun h => ?_, ?_, fun h => ?_⟩, by simp [fieldsLeft, hclear]⟩
  · rw [hstart, hlen, ht.len, Nat.zero_add]
  · rw [hbase, hstart, hbytes, Nat.add_zero]
    exact ht.fits h
  · rwa [hbase, hstart, Nat.add_zero]
  · exact absurd (hclear.symm.trans h) Bool.false_ne_true

/-- Settles O45: the words flushed hold the values pushed, and a decoder over them returns their fields in order. -/
theorem simple8bRoundTrip : Obligations.Simple8bRoundTrip := by
  intro vs s t u hs hm hq hlen hissue ht hview
  have hstart : EncoderTook s [] := ⟨[], writerHolds_nil hm hlen, by simp [hq]⟩
  obtain ⟨ws, k, hws, hvalues⟩ := writerHolds_of_pushes ht hs hstart hissue
  obtain ⟨hfaces, hnone⟩ := decoderFaces_of_views hview hws
  exact collectAll_sdNext ⟨ws, hfaces, by rw [hnone, List.nil_append, hvalues, List.nil_append]⟩

end Sys2Proof.Proofs

/-! The delta-of-delta commands (R240 to R251): `DE.PUSH` as `SEPush` of its element, when it raises, and what `DD.NEXT`
makes of the element of `SD.NEXT`. -/

namespace Sys2Proof.Proofs

open Sys2Proof Sys2Proof.Machine Sys2Proof.Laws

/-! ### The element and the difference, phase by phase (R240) -/

/-- The encoder of `s` makes of the value `v` the element `e`, the difference `d` and the phase `p` (R246). -/
structure EncodesAs (s : State) (v e d : Word) (p : Phase) : Prop where
  element : deElement s v = e
  delta : deDelta s v = d
  phase : nextPhase s.dePhase = p

/-- The first value is its own element, and its recorded difference is 0. -/
theorem encodesAs_of_zero {s : State} (h : s.dePhase = .zero) (v : Word) : EncodesAs s v v 0 .one := by
  constructor <;> simp [deElement, deDelta, nextPhase, h]

/-- The second value's element is its first difference. -/
theorem encodesAs_of_one {s : State} (h : s.dePhase = .one) (v : Word) :
    EncodesAs s v (zigzag (v - s.dePrev)) (v - s.dePrev) .two := by
  constructor <;> simp [deElement, deDelta, nextPhase, h]

/-- Every later value's element is its second difference. -/
theorem encodesAs_of_two {s : State} (h : s.dePhase = .two) (v : Word) :
    EncodesAs s v (zigzag (v - s.dePrev - s.dePdelta)) (v - s.dePrev) .two := by
  constructor <;> simp [deElement, deDelta, nextPhase, h]

/-! ### `DE.PUSH` (R246) -/

/-- A completed `SEPush` of the element completes `DE.PUSH`. -/
theorem dePush_of_ok {s u : State} {e d : Word} {p : Phase} (h : EncodesAs s s.din e d p)
    (hpush : sePushValue e s = .ok u) :
    dePush s = .ok { u with dePrev := s.din, dePdelta := d, dePhase := p, dout := e } := by
  obtain ⟨rfl, rfl, rfl⟩ := h
  rw [dePush, hpush]

/-- `DE.PUSH` raises what the `SEPush` of its element raises. -/
theorem dePush_error_iff {s : State} {e d : Word} {p : Phase} {x : ErrCode} (h : EncodesAs s s.din e d p) :
    dePush s = .error x ↔ sePushValue e s = .error x := by
  rw [← h.element]
  exact ⟨dePush_error, fun hpush => by rw [dePush, hpush]⟩

/-- `DE.PUSH` of a packable element that completes no 60 values (R211, R246). -/
theorem exec_dePush_of_queue {s : State} {e d : Word} {p : Phase} (hs : s.halted = false) (hq : s.seQ.length ≠ 59)
    (h : EncodesAs s s.din e d p) (he : e.toNat < 2 ^ 60) :
    exec .dePush s = .next { s with
      seQ := s.seQ ++ [e.setWidth 60], dePrev := s.din, dePdelta := d, dePhase := p, dout := e } :=
  exec_of_effect_ok hs (dePush_of_ok h (sePushValue_of_queue he hq))

/-- Settles O46: `DE.PUSH` of a queued element, with the element and the difference of each phase. -/
theorem deltaPushRecordsTheDifference : Obligations.DeltaPushRecordsTheDifference := by
  intro s hs hq
  exact ⟨fun hp => exec_dePush_of_queue hs hq (encodesAs_of_zero hp _),
    fun hp => exec_dePush_of_queue hs hq (encodesAs_of_one hp _),
    fun hp => exec_dePush_of_queue hs hq (encodesAs_of_two hp _)⟩

/-! ### `DE.PUSH` against `SE.PUSH` (R246) -/

/-- `ByteAppend` neither reads nor writes `DIN` (R77). -/
theorem byteAppend_latch (b : List Byte) (s : State) (d : Word) :
    byteAppend b (s.latch d) = (byteAppend b s).map (·.latch d) := by
  simp only [byteAppend, apply_ite (Except.map fun t : State => t.latch d)]
  rfl

/-- `SEPush` takes its value from its caller: it neither reads nor writes `DIN` (R211). -/
theorem sePushValue_latch (v : Word) (s : State) (d : Word) :
    sePushValue v (s.latch d) = (sePushValue v s).map (·.latch d) := by
  simp only [sePushValue_eq, apply_ite (Except.map fun t : State => t.latch d), ← byteAppend_latch]
  rfl

/-- Settles O47: both commands are `SEPush` of the same value, from states that differ in `DIN` alone. -/
theorem deltaPushFeedsThePacker : Obligations.DeltaPushFeedsThePacker := by
  intro s t e d p hs hzero hone htwo hexec
  have hencodes : EncodesAs s s.din e d p := by
    cases hphase : s.dePhase with
    | zero =>
      obtain ⟨rfl, rfl, rfl⟩ := hzero hphase
      exact encodesAs_of_zero hphase _
    | one =>
      obtain ⟨rfl, rfl, rfl⟩ := hone hphase
      exact encodesAs_of_one hphase _
    | two =>
      obtain ⟨rfl, rfl, rfl⟩ := htwo hphase
      exact encodesAs_of_two hphase _
  have hsame : sePushValue e s = (sePushValue e (s.latch e)).map (·.latch s.din) :=
    sePushValue_latch e (s.latch e) s.din
  cases hpush : sePushValue e (s.latch e) with
  | error x =>
    rw [hpush] at hsame
    have hraise := exec_of_effect_error (i := .sePush) (s := s.latch e) hs hpush
    obtain rfl := Host.Outcome.next.inj (hraise.symm.trans hexec)
    exact ⟨fun _ => exec_of_effect_error hs ((dePush_error_iff hencodes).mpr hsame), fun h => Bool.noConfusion h⟩
  | ok u =>
    rw [hpush] at hsame
    have hdone := exec_of_effect_ok (i := .sePush) (s := s.latch e) hs hpush
    obtain rfl := Host.Outcome.next.inj (hdone.symm.trans hexec)
    have hrun : u.halted = false := by
      rw [sePushValue_frame hpush]
      exact hs
    exact ⟨fun h => absurd (hrun.symm.trans h) Bool.false_ne_true,
      fun _ => exec_of_effect_ok hs (dePush_of_ok hencodes hsame)⟩

/-! ### When `DE.PUSH` raises ERR_RANGE (R242) -/

/-- `SEPush` raises ERR_RANGE for the values of `2^60` or more, and for no other reason (R211). -/
theorem sePushValue_range_iff {v : Word} {s : State} : sePushValue v s = .error .range ↔ 2 ^ 60 - 1 < v.toNat := by
  refine ⟨fun h => ?_, fun hv => sePushValue_of_large s (by omega)⟩
  by_contra hv
  rw [sePushValue_eq, if_neg hv] at h
  split at h
  · obtain hcap | hbus := byteAppend_error h
    · cases hcap
    · cases hbus
  · cases h

/-- The zig-zag of a difference is too large where the difference, as signed, leaves the 60-bit range (R190, R242). -/
theorem zigzag_large_iff (x : Word) :
    2 ^ 60 - 1 < (zigzag x).toNat ↔ ¬ (-2 ^ 59 ≤ x.toInt ∧ x.toInt ≤ 2 ^ 59 - 1) :=
  Nat.not_le.symm.trans (not_congr (toNat_zigzag_packable_iff x))

/-- `DE.PUSH` raises ERR_RANGE for the elements of `2^60` or more, and for no other reason (R242). -/
theorem dePush_range_iff {s : State} {e d : Word} {p : Phase} (h : EncodesAs s s.din e d p) :
    dePush s = .error .range ↔ 2 ^ 60 - 1 < e.toNat :=
  (dePush_error_iff h).trans sePushValue_range_iff

/-- Settles O48: the range check is `SEPush`'s, on the element of the phase. -/
theorem deltaRangeIsOfTheElement : Obligations.DeltaRangeIsOfTheElement := by
  intro s hs
  rw [exec_raises_iff hs (by decide) (by decide)]
  cases hp : s.dePhase with
  | zero => exact dePush_range_iff (encodesAs_of_zero hp _)
  | one => exact (dePush_range_iff (encodesAs_of_one hp _)).trans (zigzag_large_iff _)
  | two => exact (dePush_range_iff (encodesAs_of_two hp _)).trans (zigzag_large_iff _)

/-! ### `DD.NEXT` (R243, R251) -/

/-- `SDNext` completes with a field left in a valid word or a whole word readable (R221). -/
theorem sdNextValue_of_ready {s : State}
    (h : (s.sdCtrl.valid = true ∧ s.sdCtrl.idx.toNat < selCount s.sdCtrl.sel) ∨
      ((s.sdCtrl.valid = false ∨ s.sdCtrl.idx.toNat = selCount s.sdCtrl.sel) ∧ BytesReadable s 8)) :
    ∃ e u, sdNextValue s = .ok (e, u) := by
  obtain ⟨hvalid, hidx⟩ | ⟨hneed, hread⟩ := h
  · exact ⟨_, _, sdNextValue_held s hvalid hidx⟩
  · exact ⟨_, _, sdNextValue_fetch s hneed hread⟩

/-- The decoder of `s` makes of the element `e` the value `v`, the delta `d` and the phase `p` (R251). -/
structure DecodesAs (s : State) (e v d : Word) (p : Phase) : Prop where
  value : ddValueAfter s e = v
  delta : ddDeltaAfter s e = d
  phase : nextPhase s.ddPhase = p

/-- The first element is the value, and the delta behind it is 0. -/
theorem decodesAs_of_zero {s : State} (h : s.ddPhase = .zero) (e : Word) : DecodesAs s e e 0 .one := by
  constructor <;> simp [ddValueAfter, ddDeltaAfter, nextPhase, h]

/-- The second element is the delta to the value before. -/
theorem decodesAs_of_one {s : State} (h : s.ddPhase = .one) (e : Word) :
    DecodesAs s e (s.ddLast + unzigzag e) (unzigzag e) .two := by
  constructor <;> simp [ddValueAfter, ddDeltaAfter, nextPhase, h]

/-- Every later element is what the delta changes by. -/
theorem decodesAs_of_two {s : State} (h : s.ddPhase = .two) (e : Word) :
    DecodesAs s e (s.ddLast + (s.ddDelta + unzigzag e)) (s.ddDelta + unzigzag e) .two := by
  constructor <;> simp [ddValueAfter, ddDeltaAfter, nextPhase, h]

/-- A completed `SDNext` completes `DD.NEXT` (R251). -/
theorem ddNext_of_ok {s u : State} {e v d : Word} {p : Phase} (hnext : sdNextValue s = .ok (e, u))
    (h : DecodesAs s e v d p) : ddNext s = .ok { u with ddDelta := d, ddLast := v, ddPhase := p, dout := v } := by
  obtain ⟨rfl, rfl, rfl⟩ := h
  rw [ddNext, hnext]

/-- Settles O49: both commands complete with the same `SDNext`, and `DD.NEXT` rebuilds the value from its element. -/
theorem deltaNextRebuildsTheValue : Obligations.DeltaNextRebuildsTheValue := by
  intro s hs hready
  obtain ⟨e, u, hnext⟩ := sdNextValue_of_ready hready
  obtain ⟨hstatus, hphase⟩ : u.status = s.status ∧ u.ddPhase = s.ddPhase := by
    rw [sdNextValue_frame hnext]
    exact ⟨rfl, rfl⟩
  have hdd {v d : Word} {p : Phase} (h : DecodesAs s e v d p) :
      exec .ddNext s = .next { u with ddDelta := d, ddLast := v, ddPhase := p, dout := v } :=
    exec_of_effect_ok hs (ddNext_of_ok hnext h)
  refine ⟨{ u with dout := e }, exec_of_effect_ok hs (congrArg toDout hnext),
    (congrArg Status.fault hstatus).trans hs, fun hp => hdd (decodesAs_of_zero hp e),
    fun hp => hdd (decodesAs_of_one hp e), fun hp => ?_⟩
  have hkept : u.ddPhase = .two := hphase.trans hp
  have htwo := hdd (decodesAs_of_two hp e)
  rwa [← hkept] at htwo

end Sys2Proof.Proofs

/-! The delta-of-delta stream as a whole (R253): the elements of a sequence of values, a decoder that follows the
encoder, and the round trip over the Simple8B stream. -/

namespace Sys2Proof.Proofs

open Sys2Proof Sys2Proof.Machine Sys2Proof.Laws

/-! ### The elements of a sequence of values (R240, R246) -/

/-- `s` with the value `v` recorded by the encoder: what `DE.PUSH` does to its three registers (R246). -/
def deRecord (s : State) (v : Word) : State :=
  { s with dePrev := v, dePdelta := deDelta s v, dePhase := nextPhase s.dePhase }

/-- The elements that the encoder of `s` hands to the packer for the values `vs`, in order (R240). -/
def deElements : State → List Word → List Word
  | _, [] => []
  | s, v :: vs => deElement s v :: deElements (deRecord s v) vs

/-- `s` and `t` hold the same in the encoder's three registers (R50 to R52). -/
structure SameEncoder (s t : State) : Prop where
  prev : s.dePrev = t.dePrev
  delta : s.dePdelta = t.dePdelta
  phase : s.dePhase = t.dePhase

/-- The difference and the element are functions of the encoder's registers. -/
theorem deElement_congr {s t : State} (h : SameEncoder s t) (v : Word) :
    deElement s v = deElement t v ∧ deDelta s v = deDelta t v := by
  simp only [deElement, deDelta, h.prev, h.delta, h.phase, and_self]

/-- So are the elements of a sequence of values. -/
theorem deElements_congr : ∀ {s t : State} (vs : List Word), SameEncoder s t → deElements s vs = deElements t vs
  | _, _, [], _ => rfl
  | s, t, v :: vs, h => by
    obtain ⟨helem, hdelta⟩ := deElement_congr h v
    have hnext : SameEncoder (deRecord s v) (deRecord t v) := ⟨rfl, hdelta, congrArg nextPhase h.phase⟩
    rw [deElements, deElements, helem, deElements_congr vs hnext]

/-- A completed `DE.PUSH` records its operand, and the packer has taken its element (R246). -/
theorem encoderTook_dePush {s t : State} {es : List Word} (hs : EncoderTook s es) (h : dePush s = .ok t) :
    EncoderTook t (es ++ [deElement s s.din]) ∧ SameEncoder t (deRecord s s.din) := by
  obtain ⟨u, hpush, rfl⟩ := dePush_cases h
  obtain ⟨ws, hws, hes⟩ := encoderTook_sePushValue hs hpush
  exact ⟨⟨ws, { hws with }, hes⟩, rfl, rfl, rfl⟩

/-- No command of a delta-of-delta encoding executes while halted (R305). -/
theorem executesHalted_of_dePushes {vs : List Word} :
    ∀ c ∈ (vs.map fun v => ((.dePush, v) : Transaction)) ++ [(.seFlush, 0)], executesHalted c.1 = false := by
  intro c hc
  obtain hpush | hflush := List.mem_append.mp hc
  · obtain ⟨v, -, rfl⟩ := List.mem_map.mp hpush
    rfl
  · rw [List.mem_singleton.mp hflush]
    rfl

/-- Values pushed by `DE.PUSH` and flushed, all succeeding, have their elements in the words written (R246, R253). -/
theorem writerHolds_of_dePushes {t : State} (ht : t.halted = false) : ∀ {vs before : List Word} {s : State},
    s.halted = false → EncoderTook s before →
    issueAll ((vs.map fun v => (.dePush, v)) ++ [(.seFlush, 0)]) s = .next t →
    ∃ ws k, WriterHolds t ws ∧ ws.flatMap wordValues = (before ++ deElements s vs) ++ List.replicate k 0
  | [], _, _, hs, hbefore, h => by
    rw [deElements, List.append_nil]
    simpa only [List.append_nil] using writerHolds_of_pushes (vs := []) ht hs hbefore h
  | v :: vs, before, s, hs, ⟨ws, hws, hvs⟩, h => by
    obtain ⟨u, hpush, hu, htail⟩ := effect_of_issueAll_cons (executesHalted_of_dePushes (vs := v :: vs)) hs h ht
    obtain ⟨htook, hsame⟩ := encoderTook_dePush (s := s.latch v) ⟨ws, { hws with }, hvs⟩ hpush
    have hrest : deElements u vs = deElements (deRecord s v) vs := deElements_congr vs { hsame with }
    rw [deElements, List.append_cons before, ← hrest]
    exact writerHolds_of_dePushes ht hu htook htail

/-! ### The decoder follows the encoder (R243, R251) -/

/-- The decoder of `u` has rebuilt what the encoder of `s` has recorded, as far as the phase has filled its registers
(R50 to R55). -/
structure Follows (u s : State) : Prop where
  phase : u.ddPhase = s.dePhase
  last : s.dePhase ≠ .zero → u.ddLast = s.dePrev
  delta : s.dePhase = .two → u.ddDelta = s.dePdelta

/-- The element of a value gives back the value: zig-zag is undone, and each difference is added to what it was taken
from (R192, R240, R243). -/
theorem decodesAs_of_follows {u s : State} (h : Follows u s) (v : Word) :
    DecodesAs u (deElement s v) v (deDelta s v) (nextPhase s.dePhase) := by
  cases hp : s.dePhase with
  | zero =>
    obtain ⟨helem, hdelta, -⟩ := encodesAs_of_zero hp v
    rw [helem, hdelta]
    exact decodesAs_of_zero (h.phase.trans hp) v
  | one =>
    obtain ⟨helem, hdelta, -⟩ := encodesAs_of_one hp v
    have hdecodes := decodesAs_of_one (h.phase.trans hp) (zigzag (v - s.dePrev))
    rw [unzigzag_zigzag, h.last (by simp [hp]), add_sub_cancel] at hdecodes
    rwa [helem, hdelta]
  | two =>
    obtain ⟨helem, hdelta, -⟩ := encodesAs_of_two hp v
    have hdecodes := decodesAs_of_two (h.phase.trans hp) (zigzag (v - s.dePrev - s.dePdelta))
    rw [unzigzag_zigzag, h.delta hp, add_sub_cancel, h.last (by simp [hp]), add_sub_cancel] at hdecodes
    rwa [helem, hdelta]

/-- `DD.NEXT` over the element of a value returns the value, and the decoder follows on (R251). -/
theorem ddNext_of_follows {u s : State} {v : Word} {es : List Word} (h : Follows u s)
    (hyields : DecoderYields u (deElement s v :: es)) :
    ∃ t, ddNext u = .ok t ∧ t.dout = v ∧ Follows t (deRecord s v) ∧ DecoderYields t es := by
  obtain ⟨t, hnext, ws, ht, hes⟩ := sdNextValue_of_yields hyields
  exact ⟨_, ddNext_of_ok hnext (decodesAs_of_follows h v), rfl, ⟨rfl, fun _ => rfl, fun _ => rfl⟩,
    ws, { ht with }, hes⟩

/-- A decoder that follows the encoder returns, one `DD.NEXT` each, the values whose elements it faces (R253). -/
theorem collectAll_ddNext : ∀ {vs rest : List Word} {u s : State}, Follows u s →
    DecoderYields u (deElements s vs ++ rest) →
    ∃ v, collectAll (List.replicate vs.length (.ddNext, 0)) u = some (vs, v)
  | [], _, u, _, _, _ => ⟨u, rfl⟩
  | x :: vs, rest, u, s, hfollows, ⟨ws, hfaces, hes⟩ => by
    obtain ⟨t, hnext, rfl, ht, ws', hfaces', hes'⟩ :=
      ddNext_of_follows (u := u.latch 0) { hfollows with } ⟨ws, { hfaces with }, hes⟩
    obtain ⟨v, hv⟩ := collectAll_ddNext ht ⟨ws', hfaces', hes'⟩
    exact ⟨v, collectAll_cons (c := (.ddNext, 0)) hfaces.running hnext hfaces'.running hv⟩

/-- Settles O50: the Simple8B stream carries the elements, and a decoder that starts in phase 0 follows the encoder. -/
theorem deltaOfDeltaRoundTrip : Obligations.DeltaOfDeltaRoundTrip := by
  intro vs s t u hs hm hq hlen hphase hissue ht hview hclear
  have hstart : EncoderTook s [] := ⟨[], writerHolds_nil hm hlen, by simp [hq]⟩
  obtain ⟨ws, k, hws, hvalues⟩ := writerHolds_of_dePushes ht hs hstart hissue
  obtain ⟨hfaces, hnone⟩ := decoderFaces_of_views hview hws
  have hfollows : Follows u s :=
    ⟨hclear.trans hphase.symm, fun h => absurd hphase h, fun h => by simp [hphase] at h⟩
  exact collectAll_ddNext hfollows ⟨ws, hfaces, by rw [hnone, List.nil_append, hvalues, List.nil_append]⟩

end Sys2Proof.Proofs

/-! The Gorilla encoder (spec/46_gorilla.md R261 to R271): a window holds all of an XOR exactly where its two counts allow
it; the bits of each kind of record; and what `GE.PUT` appends, records and raises. -/

namespace Sys2Proof.Proofs

open Sys2Proof Sys2Proof.Machine Sys2Proof.Laws

/-! ### Windows (R261 to R264) -/

/-- R262: the active window is reusable for the XOR `x`. -/
def Reusable (c : GorillaCtrl) (x : Word) : Prop :=
  c.wvalid = true ∧ c.lzb.toNat ≤ clz64 x ∧ c.tzb.toNat ≤ ctz64 x

theorem windowReusable_iff {c : GorillaCtrl} {x : Word} : windowReusable c x = true ↔ Reusable c x := by
  simp [windowReusable, Reusable, and_assoc]

theorem dataBits_le (c : GorillaCtrl) : c.dataBits ≤ 64 := by
  unfold GorillaCtrl.dataBits
  omega

/-- The window `(LZB, TZB)` leaves out only 0 bits of `x`, which has a bit that is not 0. -/
structure WindowFits (c : GorillaCtrl) (x : Word) : Prop where
  leading : c.lzb.toNat ≤ clz64 x
  trailing : c.tzb.toNat ≤ ctz64 x
  nonzero : x ≠ 0

/-- Such a window has a data bit, because the counts of a value that is not 0 leave one (R263). -/
theorem WindowFits.dataBits_bounds {c : GorillaCtrl} {x : Word} (h : WindowFits c x) :
    1 ≤ c.dataBits ∧ c.dataBits ≤ 64 ∧ c.lzb.toNat + c.tzb.toNat + c.dataBits = 64 := by
  have hsum := clz64_add_ctz64_le x h.nonzero
  have hlead := h.leading
  have htrail := h.trailing
  unfold GorillaCtrl.dataBits
  omega

/-- Its data bits are all the bits of `x` that are not 0 (R262). -/
theorem WindowFits.mem_window {c : GorillaCtrl} {x : Word} {i : Nat} (h : WindowFits c x) (hi : x.getLsbD i = true) :
    c.tzb.toNat ≤ i ∧ i < c.tzb.toNat + c.dataBits := by
  obtain ⟨-, -, hsum⟩ := h.dataBits_bounds
  have hlow : ¬ i < ctz64 x := fun hlt => by simp [getLsbD_of_ctz64 x i hlt] at hi
  have hhigh : ¬ 64 ≤ i + clz64 x := fun hge => by simp [getLsbD_of_clz64 x i hge] at hi
  have hlead := h.leading
  have htrail := h.trailing
  omega

/-- A word that agrees with the data bits of `x` and is 0 beyond them gives `x` back when shifted into the window: the
decoder's shift undoes the encoder's (R271, R281). -/
theorem WindowFits.shiftLeft_eq {c : GorillaCtrl} {x m : Word} (h : WindowFits c x)
    (hm : ∀ j, m.getLsbD j = (decide (j < c.dataBits) && x.getLsbD (c.tzb.toNat + j))) : m <<< c.tzb.toNat = x := by
  apply BitVec.eq_of_getLsbD_eq
  intro i hi
  rw [BitVec.getLsbD_shiftLeft, hm]
  cases hx : x.getLsbD i with
  | true =>
    obtain ⟨hlo, hup⟩ := h.mem_window hx
    simp [hi, hlo, Nat.add_sub_cancel' hlo, hx, show i - c.tzb.toNat < c.dataBits by omega]
  | false =>
    by_cases hlo : i < c.tzb.toNat
    · simp [hlo]
    · simp [Nat.add_sub_cancel' (Nat.le_of_not_lt hlo), hx]

theorem toNat_lzb_newWindow (x : Word) : (newWindow x).lzb.toNat = min (clz64 x) 31 := by
  simp only [newWindow, BitVec.toNat_ofNat]
  omega

theorem toNat_tzb_newWindow {x : Word} (hx : x ≠ 0) : (newWindow x).tzb.toNat = ctz64 x := by
  have hsum := clz64_add_ctz64_le x hx
  simp only [newWindow, BitVec.toNat_ofNat]
  omega

theorem dataBits_newWindow {x : Word} (hx : x ≠ 0) : (newWindow x).dataBits = 64 - min (clz64 x) 31 - ctz64 x := by
  rw [GorillaCtrl.dataBits, toNat_lzb_newWindow, toNat_tzb_newWindow hx]

/-- The new window of R264 fits the XOR it is made from: clamping only lowers its leading count. -/
theorem windowFits_newWindow {x : Word} (hx : x ≠ 0) : WindowFits (newWindow x) x where
  leading := (toNat_lzb_newWindow x).trans_le (Nat.min_le_left _ _)
  trailing := (toNat_tzb_newWindow hx).le
  nonzero := hx

/-! ### The bits of a record (R107, R108, R271) -/

/-- The data bits of a record are those of the XOR in the window. -/
theorem getLsbD_dataField (c : GorillaCtrl) (x : Word) (j : Nat) :
    (dataField c x).getLsbD j = (decide (j < c.dataBits) && x.getLsbD (c.tzb.toNat + j)) := by
  have hdb := dataBits_le c
  rw [dataField, BitVec.getLsbD_setWidth, BitVec.getLsbD_and, BitVec.getLsbD_ushiftRight, getLsbD_mask]
  by_cases hj : j < c.dataBits
  · simp [hj, show j < 64 by omega, show j < 77 by omega]
  · simp [hj]

/-- R107: `'1'`, `'0'` and the data bits. -/
def reuseBit (c : GorillaCtrl) (x : Word) (j : Nat) : Bool :=
  if j = 0 then true else if j = 1 then false else x.getLsbD (c.tzb.toNat + (j - 2))

theorem getLsbD_reuseRecord {c : GorillaCtrl} {x : Word} {j : Nat} (hj : j < 2 + c.dataBits) :
    (reuseRecord c x).getLsbD j = reuseBit c x j := by
  have hdb := dataBits_le c
  rw [reuseRecord, reuseBit, BitVec.getLsbD_or, BitVec.getLsbD_shiftLeft, getLsbD_dataField]
  obtain rfl | rfl | hdata : j = 0 ∨ j = 1 ∨ 2 ≤ j := by omega
  · simp
  · simp
  · simp [show j ≠ 0 by omega, show j ≠ 1 by omega, show ¬ j < 2 by omega,
      show j < 77 by omega, show j - 2 < c.dataBits by omega]

/-- R107, R108: `'1'`, `'1'`, LZB in 5 bits, the DB code in 6 bits (0 for 64), and the data bits. -/
def newBit (lz tz db : Nat) (x : Word) (j : Nat) : Bool :=
  if j < 2 then true
  else if j < 7 then lz.testBit (j - 2)
  else if j < 13 then (db % 64).testBit (j - 7)
  else x.getLsbD (tz + (j - 13))

theorem getLsbD_newRecord {c : GorillaCtrl} {x : Word} {j : Nat} (hj : j < 13 + c.dataBits) :
    (newRecord c x).getLsbD j = newBit c.lzb.toNat c.tzb.toNat c.dataBits x j := by
  have hdb := dataBits_le c
  have hcontrol : (0b11#77).getLsbD j = decide (j < 2) := by
    rw [BitVec.getLsbD_ofNat, show 0b11 = 2 ^ 2 - 1 from rfl, Nat.testBit_two_pow_sub_one]
    simp [show j < 77 by omega]
  have hlzb : (c.lzb.setWidth 77 <<< 2).getLsbD j = (decide (2 ≤ j) && c.lzb.toNat.testBit (j - 2)) := by
    rw [BitVec.getLsbD_shiftLeft, BitVec.getLsbD_setWidth, BitVec.getLsbD]
    by_cases h : 2 ≤ j
    · simp [h, show ¬ j < 2 by omega, show j < 77 by omega, show j - 2 < 77 by omega]
    · simp [h, Nat.lt_of_not_le h]
  have hcode : ((BitVec.ofNat 6 (c.dataBits % 64)).setWidth 77 <<< 7).getLsbD j =
      (decide (7 ≤ j) && decide (j < 13) && (c.dataBits % 64).testBit (j - 7)) := by
    rw [BitVec.getLsbD_shiftLeft, BitVec.getLsbD_setWidth, BitVec.getLsbD_ofNat]
    by_cases h : 7 ≤ j
    · simp [h, show ¬ j < 7 by omega, show j < 77 by omega, show j - 7 < 77 by omega,
        show j - 7 < 6 ↔ j < 13 by omega]
    · simp [h, Nat.lt_of_not_le h]
  have hlzbEnd (h : 7 ≤ j) : c.lzb.toNat.testBit (j - 2) = false :=
    Nat.testBit_lt_two_pow (lt_of_lt_of_le c.lzb.isLt (Nat.pow_le_pow_right (by decide) (by omega)))
  rw [newRecord, newBit, BitVec.getLsbD_or, BitVec.getLsbD_or, BitVec.getLsbD_or, hcontrol, hlzb, hcode,
    BitVec.getLsbD_shiftLeft, getLsbD_dataField]
  obtain h | h | h | h : j < 2 ∨ (2 ≤ j ∧ j < 7) ∨ (7 ≤ j ∧ j < 13) ∨ 13 ≤ j := by omega
  · simp [h]
  · simp [h, show ¬ j < 2 by omega, show j < 13 by omega, show ¬ 7 ≤ j by omega]
  · simp [h, show ¬ j < 2 by omega, show ¬ j < 7 by omega, hlzbEnd h.1]
  · simp [show ¬ j < 2 by omega, show ¬ j < 7 by omega, show ¬ j < 13 by omega, hlzbEnd (by omega),
      show j < 77 by omega, show j - 13 < c.dataBits by omega]

/-! ### The record of a value (R107, R265, R271) -/

theorem encodeRecord_of_first {last v : Word} {c : GorillaCtrl} (h : c.started = false) :
    encodeRecord last c v = { bits := v.setWidth 77, length := 64, ctrl := { c with started := true } } :=
  if_pos h

theorem encodeRecord_of_repeat {last v : Word} {c : GorillaCtrl} (h : c.started = true) (hv : v = last) :
    encodeRecord last c v = { bits := 0, length := 1, ctrl := c } := by
  simp [encodeRecord, h, hv]

theorem xor_ne_zero {v last : Word} (hv : v ≠ last) : v ^^^ last ≠ 0 := fun h => hv (BitVec.xor_eq_zero_iff.mp h)

theorem encodeRecord_of_reuse {last v : Word} {c : GorillaCtrl} (h : c.started = true) (hv : v ≠ last)
    (hr : Reusable c (v ^^^ last)) :
    encodeRecord last c v = { bits := reuseRecord c (v ^^^ last), length := 2 + c.dataBits, ctrl := c } := by
  simp [encodeRecord, h, hv, windowReusable_iff.mpr hr]

theorem encodeRecord_of_new {last v : Word} {c : GorillaCtrl} (h : c.started = true) (hv : v ≠ last)
    (hr : ¬ Reusable c (v ^^^ last)) :
    encodeRecord last c v =
      { bits := newRecord (newWindow (v ^^^ last)) (v ^^^ last)
        length := 13 + (newWindow (v ^^^ last)).dataBits
        ctrl := newWindow (v ^^^ last) } := by
  simp [encodeRecord, h, hv, mt windowReusable_iff.mp hr]

theorem windowFits_of_reusable {last v : Word} {c : GorillaCtrl} (hv : v ≠ last) (hr : Reusable c (v ^^^ last)) :
    WindowFits c (v ^^^ last) := by
  obtain ⟨-, hlead, htrail⟩ := hr
  exact ⟨hlead, htrail, xor_ne_zero hv⟩

/-! ### `GE.PUT` (R271) -/

/-- `GE.PUT` with room for its record appends the record's bits and records the value and the window. -/
theorem gePut_appends {s : State} {r : GorillaRecord} {f : Nat → Bool} (hm : Memory.wf s.mem = true)
    (hr : encodeRecord s.geLast s.geCtrl s.din = r) (hroom : BitRoom s r.length)
    (hf : ∀ j < r.length, r.bits.getLsbD j = f j) :
    ∃ t, effect .gePut s = .ok t ∧
      t = { s with mem := t.mem, bwBits := t.bwBits, geLast := s.din, geCtrl := r.ctrl } ∧
      t.bwBits.toNat = s.bwBits.toNat + r.length ∧ BitsAppended s t.mem r.length f := by
  obtain ⟨t, ht, hframe, hlen, hmem⟩ := bitAppend_appends hm (.inr hroom) hf
  refine ⟨{ t with geLast := s.din, geCtrl := r.ctrl }, ?_, ?_, hlen, hmem⟩
  · simp only [effect, gePut, hr, ht]
  · rw [hframe]

/-- `GE.PUT` raises what the append of its record raises, and nothing but `STATUS` changes (R303, R304). -/
theorem gePut_raises {s : State} {r : GorillaRecord} (hs : s.halted = false)
    (hr : encodeRecord s.geLast s.geCtrl s.din = r) (hn : r.length ≠ 0) :
    (encodeRecord s.geLast s.geCtrl s.din).length = r.length ∧
    (s.bwCap.toNat < (s.bwBits.toNat + r.length + 63) / 64 →
      exec .gePut s = .next { s with status := { err := .cap, fault := true } }) ∧
    ((s.bwBits.toNat + r.length + 63) / 64 ≤ s.bwCap.toNat →
      s.memBytes < s.bwBase.toNat + 8 * ((s.bwBits.toNat + r.length + 63) / 64) →
      exec .gePut s = .next { s with status := { err := .bus, fault := true } }) := by
  obtain ⟨hcap, hbus⟩ := bitAppend_raises r.bits r.length s hn
  have hraise {e : ErrCode} (he : bitAppend r.bits r.length s = .error e) :
      exec .gePut s = .next { s with status := { err := e, fault := true } } :=
    exec_of_effect_error hs (by simp only [effect, gePut, hr, he])
  exact ⟨congrArg _ hr, fun h => hraise (hcap h), fun h1 h2 => hraise (hbus h1 h2)⟩

/-- Settles O52: the record of a first value is the value, and that of a repeat is a 0 bit. -/
theorem gorillaFirstAndRepeat : Obligations.GorillaFirstAndRepeat := by
  intro s hs hm
  refine ⟨fun hstart hroom => ?_, fun hstart hv hroom => ?_⟩
  · have hbits : ∀ j < 64, (s.din.setWidth 77).getLsbD j = s.din.getLsbD j := fun j hj => by
      simp [show j < 77 by omega]
    obtain ⟨t, hput, hrest⟩ := gePut_appends hm (encodeRecord_of_first hstart) hroom hbits
    exact ⟨t, exec_of_effect_ok hs hput, hrest⟩
  · obtain ⟨t, hput, hframe, hrest⟩ :=
      gePut_appends (f := fun _ => false) hm (encodeRecord_of_repeat hstart hv) hroom fun j _ => BitVec.getLsbD_zero
    exact ⟨t, exec_of_effect_ok hs hput, hv ▸ hframe, hrest⟩

/-- Settles O53: the record is the control bits and the data bits, and the reuse test makes the window fit the XOR. -/
theorem gorillaReusesTheWindow : Obligations.GorillaReusesTheWindow := by
  intro s hs hm hstart hv hvalid hlead htrail db hroom
  have hr : Reusable s.geCtrl (s.din ^^^ s.geLast) := ⟨hvalid, hlead, htrail⟩
  obtain ⟨t, hput, hframe, hlen, hmem⟩ :=
    gePut_appends hm (encodeRecord_of_reuse hstart hv hr) hroom fun _ hj => getLsbD_reuseRecord hj
  exact ⟨t, exec_of_effect_ok hs hput, hframe, hlen, hmem, fun i hi => (windowFits_of_reusable hv hr).mem_window hi⟩

/-- Settles O54: the record names the new window, whose fields are the clamped and the trailing count. -/
theorem gorillaNewWindow : Obligations.GorillaNewWindow := by
  intro s hs hm hstart hv hr lz tz db hroom
  have hx := xor_ne_zero hv
  have hlz : (newWindow (s.din ^^^ s.geLast)).lzb.toNat = lz := toNat_lzb_newWindow _
  have htz : (newWindow (s.din ^^^ s.geLast)).tzb.toNat = tz := toNat_tzb_newWindow hx
  have hdb : (newWindow (s.din ^^^ s.geLast)).dataBits = db := dataBits_newWindow hx
  obtain ⟨hpos, -, -⟩ := (windowFits_newWindow hx).dataBits_bounds
  rw [← hdb] at hroom
  obtain ⟨t, hput, hframe, hlen, hmem⟩ :=
    gePut_appends hm (encodeRecord_of_new hstart hv hr) hroom fun _ hj => getLsbD_newRecord hj
  have hctrl : t.geCtrl = newWindow (s.din ^^^ s.geLast) := by rw [hframe]
  refine ⟨t, exec_of_effect_ok hs hput, hctrl ▸ hframe, ?_⟩
  simp only [hlz, htz, hdb] at hlen hmem
  rw [hctrl]
  exact ⟨rfl, rfl, hlz, htz, hdb ▸ hpos, hlen, hmem⟩

/-- Settles O55: the four kinds of record, with the bounds on `DB` of a window that fits. -/
theorem gorillaEncoderErrors : Obligations.GorillaEncoderErrors := by
  intro s hs x reusable errors
  refine ⟨fun hstart => ?_, fun hstart hv => ?_, fun hstart hv hr => ?_, fun hstart hv hr => ?_⟩
  · exact gePut_raises hs (encodeRecord_of_first hstart) (by simp)
  · exact gePut_raises hs (encodeRecord_of_repeat hstart hv) (by simp)
  · obtain ⟨hlo, hup, -⟩ := (windowFits_of_reusable hv hr).dataBits_bounds
    have hraises := gePut_raises hs (encodeRecord_of_reuse hstart hv hr) (by simp)
    exact ⟨Nat.add_le_add_left hlo 2, Nat.add_le_add_left hup 2, hraises⟩
  · have hx := xor_ne_zero hv
    obtain ⟨hlo, hup, -⟩ := (windowFits_newWindow hx).dataBits_bounds
    have hraises := gePut_raises hs (encodeRecord_of_new hstart hv hr) (by simp)
    rw [dataBits_newWindow hx] at hlo hup hraises
    exact ⟨Nat.add_le_add_left hlo 13, Nat.add_le_add_left hup 13, hraises⟩

end Sys2Proof.Proofs

/-! The Gorilla decoder (spec/46_gorilla.md R281): what `GD.NEXT` makes of each kind of record, field by field from the bit
cursor's position on, and which field stops it. -/

namespace Sys2Proof.Proofs

open Sys2Proof Sys2Proof.Machine Sys2Proof.Laws

/-! ### The bit cursor between two fields (R74) -/

/-- `s` with the bit cursor `k` bits further. -/
def pastBits (s : State) (k : Nat) : State := { s with brPos := BitVec.ofNat 64 (s.brPos.toNat + k) }

theorem pastBits_zero (s : State) : pastBits s 0 = s := by
  simp [pastBits]

theorem toNat_brPos_pastBits {s : State} {k : Nat} (h : BitsReadable s k) :
    (pastBits s k).brPos.toNat = s.brPos.toNat + k :=
  brPos_after s k h.1

/-- The first field from the cursor on. -/
theorem bitFetch_of_bitsReadable {s : State} {n : Nat} (h : BitsReadable s n) :
    bitFetch n s = .ok (viewField s 0 n, pastBits s n) := by
  have hfetch := bitFetch_field (k := 0) ((Nat.zero_add n).symm ▸ h)
  rw [Nat.zero_add] at hfetch
  exact (congrArg (bitFetch n) (pastBits_zero s).symm).trans hfetch

/-- The first field, cut off by the end of the view or of MEM. -/
theorem bitFetch_of_stops {s : State} {n : Nat} {e : ErrCode} (hn : 0 < n) (h : FetchStops s n e) :
    bitFetch n s = .error e := by
  obtain ⟨hoob, hbus⟩ := bitFetch_raises n s
  obtain ⟨rfl, hview⟩ | ⟨rfl, hview, hmem⟩ := h
  · exact hoob hview
  · exact hbus hview hn hmem

/-- A fetch of one bit is 1 exactly where the view's bit is. -/
theorem viewField_one_eq_one_iff (s : State) (k : Nat) : viewField s k 1 = 1 ↔ viewBit s k = true := by
  rw [viewField_one]
  cases viewBit s k <;> simp

theorem toNat_viewField_lt (s : State) (k n : Nat) : (viewField s k n).toNat < 2 ^ n := by
  apply Nat.lt_pow_two_of_testBit
  intro i hi
  rw [← BitVec.getLsbD, viewField, getLsbD_wordOfBits]
  simp [Nat.not_lt.mpr hi]

/-! ### The data bits (R281) -/

/-- `s` after a windowed record with the window `c`, whose data bits begin `k` bits from the cursor. -/
def afterWindowed (s : State) (c : GorillaCtrl) (k : Nat) : State :=
  { pastBits s (k + c.dataBits) with
    gdCtrl := c, gdLast := s.gdLast ^^^ (viewField s k c.dataBits <<< c.tzb.toNat) }

/-- The data bits under a window, read once the `k` bits before them are. -/
theorem gdData_of_window {s : State} {c : GorillaCtrl} {k : Nat} (h : BitsReadable s (k + c.dataBits)) :
    gdData { pastBits s k with gdCtrl := c } = .ok (afterWindowed s c k) := by
  have hfetch : bitFetch c.dataBits { pastBits s k with gdCtrl := c } = _ := bitFetch_field (s := { s with gdCtrl := c }) h
  simp only [gdData, hfetch]
  rfl

theorem gdData_of_stops {s : State} {c : GorillaCtrl} {k : Nat} {e : ErrCode} (hk : BitsReadable s k) (hpos : 0 < k)
    (h : FetchStops s (k + c.dataBits) e) : gdData { pastBits s k with gdCtrl := c } = .error e := by
  have hfetch : bitFetch c.dataBits { pastBits s k with gdCtrl := c } = .error e :=
    bitFetch_field_stops (s := { s with gdCtrl := c }) hk (Nat.add_pos_left hpos _) h
  simp only [gdData, hfetch]

/-! ### The window (R108, R110, R281) -/

/-- The data-bit count that a new-window record at the cursor names: the DB code, 0 meaning 64 (R108). -/
def namedDataBits (s : State) : Nat := if viewField s 7 6 = 0 then 64 else (viewField s 7 6).toNat

/-- The window that a new-window record at the cursor names (R281). -/
def namedWindow (s : State) : GorillaCtrl :=
  { s.gdCtrl with
    lzb := (viewField s 2 5).setWidth 5
    tzb := BitVec.ofNat 6 (64 - (viewField s 2 5).toNat - namedDataBits s)
    wvalid := true }

theorem toNat_lzb_namedWindow (s : State) : (namedWindow s).lzb.toNat = (viewField s 2 5).toNat := by
  have hlt := toNat_viewField_lt s 2 5
  rw [namedWindow, BitVec.toNat_setWidth, Nat.mod_eq_of_lt hlt]

theorem toNat_tzb_namedWindow (s : State) :
    (namedWindow s).tzb.toNat = 64 - (viewField s 2 5).toNat - namedDataBits s := by
  have hpos : 1 ≤ namedDataBits s := one_le_dbOfCode _
  rw [namedWindow, BitVec.toNat_ofNat, Nat.mod_eq_of_lt (by omega)]

/-- The window named leaves the number of data bits named. -/
theorem dataBits_namedWindow {s : State} (h : (viewField s 2 5).toNat + namedDataBits s ≤ 64) :
    (namedWindow s).dataBits = namedDataBits s := by
  rw [GorillaCtrl.dataBits, toNat_lzb_namedWindow, toNat_tzb_namedWindow]
  omega

/-- Both fields that name a window, read: the window, unless it would have a negative TZB (R110). -/
theorem gdNewWindow_of_bitsReadable {s : State} (h : BitsReadable s 13) :
    gdNewWindow (pastBits s 2) =
      if (viewField s 2 5).toNat + namedDataBits s > 64 then .error .corrupt
      else .ok { pastBits s 13 with gdCtrl := namedWindow s } := by
  have hlzb : bitFetch 5 (pastBits s 2) = .ok (viewField s 2 5, pastBits s 7) :=
    bitFetch_field (bitsReadable_mono h (by omega))
  have hcode : bitFetch 6 (pastBits s 7) = .ok (viewField s 7 6, pastBits s 13) := bitFetch_field h
  simp only [gdNewWindow, hlzb, hcode]
  rfl

/-- LZB cut off. -/
theorem gdNewWindow_of_stops_lzb {s : State} {e : ErrCode} (h2 : BitsReadable s 2) (h : FetchStops s 7 e) :
    gdNewWindow (pastBits s 2) = .error e := by
  have hlzb : bitFetch 5 (pastBits s 2) = .error e := bitFetch_field_stops h2 (by omega) h
  simp only [gdNewWindow, hlzb]

/-- The DB code cut off. -/
theorem gdNewWindow_of_stops_code {s : State} {e : ErrCode} (h7 : BitsReadable s 7) (h : FetchStops s 13 e) :
    gdNewWindow (pastBits s 2) = .error e := by
  have hlzb : bitFetch 5 (pastBits s 2) = .ok (viewField s 2 5, pastBits s 7) := bitFetch_field h7
  have hcode : bitFetch 6 (pastBits s 7) = .error e := bitFetch_field_stops h7 (by omega) h
  simp only [gdNewWindow, hlzb, hcode]

/-- The second control bit, read: a new window, or the active one, which must exist (R110). -/
theorem gdWindow_of_bitsReadable {s : State} (h : BitsReadable s 2) :
    gdWindow (pastBits s 1) =
      if viewBit s 1 = true then gdNewWindow (pastBits s 2)
      else if s.gdCtrl.wvalid = false then .error .corrupt
      else .ok (pastBits s 2) := by
  have hbit : bitFetch 1 (pastBits s 1) = .ok (viewField s 1 1, pastBits s 2) := bitFetch_field h
  simp only [gdWindow, hbit, viewField_one_eq_one_iff]
  rfl

/-- The second control bit cut off. -/
theorem gdWindow_of_stops {s : State} {e : ErrCode} (h1 : BitsReadable s 1) (h : FetchStops s 2 e) :
    gdWindow (pastBits s 1) = .error e := by
  have hbit : bitFetch 1 (pastBits s 1) = .error e := bitFetch_field_stops h1 (by omega) h
  simp only [gdWindow, hbit]

/-! ### The record (R107, R109, R281) -/

/-- `GD.NEXT` returns the last value after its record. -/
theorem gdNext_of_record {s t : State} (h : gdRecord s = .ok t) : gdNext s = .ok { t with dout := t.gdLast } := by
  simp only [gdNext, h]

theorem gdNext_of_record_error {s : State} {e : ErrCode} (h : gdRecord s = .error e) : gdNext s = .error e := by
  simp only [gdNext, h]

theorem gdRecord_of_first {s : State} (hstart : s.gdCtrl.started = false) (h : BitsReadable s 64) :
    gdRecord s = .ok { pastBits s 64 with
      gdLast := viewField s 0 64, gdCtrl := { s.gdCtrl with started := true } } := by
  simp only [gdRecord, hstart, if_true, bitFetch_of_bitsReadable h]
  rfl

/-- The first control bit, read: a repeat, or the data bits under the record's window. -/
theorem gdRecord_of_started {s : State} (hstart : s.gdCtrl.started = true) (h : BitsReadable s 1) :
    gdRecord s = if viewBit s 0 = true then (gdWindow (pastBits s 1)).bind gdData else .ok (pastBits s 1) := by
  simp only [gdRecord, hstart, bitFetch_of_bitsReadable h, viewField_one_eq_one_iff, Bool.true_eq_false, if_false]
  cases gdWindow (pastBits s 1) <;> rfl

/-- The first value, or the first control bit, cut off. -/
theorem gdRecord_of_stops {s : State} {e : ErrCode}
    (h : FetchStops s (if s.gdCtrl.started = false then 64 else 1) e) : gdRecord s = .error e := by
  cases hstart : s.gdCtrl.started with
  | false =>
    have hfetch : bitFetch 64 s = .error e := bitFetch_of_stops (by omega) (by simpa [hstart] using h)
    simp only [gdRecord, hstart, hfetch, if_true]
  | true =>
    have hfetch : bitFetch 1 s = .error e := bitFetch_of_stops (by omega) (by simpa [hstart] using h)
    simp only [gdRecord, hstart, hfetch, Bool.true_eq_false, if_false]

/-- A windowed record whose window and data bits are readable. -/
theorem gdRecord_of_window {s : State} {c : GorillaCtrl} {k : Nat} (hstart : s.gdCtrl.started = true)
    (h : BitsReadable s (k + c.dataBits)) (hk : 1 ≤ k) (hbit : viewBit s 0 = true)
    (hwindow : gdWindow (pastBits s 1) = .ok { pastBits s k with gdCtrl := c }) :
    gdRecord s = .ok (afterWindowed s c k) := by
  rw [gdRecord_of_started hstart (bitsReadable_mono h (by omega)), if_pos hbit, hwindow]
  exact gdData_of_window h

/-- The window of a reuse record is the active one. -/
theorem gdWindow_of_reuse {s : State} (h : BitsReadable s 2) (hbit : viewBit s 1 = false)
    (hvalid : s.gdCtrl.wvalid = true) : gdWindow (pastBits s 1) = .ok { pastBits s 2 with gdCtrl := s.gdCtrl } := by
  rw [gdWindow_of_bitsReadable h, hbit, hvalid]
  rfl

/-- The window of a new-window record is the one it names. -/
theorem gdWindow_of_new {s : State} (h : BitsReadable s 13) (hbit : viewBit s 1 = true)
    (hsum : (viewField s 2 5).toNat + namedDataBits s ≤ 64) :
    gdWindow (pastBits s 1) = .ok { pastBits s 13 with gdCtrl := namedWindow s } := by
  rw [gdWindow_of_bitsReadable (bitsReadable_mono h (by omega)), if_pos hbit, gdNewWindow_of_bitsReadable h,
    if_neg (by omega)]

/-! ### `GD.NEXT` -/

/-- Settles O56: the record of a first value is the view's next 64 bits, and a repeat leaves the last value. -/
theorem gorillaDecodesFirstAndRepeat : Obligations.GorillaDecodesFirstAndRepeat := by
  intro s hs
  refine ⟨fun hstart hread => ?_, fun hstart hread hbit => ?_⟩
  · refine ⟨_, exec_of_effect_ok hs (gdNext_of_record (gdRecord_of_first hstart hread)), rfl,
      toNat_brPos_pastBits hread, fun j hj => ?_⟩
    simp only [viewField, getLsbD_wordOfBits, Nat.zero_add]
    simp [hj]
  · have hrecord : gdRecord s = .ok (pastBits s 1) := by simp [gdRecord_of_started hstart hread, hbit]
    exact ⟨_, exec_of_effect_ok hs (gdNext_of_record hrecord), rfl, toNat_brPos_pastBits hread⟩

/-- Settles O57: both kinds of windowed record are their data bits under a window, the active one or the one named. -/
theorem gorillaDecodesWindows : Obligations.GorillaDecodesWindows := by
  intro s hs hstart
  constructor
  · intro hvalid db hread hbit0 hbit1
    have hwindow := gdWindow_of_reuse (bitsReadable_mono hread (Nat.le_add_right 2 db)) hbit1 hvalid
    have hrecord := gdRecord_of_window hstart (c := s.gdCtrl) hread (by omega) hbit0 hwindow
    exact ⟨_, exec_of_effect_ok hs (gdNext_of_record hrecord), rfl, toNat_brPos_pastBits hread, rfl⟩
  · intro lz db hsum hread hbit0 hbit1
    have hdb : (namedWindow s).dataBits = namedDataBits s := dataBits_namedWindow hsum
    have hwindow := gdWindow_of_new (bitsReadable_mono hread (Nat.le_add_right 13 _)) hbit1 hsum
    have hrecord := gdRecord_of_window hstart (c := namedWindow s) (hdb.symm ▸ hread) (by omega) hbit0 hwindow
    refine ⟨_, exec_of_effect_ok hs (gdNext_of_record hrecord), rfl, hstart, rfl, toNat_lzb_namedWindow s,
      toNat_tzb_namedWindow s, ?_, ?_⟩
    · simp only [afterWindowed, hdb]
      exact toNat_brPos_pastBits hread
    · simp only [afterWindowed, hdb, toNat_tzb_namedWindow]
      rfl

/-- Settles O58: the field that is cut off, or the window that cannot be, ends the record. -/
theorem gorillaDecoderErrors : Obligations.GorillaDecoderErrors := by
  intro s hs raises cutsAt lz db
  have hraises {e : ErrCode} (h : gdRecord s = .error e) : raises e :=
    exec_of_effect_error hs (gdNext_of_record_error h)
  have hwindowed {e : ErrCode} (hstart : s.gdCtrl.started = true) (h1 : BitsReadable s 1) (hbit : viewBit s 0 = true)
      (h : (gdWindow (pastBits s 1)).bind gdData = .error e) : raises e :=
    hraises (by rw [gdRecord_of_started hstart h1, if_pos hbit, h])
  refine ⟨fun hstart e he => ?_, fun hstart e he => ?_, fun hstart h1 hbit0 e he => ?_,
    fun hstart h2 hbit0 hbit1 => ⟨fun hinvalid => ?_, fun hvalid e he => ?_⟩, fun hstart h2 hbit0 hbit1 => ?_⟩
  · exact hraises (gdRecord_of_stops (by simpa [hstart] using he))
  · exact hraises (gdRecord_of_stops (by simpa [hstart] using he))
  · apply hwindowed hstart h1 hbit0
    rw [gdWindow_of_stops h1 he]
    rfl
  · apply hwindowed hstart (bitsReadable_mono h2 (by omega)) hbit0
    simp [gdWindow_of_bitsReadable h2, hbit1, hinvalid, Except.bind]
  · apply hwindowed hstart (bitsReadable_mono h2 (by omega)) hbit0
    rw [gdWindow_of_reuse h2 hbit1 hvalid]
    exact gdData_of_stops h2 (by omega) he
  · have hnew {e : ErrCode} (h : (gdNewWindow (pastBits s 2)).bind gdData = .error e) : raises e := by
      apply hwindowed hstart (bitsReadable_mono h2 (by omega)) hbit0
      rwa [gdWindow_of_bitsReadable h2, if_pos hbit1]
    refine ⟨fun e he => ?_, fun h7 e he => ?_, fun h13 hsum => ?_, fun h13 hsum e he => ?_⟩
    · apply hnew
      rw [gdNewWindow_of_stops_lzb h2 he]
      rfl
    · apply hnew
      rw [gdNewWindow_of_stops_code h7 he]
      rfl
    · apply hnew
      have hneg : (viewField s 2 5).toNat + namedDataBits s > 64 := hsum
      rw [gdNewWindow_of_bitsReadable h13, if_pos hneg]
      rfl
    · apply hwindowed hstart (bitsReadable_mono h2 (by omega)) hbit0
      rw [gdWindow_of_new h13 hbit1 hsum]
      exact gdData_of_stops h13 (by omega) ((dataBits_namedWindow hsum).symm ▸ he)

end Sys2Proof.Proofs

/-! The Gorilla stream as a whole (R283): `GD.NEXT` over the bits of a record of `GE.PUT`, a decoder that follows the
encoder, and the round trip over the bit stream. -/

namespace Sys2Proof.Proofs

open Sys2Proof Sys2Proof.Machine Sys2Proof.Laws

/-! ### Reading a record's fields back (R107, R108) -/

/-- A field whose bits are those of a number is that number. -/
theorem toNat_viewField_of_testBit {s : State} {k n y : Nat} (hn : n ≤ 64) (hy : y < 2 ^ n)
    (h : ∀ j < n, viewBit s (k + j) = y.testBit j) : (viewField s k n).toNat = y := by
  apply Nat.eq_of_testBit_eq
  intro j
  rw [← BitVec.getLsbD, viewField, getLsbD_wordOfBits]
  by_cases hj : j < n
  · simp [hj, show j < 64 by omega, h j hj]
  · have hzero : y.testBit j = false :=
      Nat.testBit_lt_two_pow (hy.trans_le (Nat.pow_le_pow_right (by decide) (Nat.le_of_not_lt hj)))
    simp [hj, hzero]

/-- The data bits of an XOR under a window that fits it give the XOR. -/
theorem viewField_shiftLeft_of_data {s : State} {c : GorillaCtrl} {x : Word} {k : Nat} (hfit : WindowFits c x)
    (h : ∀ j < c.dataBits, viewBit s (k + j) = x.getLsbD (c.tzb.toNat + j)) :
    viewField s k c.dataBits <<< c.tzb.toNat = x := by
  obtain ⟨-, hdb, -⟩ := hfit.dataBits_bounds
  apply hfit.shiftLeft_eq
  intro j
  rw [viewField, getLsbD_wordOfBits]
  by_cases hj : j < c.dataBits
  · simp [hj, show j < 64 by omega, h j hj]
  · simp [hj]

/-- The bits of a new-window record name the encoder's window, also where the DB code is 0 (R108). -/
theorem namedWindow_of_newBits {s : State} {x : Word} (hstart : s.gdCtrl.started = true) (hx : x ≠ 0)
    (h : ∀ j < 13, viewBit s j =
      newBit (newWindow x).lzb.toNat (newWindow x).tzb.toNat (newWindow x).dataBits x j) :
    (viewField s 2 5).toNat + namedDataBits s ≤ 64 ∧ namedWindow s = newWindow x := by
  obtain ⟨hlo, hup, hsum⟩ := (windowFits_newWindow hx).dataBits_bounds
  have hlz : (viewField s 2 5).toNat = (newWindow x).lzb.toNat := by
    refine toNat_viewField_of_testBit (by decide) (newWindow x).lzb.isLt fun j hj => ?_
    rw [h _ (by omega), newBit, if_neg (by omega), if_pos (by omega), Nat.add_sub_cancel_left]
  have hcode : (viewField s 7 6).toNat = (newWindow x).dataBits % 64 := by
    refine toNat_viewField_of_testBit (by decide) (Nat.mod_lt _ (by decide)) fun j hj => ?_
    rw [h _ (by omega), newBit, if_neg (by omega), if_neg (by omega), if_pos (by omega), Nat.add_sub_cancel_left]
  have hzero : viewField s 7 6 = 0 ↔ (newWindow x).dataBits % 64 = 0 := by
    rw [← hcode, ← BitVec.toNat_inj]
    rfl
  have hdb : namedDataBits s = (newWindow x).dataBits := by
    simp only [namedDataBits, hzero, hcode]
    split <;> omega
  have hlzb : (namedWindow s).lzb = (newWindow x).lzb :=
    BitVec.eq_of_toNat_eq ((toNat_lzb_namedWindow s).trans hlz)
  have htzb : (namedWindow s).tzb = (newWindow x).tzb := by
    apply BitVec.eq_of_toNat_eq
    rw [toNat_tzb_namedWindow, hlz, hdb]
    omega
  refine ⟨by omega, ?_⟩
  rw [namedWindow, newWindow, GorillaCtrl.mk.injEq]
  exact ⟨hstart, rfl, hlzb, htzb⟩

/-! ### Decoding a record (R271, R281) -/

/-- The decoder of `u` has rebuilt what the encoder of `s` holds: the same window, and the last value once there is one
(R56 to R59). -/
structure GorillaFollows (u s : State) : Prop where
  ctrl : u.gdCtrl = s.geCtrl
  last : s.geCtrl.started = true → u.gdLast = s.geLast

/-- A windowed record whose data bits are those of the XOR of the value leaves the value. -/
theorem afterWindowed_of_data {u : State} {c : GorillaCtrl} {v : Word} {k : Nat} (hfit : WindowFits c (v ^^^ u.gdLast))
    (h : ∀ j < c.dataBits, viewBit u (k + j) = (v ^^^ u.gdLast).getLsbD (c.tzb.toNat + j)) :
    afterWindowed u c k = { pastBits u (k + c.dataBits) with gdLast := v, gdCtrl := c } := by
  have hvalue : u.gdLast ^^^ (v ^^^ u.gdLast) = v := by
    rw [BitVec.xor_comm v, ← BitVec.xor_assoc, BitVec.xor_self, BitVec.zero_xor]
  rw [afterWindowed, viewField_shiftLeft_of_data hfit h, hvalue]

/-- A decoder that follows the encoder, before the bits of the encoder's record of `v`, gets `v` and takes over the
control register that the encoder leaves. -/
theorem gdRecord_of_encodeRecord {u s : State} {v : Word} {r : GorillaRecord} (hfollows : GorillaFollows u s)
    (hr : encodeRecord s.geLast s.geCtrl v = r) (hread : BitsReadable u r.length)
    (hbits : ∀ j < r.length, viewBit u j = r.bits.getLsbD j) :
    gdRecord u = .ok { pastBits u r.length with gdLast := v, gdCtrl := r.ctrl } := by
  obtain ⟨hctrl, hlast⟩ := hfollows
  rw [← hctrl] at hr hlast
  cases hstart : u.gdCtrl.started with
  | false =>
    obtain rfl := (encodeRecord_of_first hstart).symm.trans hr
    have hvalue : viewField u 0 64 = v := by
      apply BitVec.eq_of_getLsbD_eq
      intro j hj
      rw [viewField, getLsbD_wordOfBits, Nat.zero_add, hbits j hj]
      simp [hj, show j < 77 by omega]
    rw [gdRecord_of_first hstart hread, hvalue]
  | true =>
    rw [← hlast hstart] at hr
    by_cases hv : v = u.gdLast
    · obtain rfl := (encodeRecord_of_repeat hstart hv).symm.trans hr
      have hbit : viewBit u 0 = false := (hbits 0 Nat.one_pos).trans BitVec.getLsbD_zero
      rw [gdRecord_of_started hstart hread, hbit, hv]
      rfl
    by_cases hreuse : Reusable u.gdCtrl (v ^^^ u.gdLast)
    · obtain rfl := (encodeRecord_of_reuse hstart hv hreuse).symm.trans hr
      replace hbits (j : Nat) (hj : j < 2 + u.gdCtrl.dataBits) := (hbits j hj).trans (getLsbD_reuseRecord hj)
      have hwindow :=
        gdWindow_of_reuse (bitsReadable_mono hread (Nat.le_add_right 2 _)) (hbits 1 (by omega)) hreuse.1
      rw [gdRecord_of_window hstart hread (by decide) (hbits 0 (by omega)) hwindow]
      refine congrArg _ (afterWindowed_of_data (windowFits_of_reusable hv hreuse) fun j hj => ?_)
      rw [hbits _ (by omega), reuseBit, if_neg (by omega), if_neg (by omega), Nat.add_sub_cancel_left]
    · obtain rfl := (encodeRecord_of_new hstart hv hreuse).symm.trans hr
      have hx := xor_ne_zero hv
      replace hbits (j : Nat) (hj : j < 13 + (newWindow (v ^^^ u.gdLast)).dataBits) :=
        (hbits j hj).trans (getLsbD_newRecord hj)
      obtain ⟨hsum, hnamed⟩ := namedWindow_of_newBits hstart hx fun j hj => hbits j (by omega)
      have hwindow := gdWindow_of_new (bitsReadable_mono hread (Nat.le_add_right 13 _)) (hbits 1 (by omega)) hsum
      rw [hnamed] at hwindow
      rw [gdRecord_of_window hstart hread (by decide) (hbits 0 (by omega)) hwindow]
      refine congrArg _ (afterWindowed_of_data (windowFits_newWindow hx) fun j hj => ?_)
      rw [hbits _ (by omega), newBit, if_neg (by omega), if_neg (by omega), if_neg (by omega), Nat.add_sub_cancel_left]

/-! ### The stream of a sequence of `GE.PUT`s (R271) -/

/-- A completed `GE.PUT` extends the bit stream by its record and records the value and the window. -/
theorem streamExtends_of_gePut {v : Word} {s t : State} (hm : Memory.wf s.mem = true)
    (h : effect .gePut (s.latch v) = .ok t) :
    StreamExtends s t ∧ t.bwBits.toNat = s.bwBits.toNat + (encodeRecord s.geLast s.geCtrl v).length ∧
      (∀ j < (encodeRecord s.geLast s.geCtrl v).length, streamBit t.mem t.bwBase.toNat (s.bwBits.toNat + j) =
        (encodeRecord s.geLast s.geCtrl v).bits.getLsbD j) ∧
      t.geLast = v ∧ t.geCtrl = (encodeRecord s.geLast s.geCtrl v).ctrl := by
  obtain ⟨u, happend, rfl⟩ := gePut_cases h
  obtain ⟨hext, hlen, hnew⟩ := streamExtends_of_bitAppend (s := s.latch v) hm happend
  exact ⟨{ hext with }, hlen, hnew, rfl, rfl⟩

/-- No `GE.PUT` executes while halted (R305). -/
theorem executesHalted_of_gePuts {vs : List Word} :
    ∀ c ∈ vs.map fun v => ((.gePut, v) : Transaction), executesHalted c.1 = false := by
  intro c hc
  obtain ⟨v, -, rfl⟩ := List.mem_map.mp hc
  rfl

/-- A sequence of `GE.PUT`s that all succeed extends the bit stream. -/
theorem streamExtends_of_gePuts {t : State} (ht : t.halted = false) : ∀ {vs : List Word} {s : State},
    s.halted = false → Memory.wf s.mem = true → issueAll (vs.map fun v => (.gePut, v)) s = .next t → StreamExtends s t
  | [], _, _, hm, h => Host.Outcome.next.inj h ▸ StreamExtends.refl hm
  | v :: vs, s, hs, hm, h => by
    obtain ⟨u, hput, hu, htail⟩ := effect_of_issueAll_cons (executesHalted_of_gePuts (vs := v :: vs)) hs h ht
    obtain ⟨hfirst, -⟩ := streamExtends_of_gePut hm hput
    exact hfirst.trans (streamExtends_of_gePuts ht hu hfirst.canonical htail)

/-! ### Round trip (R283) -/

/-- The bits from a cursor on are those of the stream. -/
theorem viewBit_of_cursorAt {u t : State} {p j : Nat} (h : CursorAt u t p) (hj : p + j < t.bwBits.toNat) :
    viewBit u j = streamBit t.mem t.bwBase.toNat (p + j) := by
  rw [viewBit, h.pos, h.bits _ hj]

/-- `GD.NEXT` where a `GE.PUT` began, over the stream that it and later ones left, returns the value put, moves the cursor
to where the record ends, and follows the encoder on. -/
theorem gdNext_of_follows {u s s' t : State} {v : Word} (hm : Memory.wf s.mem = true)
    (hput : effect .gePut (s.latch v) = .ok s') (hrest : StreamExtends s' t) (hcur : CursorAt u t s.bwBits.toNat)
    (hfollows : GorillaFollows u s) :
    ∃ u', effect .gdNext u = .ok u' ∧ u'.dout = v ∧ CursorAt u' t s'.bwBits.toNat ∧ GorillaFollows u' s' := by
  obtain ⟨hfirst, hlen, hnew, hlast, hctrl⟩ := streamExtends_of_gePut hm hput
  have hend := hlen ▸ hrest.longer
  have hread := hcur.bitsReadable hend (hfirst.trans hrest).fits
  have hbits (j : Nat) (hj : j < (encodeRecord s.geLast s.geCtrl v).length) :
      viewBit u j = (encodeRecord s.geLast s.geCtrl v).bits.getLsbD j := by
    rw [viewBit_of_cursorAt hcur (by omega), hrest.bits _ (by omega), hnew j hj]
  have hpos := (toNat_brPos_pastBits hread).trans (congrArg (· + _) hcur.pos)
  exact ⟨_, gdNext_of_record (gdRecord_of_encodeRecord hfollows rfl hread hbits), rfl,
    { hcur with pos := hpos.trans hlen.symm }, ⟨hctrl.symm, fun _ => hlast.symm⟩⟩

/-- A decoder that follows the encoder returns the values put, one `GD.NEXT` each, and after each of them it stands where
the encoder stood and holds what the encoder held. -/
theorem collectAll_gdNext {t : State} (ht : t.halted = false) {vs : List Word} {s u : State} (hs : s.halted = false)
    (hm : Memory.wf s.mem = true) (h : issueAll (vs.map fun v => (.gePut, v)) s = .next t)
    (hcur : CursorAt u t s.bwBits.toNat) (hfollows : GorillaFollows u s) {k : Nat} (hk : k ≤ vs.length) :
    ∃ tk uk, issueAll ((vs.take k).map fun v => (.gePut, v)) s = .next tk ∧
      collectAll (List.replicate k (.gdNext, 0)) u = some (vs.take k, uk) ∧ uk.brPos = tk.bwBits ∧
      uk.gdCtrl = tk.geCtrl := by
  induction k generalizing vs s u with
  | zero => exact ⟨s, u, rfl, rfl, BitVec.eq_of_toNat_eq hcur.pos, hfollows.ctrl⟩
  | succ k ih =>
    cases vs with
    | nil => exact absurd hk (Nat.not_succ_le_zero k)
    | cons v vs =>
      obtain ⟨s', hput, hs', htail⟩ := effect_of_issueAll_cons (executesHalted_of_gePuts (vs := v :: vs)) hs h ht
      obtain ⟨hfirst, -⟩ := streamExtends_of_gePut hm hput
      have hrest : StreamExtends s' t := streamExtends_of_gePuts ht hs' hfirst.canonical htail
      obtain ⟨u', hnext, rfl, hcur', hfollows'⟩ :=
        gdNext_of_follows (u := u.latch 0) hm hput hrest { hcur with } { hfollows with }
      obtain ⟨tk, uk, hputs, hgets, hend⟩ :=
        ih hs' hfirst.canonical htail hcur' hfollows' (Nat.le_of_succ_le_succ hk)
      have hissue : issue (.gePut, u'.dout) s = .next s' := exec_of_effect_ok (s := s.latch u'.dout) hs hput
      refine ⟨tk, uk, ?_, collectAll_cons (c := (.gdNext, 0)) hcur.running hnext hcur'.running hgets, hend⟩
      rw [List.take_succ_cons, List.map_cons, issueAll, hissue]
      exact hputs

/-- Settles O59: a view of the written bytes is a cursor where the puts began, and a clear decoder follows a clear
encoder. -/
theorem gorillaRoundTrip : Obligations.GorillaRoundTrip := by
  intro vs s t u hs hm hempty hclear hputs ht hview huclear k hk
  have hstart : s.bwBits.toNat = 0 := by simp [hempty]
  have hfollows : GorillaFollows u s := ⟨huclear.trans hclear.symm, fun h => by simp [hclear] at h⟩
  exact collectAll_gdNext ht hs hm hputs (hstart ▸ cursorAt_of_views hview) hfollows hk

end Sys2Proof.Proofs

/-! Errors and the halted state (spec/60_exceptions.md; R300 to R305): a command completes or only raises, which command
raises which error, and what a halted block ignores. -/

namespace Sys2Proof.Proofs

open Sys2Proof Sys2Proof.Machine Sys2Proof.Laws

/-! ### Every command has a next state, and an effect is what halts a block (R20, R302, R303) -/

theorem complete_next (s : State) (r : Except ErrCode State) : ∃ t, complete s r = .next t := by
  cases r with
  | ok t => exact ⟨t, complete_ok s t⟩
  | error e => exact ⟨s.raise e, complete_error s e⟩

/-- Every command has a next state in every state (R20). -/
theorem exec_next (i : Instr) (s : State) : ∃ t, exec i s = .next t := by
  rw [exec_eq]
  split
  · exact complete_next s _
  · exact dataCommand_next s _

/-- A completed effect does not halt a running block: only `CLRERR` and SRESET write `STATUS`, and both clear it. -/
theorem running_of_effect_ok {i : Instr} {s t : State} (hs : s.halted = false) (h : effect i s = .ok t) :
    t.halted = false := by
  by_cases hr : i = .sreset
  · subst hr
    cases h
    rfl
  · by_cases hc : i = .clrerr
    · subst hc
      cases h
      rfl
    · exact (congrArg Status.fault (effect_status h hr hc)).trans hs

/-- A command that halts a running block has raised, with `STATUS` naming its error and no other effect (R302, R303). -/
theorem raised_of_exec_halts {i : Instr} {s t : State} (hs : s.halted = false) (h : exec i s = .next t)
    (ht : t.halted = true) :
    ∃ e, effect i s = .error e ∧ t = { s with status := { err := e, fault := true } } := by
  obtain rfl | hok | hraised := exec_cases h
  · exact absurd (hs.symm.trans ht) Bool.false_ne_true
  · exact absurd ((running_of_effect_ok hs hok).symm.trans ht) Bool.false_ne_true
  · exact hraised

/-- Settles O11: a command that halts a running block has raised, and an effect never raises code 0. -/
theorem commandsCompleteOrOnlyRaise : Obligations.CommandsCompleteOrOnlyRaise := by
  intro i s
  obtain ⟨t, h⟩ := exec_next i s
  refine ⟨t, h, fun hs ht => ?_⟩
  obtain ⟨e, he, rfl⟩ := raised_of_exec_halts hs h ht
  exact ⟨effect_error_ne_noError he, rfl⟩

/-! ### A halted block (R305) -/

/-- No command executes while halted but the four that R305 names. -/
theorem executesHalted_eq_false {i : Instr} (hnop : i ≠ .nop) (hcsrr : ∀ n, i ≠ .csrr n) (hclrerr : i ≠ .clrerr)
    (hsreset : i ≠ .sreset) : executesHalted i = false := by
  cases i with
  | nop => exact absurd rfl hnop
  | csrr n => exact absurd rfl (hcsrr n)
  | clrerr => exact absurd rfl hclrerr
  | sreset => exact absurd rfl hsreset
  | _ => rfl

/-- Settles O12: a halted block ignores the commands that do not execute while halted, and every error, that of an
illegal word included. -/
theorem haltedBlockIgnoresCommands : Obligations.HaltedBlockIgnoresCommands := by
  intro s hs
  refine ⟨fun i hnop hcsrr hclrerr hsreset => ?_, fun n hn => exec_csrr_of_unassigned_of_halted hn hs,
    fun c d rest e hr hp hd => ?_⟩
  · exact exec_of_halted (executesHalted_eq_false hnop hcsrr hclrerr hsreset) hs
  · rw [step_of_decode_error hr hp hd]
    exact congrArg Host.Outcome.next (raise_of_halted { s with pending := rest, din := d } .illegal hs)

/-! ### Which command raises which error (R300) -/

/-- The errors that a well-formed command can raise: the "raised by" column of R300, by command. -/
def raisable : Instr → List ErrCode
  | .csrr _ | .csrw _ => [.illegal]
  | .bwPut _ | .gePut | .ywPut _ | .ywCpy | .seFlush => [.cap, .bus]
  | .brGet _ | .brBit | .yrGet _ | .sdNext | .ddNext => [.oob, .bus]
  | .yrSub => [.oob]
  | .sePush | .dePush => [.range, .cap, .bus]
  | .gdNext => [.oob, .bus, .corrupt]
  | .nop | .clrerr | .sreset | .bwClr | .bwBlen | .brEnd | .ywClr | .zzEnc | .zzDec | .seClr | .sdClr | .deClr
  | .ddClr | .geClr | .gdClr => []

/-- A command whose width is legal raises only what it raises past the check of its width (R92). -/
theorem guarded_error_of_legal {legal : Bool} {r : Except ErrCode State} {e : ErrCode} (hl : legal = true)
    (h : (if legal then r else .error .illegal) = .error e) : r = .error e := by
  rwa [if_pos hl] at h

/-- A well-formed command raises no error but those R300 gives it. -/
theorem mem_raisable_of_effect_error {i : Instr} {s : State} {e : ErrCode} (hi : WellFormed i)
    (h : effect i s = .error e) : e ∈ raisable i := by
  cases i with
  | csrr n => simpa [raisable] using csrr_error h
  | csrw n => simpa [raisable] using csrw_error h
  | bwPut w => simpa [raisable] using bitAppend_error (guarded_error_of_legal hi h)
  | brGet w => simpa [raisable] using bitFetch_error ((toDout_error_iff _ _).mp (guarded_error_of_legal hi h))
  | brBit => simpa [raisable] using bitFetch_error ((toDout_error_iff _ _).mp h)
  | ywPut w => simpa [raisable] using byteAppend_error (guarded_error_of_legal hi h)
  | ywCpy => simpa [raisable] using ywCpy_error h
  | yrGet w => simpa [raisable] using byteFetch_error ((toDout_error_iff _ _).mp (guarded_error_of_legal hi h))
  | yrSub => simpa [raisable] using yrSub_error h
  | sePush => simpa [raisable] using sePushValue_error h
  | seFlush => simpa [raisable] using byteAppend_error h
  | sdNext => simpa [raisable] using sdNextValue_error ((toDout_error_iff _ _).mp h)
  | dePush => simpa [raisable] using sePushValue_error (dePush_error h)
  | ddNext => simpa [raisable] using sdNextValue_error (ddNext_error h)
  | gePut => simpa [raisable] using gePut_error h
  | gdNext => simpa [raisable] using gdNext_error h
  | nop | clrerr | sreset | bwClr | bwBlen | brEnd | ywClr | zzEnc | zzDec | seClr | sdClr | deClr | ddClr | geClr
  | gdClr => cases h

/-- The table of R300 by error, one line per code. -/
theorem raisable_by_code (i : Instr) :
    (.illegal ∈ raisable i → ∃ n, i = .csrr n ∨ i = .csrw n) ∧
    (.range ∈ raisable i → i = .sePush ∨ i = .dePush) ∧
    (.oob ∈ raisable i → (∃ w, i = .brGet w ∨ i = .yrGet w) ∨
      i ∈ [Instr.brBit, .gdNext, .yrSub, .sdNext, .ddNext]) ∧
    (.cap ∈ raisable i → (∃ w, i = .bwPut w ∨ i = .ywPut w) ∨
      i ∈ [Instr.gePut, .ywCpy, .sePush, .seFlush, .dePush]) ∧
    (.bus ∈ raisable i → (∃ w, i = .bwPut w ∨ i = .brGet w ∨ i = .ywPut w ∨ i = .yrGet w) ∨
      i ∈ [Instr.gePut, .brBit, .gdNext, .ywCpy, .sePush, .seFlush, .dePush, .sdNext, .ddNext]) ∧
    (.corrupt ∈ raisable i → i = .gdNext) := by
  cases i <;> simp [raisable]

/-- Settles O13: a command that halts a running block has raised an error that R300 gives it. -/
theorem errorsByCommand : Obligations.ErrorsByCommand := by
  intro i s t hi hs h ht
  obtain ⟨e, he, rfl⟩ := raised_of_exec_halts hs h ht
  have hmem : e ∈ raisable i := mem_raisable_of_effect_error hi he
  obtain ⟨hillegal, hrange, hoob, hcap, hbus, hcorrupt⟩ := raisable_by_code i
  exact ⟨fun hc => hillegal (hc ▸ hmem), fun hc => hrange (hc ▸ hmem), fun hc => hoob (hc ▸ hmem),
    fun hc => hcap (hc ▸ hmem), fun hc => hbus (hc ▸ hmem), fun hc => hcorrupt (hc ▸ hmem)⟩

end Sys2Proof.Proofs

/-! The block's inputs (spec/70_reset_and_hazards.md; R325, R340 to R342, R360): a step with nothing presented, a host
memory access, the reset input, and the invariant at reset. -/

namespace Sys2Proof.Proofs

open Sys2Proof Sys2Proof.Machine Sys2Proof.Laws

/-! ### The step by its action -/

/-- With nothing presented the block holds its state (R325). -/
theorem step_of_idle {s : State} (h : s.pending = []) : step s = .next s := by
  rw [step, h]

/-- A step takes the first action of the host's list (R360). -/
theorem step_of_action {s : State} {a : HostAction} {rest : List HostAction} (h : s.pending = a :: rest) :
    step s = takeAction a { s with pending := rest } := by
  rw [step, h]

/-- A command presented while the reset input is asserted is taken without effect (log entry 2). -/
theorem acceptCommand_of_inReset {s : State} (h : s.inReset = true) (c : CommandWord) (d : Word) :
    acceptCommand s c d = .next s :=
  if_pos h

/-! ### Host memory accesses (R60, R68, R360; log entry 7) -/

theorem hostRead_inside {s : State} {a : Addr} (h : a.toNat < s.memBytes) : hostRead s a = .next s :=
  if_pos h

theorem hostRead_outside {s : State} {a : Addr} (h : s.memBytes ≤ a.toNat) :
    hostRead s a = .fault (.hostAddressOutsideMem a) :=
  if_neg (Nat.not_lt.mpr h)

theorem hostWrite_inside {s : State} {a : Addr} (b : Byte) (h : a.toNat < s.memBytes) :
    hostWrite s a b = .next { s with mem := Memory.write s.mem a.toNat b } :=
  if_pos h

theorem hostWrite_outside {s : State} {a : Addr} (b : Byte) (h : s.memBytes ≤ a.toNat) :
    hostWrite s a b = .fault (.hostAddressOutsideMem a) :=
  if_neg (Nat.not_lt.mpr h)

/-- Settles O6: the step is the host's access, inside MEM or outside, and a canonical memory reads back one write. -/
theorem hostMemoryAccessChangesOneByte : Obligations.HostMemoryAccessChangesOneByte := by
  intro s rest a b
  refine ⟨step_of_idle, fun hp ha => ?_, fun hp ha hm => ?_, ?_⟩
  · exact (step_of_action hp).trans (hostRead_inside ha)
  · exact ⟨_, (step_of_action hp).trans (hostWrite_inside b ha), rfl, fun x => read_write s.mem a.toNat b x hm⟩
  · rintro (hp | hp) ha
    · exact (step_of_action hp).trans (hostRead_outside ha)
    · exact (step_of_action hp).trans (hostWrite_outside b ha)

/-! ### The reset input (R340, R341) -/

/-- Settles O7, by the rules for the three actions. -/
theorem resetInputHoldsTheBlock : Obligations.ResetInputHoldsTheBlock := fun s rest =>
  ⟨step_of_assertReset, step_of_action, fun c d hr hp =>
    (step_of_action hp).trans (acceptCommand_of_inReset (s := { s with pending := rest }) hr c d)⟩

/-! ### The invariant at reset (R10, R340, R342) -/

/-- Settles O10: power-on is the cleared block of `inv_powerOn`, released and with nothing presented, and reset is the
power-on of an empty memory of `Config.memBytes` bytes. -/
theorem invariantHoldsAtReset : Obligations.InvariantHoldsAtReset :=
  ⟨inv_powerOn (n := Config.memBytes) (by decide) (by decide) wf_nil rfl false [],
    fun _ _ hmin hmax hwf hbelow => inv_powerOn hmin hmax hwf hbelow false []⟩

end Sys2Proof.Proofs
